-- ==== Sys2Proof/Word.lean ====
section
/-!
DEFINITION. The word types of the engine (00_scope R5, R7; 10_state R10, R25, R30 to R33). Every width is fixed at the
spec's default (log 17).
-/
namespace Sys2Proof

/-- A byte, a sample and a `MSG` cell are 8 bits wide (00_scope R5 `SAMPLE_BITS`, R7). -/
abbrev Byte := BitVec 8

/-- A password character code, one `PWD` cell (00_scope R5 `PW_CHAR_BITS`; 10_state R32). -/
abbrev CharCode := BitVec 16

/-- A single bit: a `BITS` cell and the `BIT` register (00_scope R7; 10_state R16, R33). `true` is 1. -/
abbrev Bit := Bool

/-- An image dimension, `DIM_BITS` wide (10_state R11). -/
abbrev Dim := BitVec 16

/-- A message length, the capacity and a key, `LEN_BITS` wide (10_state R13, R19, R20). -/
abbrev Len := BitVec 32

/-- A sample index, a bit count and a stream position, `BIG_BITS` wide (10_state R12, R15, R17, R18). -/
abbrev Big := BitVec 36

/-- A command word, the value written to `CMD` (30_encoding R65). -/
abbrev CmdWord := BitVec 8

end Sys2Proof
end

