-- ==== Sys2Proof/Config.lean ====
section
/-!
DEFINITION. The free values: what the spec leaves open and no proof may see. Each is an opaque constant without a body,
applied to plain data of State, so a statement about it holds for every value it could have. The numeric constants of
00_scope R5 stand in Sys2Proof/Machine/Params.lean.
-/
namespace Sys2Proof

/-- What a `PIX` cell that was never written holds (70_reset R161, U7): number of the contents, cell
index. DESIGN CHOICE, log 2. -/
opaque Config.unwrittenPix : Nat → Nat → Byte

/-- What a `MSG` cell that was never written holds (R161, U7): number of the contents, cell
index. DESIGN CHOICE, log 2. -/
opaque Config.unwrittenMsg : Nat → Nat → Byte

/-- What a `PWD` cell that was never written holds (R161, U7): number of the contents, cell
index. DESIGN CHOICE, log 2. -/
opaque Config.unwrittenPwd : Nat → Nat → CharCode

/-- What a `BITS` cell that was never written holds (R161, U7): number of the contents, cell
index. DESIGN CHOICE, log 2. -/
opaque Config.unwrittenBits : Nat → Nat → Bit

/-- What a `PIX` cell holds that a command was writing when a reset struck (70_reset R162, U9): draw number, cell index.
DESIGN CHOICE, log 6. -/
opaque Config.interruptedPix : Nat → Nat → Byte

/-- What a `MSG` cell holds that a command was writing when a reset struck (R162, U9): draw number, cell index. Log 6. -/
opaque Config.interruptedMsg : Nat → Nat → Byte

/-- What a `BITS` cell holds that a command was writing when a reset struck (R162, U9): draw number, cell index. Log 6. -/
opaque Config.interruptedBits : Nat → Nat → Bit

/-- The value `PROGRESS` draws (10_state R28, U5, U6), before the laws of R28 bound it: draw number. DESIGN CHOICE, log 5. -/
opaque Config.progressDraw : Nat → Nat

end Sys2Proof
end

