-- ==== Sys2Proof/Machine/Params.lean ====
section
/-!
DEFINITION. The constants of 00_scope R5, taken as the spec writes them (R2 calls the source's literals unaudited).
-/
namespace Sys2Proof.Machine

/-- Samples per pixel: Red, Green, Blue, Alpha (00_scope R5 `CHANNELS`). -/
def channels : Nat := 4

/-- Samples per pixel that carry a bit (R5 `CARRIERS`). -/
def carriersPerPixel : Nat := 3

/-- Bits the capacity formula reserves (R5 `RESERVE_BITS`). -/
def reserveBits : Nat := 64

/-- Width of the length header in bits (R5 `HEADER_BITS`). -/
def headerBits : Nat := 32

/-- Zero bytes of the terminator (R5 `TERM_BYTES`). -/
def termBytes : Nat := 4

/-- Greatest declared length the decoder accepts (R5 `MAX_DECLARED`). -/
def maxDeclared : Nat := 1000000

/-- Multiplier of the password hash (R5 `HASH_MULT`). -/
def hashMult : Int := 31

/-- The hash before the first character (R5 `HASH_SEED`, D7, K1). PRESUMED by the spec itself, log 15. -/
def hashSeed : Int := 0

/-- Modulus of the mask (R5 `MASK_MOD`). -/
def maskMod : Nat := 256

/-- Greatest value `PROGRESS` takes, at an `OK` completion (10_state R28 (c)). -/
def progressDone : Nat := 100

/-- Greatest value `PROGRESS` takes while a command runs (10_state R28 (b)). -/
def progressBusyMax : Nat := 99

/-- Cells of `PIX` and of `BITS` (10_state R30, R33). -/
def bigCells : Nat := 2 ^ 36

/-- Cells of `MSG` (10_state R31). -/
def msgCells : Nat := 2 ^ 32

/-- Cells of `PWD` (10_state R32). -/
def pwdCells : Nat := 2 ^ 16

end Sys2Proof.Machine
end

