-- ==== Sys2Proof/Machine/Memory.lean ====
section
/-!
DEFINITION. One memory space: a list of (index, value) pairs with strictly rising indices (10_state R30 to R33). An index
that is not listed is a cell nothing has written; what it reads as is the free value the caller names (70_reset R161, log 2).
`Memory Byte` is a list of `Host.Cell` (log 18).
-/
namespace Sys2Proof.Machine

/-- A memory space whose cells hold an `α`. -/
abbrev Memory (α : Type) := List (Nat × α)

variable {α : Type}

/-- The listed value of cell `a`; `none` if nothing has written it. -/
def memFind : Memory α → Nat → Option α
  | [], _ => none
  | (k, v) :: rest, a => if a = k then some v else memFind rest a

/-- `MemRead(S, a, 1)` (00_scope R8): the cell's value, `free a` where nothing has written it (70_reset R161). -/
def memRead (free : Nat → α) (m : Memory α) (a : Nat) : α :=
  (memFind m a).getD (free a)

/-- `MemWrite(S, a, 1, v)` (00_scope R8). -/
def memWrite : Memory α → Nat → α → Memory α
  | [], a, v => [(a, v)]
  | (k, u) :: rest, a, v =>
    if a < k then (a, v) :: (k, u) :: rest
    else if a = k then (a, v) :: rest
    else (k, u) :: memWrite rest a v

/-- `for k in 0 .. len(vs)-1: S[base + k] <- vs[k]`, in ascending order (00_scope R8, 20_memory R50). -/
def memWriteSeq : Memory α → Nat → List α → Memory α
  | m, _, [] => m
  | m, base, v :: vs => memWriteSeq (memWrite m base v) (base + 1) vs

/-- Every cell of `cells` takes the value `free` gives it. -/
def memFill (free : Nat → α) : List Nat → Memory α → Memory α
  | [], m => m
  | a :: cells, m => memFill free cells (memWrite m a (free a))

/-- The canonical form: indices strictly rising. -/
def Memory.wf : Memory α → Bool
  | [] => true
  | [_] => true
  | (k, _) :: (k', v') :: rest => decide (k < k') && Memory.wf ((k', v') :: rest)

/-- Every listed index is below `n`. -/
def Memory.within (n : Nat) : Memory α → Bool
  | [] => true
  | (k, _) :: rest => decide (k < n) && Memory.within n rest

end Sys2Proof.Machine
end

