-- ==== Sys2Proof/Syntax.lean ====
section
/-!
DEFINITION. The engine's instructions: the eleven commands of 30_encoding R71, one constructor per row of
spec/opcode_table.json. No command word carries an operand (30_encoding R65, R69).
-/
namespace Sys2Proof

/-- The eleven commands (30_encoding R71), in the order of their codes. -/
inductive Instr
  /-- `CAPACITY`, 40_capacity R81. -/
  | capacity
  /-- `PACK`, 41_bit_packer R90. -/
  | pack
  /-- `UNPACK`, 41_bit_packer R91. -/
  | unpack
  /-- `WRBIT`, 41_bit_packer R92. -/
  | wrbit
  /-- `RDBIT`, 41_bit_packer R93. -/
  | rdbit
  /-- `PWHASH`, 43_password_mask R110. -/
  | pwhash
  /-- `XMASK`, 43_password_mask R111. -/
  | xmask
  /-- `EMBED`, 42_stream_engine R98. -/
  | embed
  /-- `EXTRACT`, 42_stream_engine R99. -/
  | extract
  /-- `ENCODE`, 44_frame_codec R118. -/
  | encode
  /-- `DECODE`, 44_frame_codec R122. -/
  | decode
deriving DecidableEq, Repr

end Sys2Proof
end

