-- ==== Sys2Proof/Machine/State.lean ====
section
/-!
DEFINITION. The state of the engine (10_state.md), the turns of its agents, the reasons a step can stop, and the state right
after reset (70_reset R160, R161).
-/
namespace Sys2Proof.Machine

/-- The four memory spaces (10_state R30 to R33). -/
inductive Space
  | pix | msg | pwd | bits
deriving DecidableEq, Repr

/-- What the host may do at the register and memory interface (10_state R21, R25, R26, R30 to R33; 30_encoding R76) and the
reset input (70_reset R160). A write to register 16 is the issue of a command. -/
inductive HostAction
  /-- `wr REG, v`: write of `v` to the register numbered `n`. -/
  | writeReg (n v : Nat)
  /-- `rd REG`: read of the register numbered `n`. -/
  | readReg (n : Nat)
  /-- one cell of `ld`: write of `v` to cell `a` of space `sp`. -/
  | writeCell (sp : Space) (a v : Nat)
  /-- one cell of `dump`: read of cell `a` of space `sp`. -/
  | readCell (sp : Space) (a : Nat)
  /-- the reset input is applied. -/
  | reset
deriving DecidableEq, Repr

/-- One move of one agent. The agenda of State says whose turn comes next (log 1). -/
inductive Turn
  /-- the host, or the reset input, acts. -/
  | host (a : HostAction)
  /-- the engine raises `PROGRESS` while a command is in flight (10_state R28 (b)). -/
  | progress
  /-- the engine brings the command in flight to its completion (10_state R26). -/
  | complete
deriving DecidableEq, Repr

/-- Why a step stops with a fault. -/
inductive Fault
  /-- Raised by a host access (never by a command) to a cell index outside its space, which 10_state R30 to R33 say does not
  exist. Safe: the model stops. Log 10. -/
  | noSuchCell (sp : Space) (a : Nat)
deriving DecidableEq, Repr

/-- Why the model gives a step no meaning. -/
inductive Refusal
  /-- Raised by an arm of `exec` for an instruction that has no meaning yet; no arm raises it. Safe. -/
  | notModelled (mnemonic : String)
  /-- Raised by a host access to an operand register or a memory cell while a command runs: 70_reset R166 refuses the host
  action. Safe. Log 8. -/
  | hostAccessWhileBusy
  /-- Raised by a host write of a value wider than the register or cell, which 10_state R21 says cannot be written. Safe. Log 9. -/
  | hostValueTooWide
deriving DecidableEq, Repr

/-- The whole state of one engine (10_state R34; 70_reset R176, log 19), with the schedule of the agents around it. -/
structure State where
  /-- `W`, x[0] (R11) -/
  w : Dim
  /-- `H`, x[1] (R11) -/
  h : Dim
  /-- `PIXLEN`, x[2] (R12) -/
  pixlen : Big
  /-- `MLEN`, x[3] (R13) -/
  mlen : Len
  /-- `PLEN`, x[4] (R14) -/
  plen : BitVec 16
  /-- `IDX`, x[5] (R15) -/
  idx : Big
  /-- `BIT`, x[6] (R16) -/
  bit : Bit
  /-- `BLEN`, x[7] (R17) -/
  blen : Big
  /-- `POS`, x[8] (R18, R24) -/
  pos : Big
  /-- `CAP`, x[9] (R19) -/
  cap : Len
  /-- `KEY`, x[10] (R20) -/
  key : Len
  /-- `STATUS`, register 17 (R25, R27): BUSY bit 0, DONE bit 1, CODE bits 7:4 -/
  status : BitVec 8
  /-- `PROGRESS`, register 18 (R25, R28) -/
  progress : BitVec 7
  /-- `PIX`, the pixel buffer (R30) -/
  pix : Memory Byte
  /-- `MSG`, the message buffer (R31) -/
  msg : Memory Byte
  /-- `PWD`, the password buffer (R32) -/
  pwd : Memory CharCode
  /-- `BITS`, the bit buffer (R33) -/
  bits : Memory Bit
  /-- hidden: the command word consumed at issue, while the command runs; 0 while none runs (R26, R34; log 12) -/
  inFlight : CmdWord
  /-- the model's own: whose turn comes next, first turn first (log 1) -/
  agenda : List Turn
  /-- the model's own: what the last host read returned (log 11) -/
  hostData : Nat
  /-- the model's own: which unspecified contents the never-written cells hold; a reset of an idle engine moves on to the
  next (log 2, log 3, log 7) -/
  powerOn : Nat
  /-- the model's own: how many free values have been drawn (log 4) -/
  draws : Nat
deriving DecidableEq, Repr

/-- The machine right after reset (70_reset R160): every operand register, `STATUS` and `PROGRESS` 0, nothing known of the
memories (R161). The values of the model's own fields and of `inFlight` are DESIGN CHOICE (log 1, 3, 4, 11, 12). -/
def State.reset : State where
  w := 0
  h := 0
  pixlen := 0
  mlen := 0
  plen := 0
  idx := 0
  bit := false
  blen := 0
  pos := 0
  cap := 0
  key := 0
  status := 0
  progress := 0
  pix := []
  msg := []
  pwd := []
  bits := []
  inFlight := 0
  agenda := []
  hostData := 0
  powerOn := 0
  draws := 0

end Sys2Proof.Machine
end

