-- ==== Sys2Proof/Machine/Flags.lean ====
section
/-!
DEFINITION. `STATUS` and `PROGRESS`: the outcome codes (60_exceptions R140), the status word (10_state R25, R27) and the laws
of progress (10_state R28). The engine has no other flag (10_state R29).
-/
namespace Sys2Proof.Machine

/-- How a command ends (60_exceptions R140). -/
inductive Code
  | ok | capacityExceeded | notFound | invalidInput | outOfRange | invalidCommand
deriving DecidableEq, Repr

/-- The number of an outcome in `STATUS.CODE` (60_exceptions R140). -/
def codeBits : Code → BitVec 4
  | .ok => 0
  | .capacityExceeded => 1
  | .notFound => 2
  | .invalidInput => 3
  | .outOfRange => 4
  | .invalidCommand => 5

/-- The `STATUS` word: CODE in bits 7:4, bits 3:2 zero, DONE bit 1, BUSY bit 0 (10_state R25). -/
def statusWord (code : BitVec 4) (done busy : Bool) : BitVec 8 :=
  code ++ 0#2 ++ BitVec.ofBool done ++ BitVec.ofBool busy

/-- `STATUS` while a command runs: `BUSY = 1`, `DONE = 0`, `CODE = 0` (10_state R26, R27). -/
def statusBusy : BitVec 8 := statusWord 0 false true

/-- `STATUS` once a command has completed: `BUSY = 0`, `DONE = 1`, `CODE` the outcome's (10_state R26, R27). -/
def statusDone (c : Code) : BitVec 8 := statusWord (codeBits c) true false

/-- `STATUS.BUSY`, bit 0 (10_state R27). -/
def State.busy (s : State) : Bool := s.status.getLsbD 0

/-- `STATUS.DONE`, bit 1 (10_state R27). -/
def State.done (s : State) : Bool := s.status.getLsbD 1

/-- `STATUS.CODE`, bits 7:4 (10_state R27). -/
def State.code (s : State) : BitVec 4 := s.status.extractLsb' 4 4

/-- The engine's one output, the level `done` (60_exceptions R147). -/
def State.doneOutput (s : State) : Bool := s.done

/-- A draw bounded to lie between the last value `lo` of `PROGRESS` and `hi` (10_state R28 (b), (d)); every value of that
range is the bound of some draw. -/
def boundedDraw (lo hi draw : Nat) : Nat := max lo (min hi draw)

/-- `PROGRESS` after the engine has raised it once more while the command runs: it does not decrease and does not exceed 99
(10_state R28 (b)). DESIGN CHOICE, log 5. -/
def progressRaised (s : State) : BitVec 7 :=
  BitVec.ofNat 7 (boundedDraw s.progress.toNat progressBusyMax (Config.progressDraw s.draws))

/-- The final `PROGRESS` of a command that does not end `OK`: some value from the last one up to 100 (10_state R28 (d), U6).
DESIGN CHOICE, log 5. -/
def progressFinal (s : State) : BitVec 7 :=
  BitVec.ofNat 7 (boundedDraw s.progress.toNat progressDone (Config.progressDraw s.draws))

end Sys2Proof.Machine
end

