-- ==== Sys2Proof/Machine/Ops.lean ====
section
/-!
DEFINITION. The named operations over registers and memories, the issue of a command (10_state R26), and its two ways to
complete: `succeed`, and `raise`, which is what the engine has for taking an exception (60_exceptions R150).
-/
namespace Sys2Proof.Machine

/-! ### Register writes (00_scope R8 `x[i] <- v`) -/

/-- `W <- v` (host only, 10_state R10). -/
def State.setW (s : State) (v : Dim) : State := { s with w := v }

/-- `H <- v` (host only). -/
def State.setH (s : State) (v : Dim) : State := { s with h := v }

/-- `PIXLEN <- v` (host only). -/
def State.setPixlen (s : State) (v : Big) : State := { s with pixlen := v }

/-- `MLEN <- v` (host, UNPACK, DECODE). -/
def State.setMlen (s : State) (v : Len) : State := { s with mlen := v }

/-- `PLEN <- v` (host only). -/
def State.setPlen (s : State) (v : BitVec 16) : State := { s with plen := v }

/-- `IDX <- v` (host only). -/
def State.setIdx (s : State) (v : Big) : State := { s with idx := v }

/-- `BIT <- v` (host, RDBIT). -/
def State.setBit (s : State) (v : Bit) : State := { s with bit := v }

/-- `BLEN <- v` (host, PACK). -/
def State.setBlen (s : State) (v : Big) : State := { s with blen := v }

/-- `POS <- v` (host, EMBED, EXTRACT, ENCODE, DECODE). -/
def State.setPos (s : State) (v : Big) : State := { s with pos := v }

/-- `CAP <- v` (CAPACITY only). -/
def State.setCap (s : State) (v : Len) : State := { s with cap := v }

/-- `KEY <- v` (host, PWHASH). -/
def State.setKey (s : State) (v : Len) : State := { s with key := v }

/-! ### Cell reads (00_scope R8 `MemRead(S, a, 1)`); a cell nothing has written holds a free value (70_reset R161, log 2) -/

/-- The sample `PIX[a]`. -/
def State.pixAt (s : State) (a : Nat) : Byte := memRead (Config.unwrittenPix s.powerOn) s.pix a

/-- The byte `MSG[a]`. -/
def State.msgAt (s : State) (a : Nat) : Byte := memRead (Config.unwrittenMsg s.powerOn) s.msg a

/-- The character code `PWD[a]`. -/
def State.pwdAt (s : State) (a : Nat) : CharCode := memRead (Config.unwrittenPwd s.powerOn) s.pwd a

/-- The bit `BITS[a]`. -/
def State.bitsAt (s : State) (a : Nat) : Bit := memRead (Config.unwrittenBits s.powerOn) s.bits a

/-! ### Memory writes (00_scope R8 `MemWrite(S, a, 1, v)`) -/

/-- `PIX[a] <- v`. -/
def State.writePix (s : State) (a : Nat) (v : Byte) : State := { s with pix := memWrite s.pix a v }

/-- `MSG[base + i] <- vs[i]` for every `i`, ascending. -/
def State.writeMsg (s : State) (base : Nat) (vs : List Byte) : State := { s with msg := memWriteSeq s.msg base vs }

/-- `PWD[a] <- v` (host only, 10_state R32). -/
def State.writePwd (s : State) (a : Nat) (v : CharCode) : State := { s with pwd := memWrite s.pwd a v }

/-- `BITS[base + t] <- vs[t]` for every `t`, ascending. -/
def State.writeBits (s : State) (base : Nat) (vs : List Bit) : State := { s with bits := memWriteSeq s.bits base vs }

/-! ### The life of a command (10_state R26) -/

/-- Issue: `BUSY <- 1`, `DONE <- 0`, `CODE <- 0`, `PROGRESS <- 0`, and the word is on its way to the decoder (R26). It is also
what clears an outcome: there is no return from one (60_exceptions R152). -/
def State.issue (s : State) (v : CmdWord) : State :=
  { s with status := statusBusy, progress := 0, inFlight := v }

/-- Completion with `OK`: `BUSY <- 0`, `DONE <- 1`, `CODE <- OK`, `PROGRESS <- 100` (R26, R28 (c); 60_exceptions R141). -/
def State.succeed (s : State) : State :=
  { s with status := statusDone .ok, progress := BitVec.ofNat 7 progressDone, inFlight := 0 }

/-- `raise <Outcome>` (00_scope R8), "trap entry" (60_exceptions R150): `CODE`, `BUSY <- 0`, `DONE <- 1`, a final `PROGRESS`,
and nothing else. -/
def State.raise (s : State) (c : Code) : State :=
  { s with status := statusDone c, progress := progressFinal s, inFlight := 0, draws := s.draws + 1 }

/-- A command whose checks answer `check`: `OK` performs `effect` and succeeds; any other outcome is raised before the first
write (00_scope R8; 10_state R22; 60_exceptions R151). -/
def State.conclude (s : State) (check : Code) (effect : State → State) : State :=
  match check with
  | .ok => (effect s).succeed
  | .capacityExceeded => s.raise .capacityExceeded
  | .notFound => s.raise .notFound
  | .invalidInput => s.raise .invalidInput
  | .outOfRange => s.raise .outOfRange
  | .invalidCommand => s.raise .invalidCommand

/-- The engine raises `PROGRESS` while a command is in flight (10_state R28 (b)). -/
def State.raiseProgress (s : State) : State :=
  { s with progress := progressRaised s, draws := s.draws + 1 }

/-- The agenda is `turns` from here on (log 1). -/
def State.setAgenda (s : State) (turns : List Turn) : State := { s with agenda := turns }

/-- A host read returned `v` (log 11). -/
def State.setHostData (s : State) (v : Nat) : State := { s with hostData := v }

end Sys2Proof.Machine
end

