-- ==== Sys2Proof/Machine/Operands.lean ====
section
/-!
DEFINITION. The operand forms: every command takes its operands from fixed registers and ranges (30_encoding R69, R70).
-/
namespace Sys2Proof.Machine

/-- The message `[MSG[0], ..., MSG[MLEN-1]]` (10_state R13). -/
def State.message (s : State) : List Byte := (List.range s.mlen.toNat).map s.msgAt

/-- The password `[PWD[0], ..., PWD[PLEN-1]]` (10_state R14). -/
def State.password (s : State) : List CharCode := (List.range s.plen.toNat).map s.pwdAt

/-- The bit sequence `[BITS[0], ..., BITS[BLEN-1]]` (10_state R17). -/
def State.bitSeq (s : State) : List Bit := (List.range s.blen.toNat).map s.bitsAt

/-- `W * H`, the pixel count (10_state R11). -/
def State.pixels (s : State) : Nat := s.w.toNat * s.h.toNat

/-- `N = 3 * W * H`, the number of carrier samples, the length of the bit stream (10_state R11, 42_stream_engine R97). -/
def State.carriers (s : State) : Nat := carriersPerPixel * s.pixels

/-- `4 * W * H`, the number of samples an image of this shape has (10_state R12). -/
def State.samples (s : State) : Nat := channels * s.pixels

/-- The shape check of EMBED, EXTRACT, ENCODE and DECODE: `PIXLEN = 4 * W * H` (10_state R12, 60_exceptions R143). -/
abbrev State.ShapeOk (s : State) : Prop := s.pixlen.toNat = s.samples

/-- The index check of WRBIT and RDBIT (41_bit_packer R92, R93): `OutOfRange` when `IDX >= PIXLEN`. -/
def indexCheck (s : State) : Code :=
  if s.idx.toNat ≥ s.pixlen.toNat then .outOfRange else .ok

/-- The checks of EMBED and EXTRACT in their order (42_stream_engine R98, R99; 60_exceptions R148). -/
def streamCheck (s : State) : Code :=
  if ¬ s.ShapeOk then .invalidInput
  else if s.pos.toNat + s.blen.toNat > s.carriers then .outOfRange
  else .ok

end Sys2Proof.Machine
end

