-- ==== Sys2Proof/Machine/BitPacker.lean ====
section
/-!
DEFINITION. The bit packer/unpacker (41_bit_packer): `bytesToBits`, `bitsToBytes`, `wbit`, `rbit`, and the commands PACK,
UNPACK, WRBIT, RDBIT.
-/
namespace Sys2Proof.Machine

/-- The 8 bits of a byte, most significant first (20_memory R41): bit `j` of the expansion is `b[7 - j]`. -/
def byteBits (b : Byte) : List Bit := (List.range 8).map fun j => b.getLsbD (7 - j)

/-- `bytesToBits(bytes)` (41_bit_packer R85). -/
def bytesToBits (bytes : List Byte) : List Bit := bytes.flatMap byteBits

/-- `bit(t)` of 41_bit_packer R86: the bit, or 0 beyond the end (the right padding, 30_encoding R68). -/
def paddedBit (bits : List Bit) (t : Nat) : Bit := bits.getD t false

/-- Byte `i` of `bitsToBytes(bits)`: the sum over `j` of `bit(8i + j) * 2^(7-j)` (41_bit_packer R86). -/
def byteAt (bits : List Bit) (i : Nat) : Byte :=
  BitVec.ofNat 8 (((List.range 8).map fun j => (paddedBit bits (8 * i + j)).toNat * 2 ^ (7 - j)).sum)

/-- `ceil(m / 8)`. -/
def ceilDiv8 (m : Nat) : Nat := (m + 7) / 8

/-- `bitsToBytes(bits)` (41_bit_packer R86): a trailing partial group is padded with zeros on the right. -/
def bitsToBytes (bits : List Bit) : List Byte := (List.range (ceilDiv8 bits.length)).map (byteAt bits)

/-- `wbit(s, b) = (s & 0xFE) | b` (41_bit_packer R88). -/
def wbit (s : Byte) (b : Bit) : Byte := (s &&& 0xFE#8) ||| (BitVec.ofBool b).zeroExtend 8

/-- `rbit(s) = s & 1` (41_bit_packer R89). -/
def rbit (s : Byte) : Bit := s &&& 1#8 == 1#8

/-- `BITS[0 .. 8*MLEN-1] <- bytesToBits(message)`, `BLEN <- 8 * MLEN`. -/
def packEffect (s : State) : State :=
  (s.writeBits 0 (bytesToBits s.message)).setBlen (BitVec.ofNat 36 (8 * s.mlen.toNat))

/-- PACK (41_bit_packer R90): always `OK`. -/
def execPack (s : State) : Host.Outcome State Fault Refusal := .next (packEffect s).succeed

/-- The check of UNPACK (41_bit_packer R91): the byte count must fit `MLEN`. -/
def unpackCheck (s : State) : Code :=
  if ceilDiv8 s.blen.toNat > 2 ^ 32 - 1 then .outOfRange else .ok

/-- `MSG[0 .. n-1] <- bitsToBytes(BITS[0 .. BLEN-1])`, `MLEN <- n`, with `n = ceil(BLEN / 8)`. -/
def unpackEffect (s : State) : State :=
  (s.writeMsg 0 (bitsToBytes s.bitSeq)).setMlen (BitVec.ofNat 32 (ceilDiv8 s.blen.toNat))

/-- UNPACK (41_bit_packer R91). -/
def execUnpack (s : State) : Host.Outcome State Fault Refusal := .next (s.conclude (unpackCheck s) unpackEffect)

/-- `PIX[i] <- wbit(PIX[i], b)`: the read-modify-write of one sample (20_memory R45). -/
def State.writeBit (s : State) (i : Nat) (b : Bit) : State := s.writePix i (wbit (s.pixAt i) b)

/-- `PIX[IDX] <- wbit(PIX[IDX], BIT)`; the channel is not checked (70_reset R168). -/
def wrbitEffect (s : State) : State := s.writeBit s.idx.toNat s.bit

/-- WRBIT (41_bit_packer R92). -/
def execWrbit (s : State) : Host.Outcome State Fault Refusal := .next (s.conclude (indexCheck s) wrbitEffect)

/-- `BIT <- rbit(PIX[IDX])`. -/
def rdbitEffect (s : State) : State := s.setBit (rbit (s.pixAt s.idx.toNat))

/-- RDBIT (41_bit_packer R93). -/
def execRdbit (s : State) : Host.Outcome State Fault Refusal := .next (s.conclude (indexCheck s) rdbitEffect)

end Sys2Proof.Machine
end

