-- ==== Sys2Proof/Machine/Capacity.lean ====
section
/-!
DEFINITION. The capacity calculator (40_capacity): the function `capacity` and the command CAPACITY.
-/
namespace Sys2Proof.Machine

/-- `capacity(w, h)` (40_capacity R80), clamped to 0 (90_conflicts C5); the arithmetic is on unbounded integers. -/
def capacity (w h : Nat) : Nat :=
  let bits : Int := w * h * carriersPerPixel
  let available : Int := bits - reserveBits
  if available < 0 then 0 else (available / 8).toNat

/-- `CAP <- capacity(W, H)`. -/
def capacityEffect (s : State) : State := s.setCap (BitVec.ofNat 32 (capacity s.w.toNat s.h.toNat))

/-- CAPACITY (40_capacity R81): always `OK`. -/
def execCapacity (s : State) : Host.Outcome State Fault Refusal := .next (capacityEffect s).succeed

end Sys2Proof.Machine
end

