-- ==== Sys2Proof/Machine/PasswordMask.lean ====
section
/-!
DEFINITION. The password key and the XOR mask (43_password_mask): `passwordHash`, `maskByte`, `maskSeq`, and the commands
PWHASH and XMASK.
-/
namespace Sys2Proof.Machine

/-- `sext_32(v)` for `v` below `2^32` (00_scope R6). -/
def sext32 (v : Int) : Int := if v < 2 ^ 31 then v else v - 2 ^ 32

/-- `wrap32s(z) = sext_32(z mod 2^32)` (00_scope R6). -/
def wrap32s (z : Int) : Int := sext32 (z % 2 ^ 32)

/-- One step of the hash: `wrap32s(h * 31 + c)` (43_password_mask R105, D8). -/
def hashStep (h : Int) (c : CharCode) : Int := wrap32s (h * hashMult + (c.toNat : Int))

/-- `passwordHash(p) = abs(h[n])` (43_password_mask R105). -/
def passwordHash (p : List CharCode) : Nat := (p.foldl hashStep hashSeed).natAbs

/-- `maskByte(key, i) = (key + i) mod 256` (43_password_mask R107). -/
def maskByte (key i : Nat) : Byte := BitVec.ofNat 8 ((key + i) % maskMod)

/-- `maskSeq(key, m)`: byte `i` XORed with `maskByte(key, i)` (43_password_mask R107). -/
def maskSeq (key : Nat) (m : List Byte) : List Byte := m.mapIdx fun i b => b ^^^ maskByte key i

/-- `m` masked with the key of password `p`, or as it is when there is no password (44_frame_codec R118, R122: `PLEN != 0`). -/
def maskWith (p : List CharCode) (m : List Byte) : List Byte :=
  if p.length ≠ 0 then maskSeq (passwordHash p) m else m

/-- `KEY <- passwordHash(password)`. -/
def pwhashEffect (s : State) : State := s.setKey (BitVec.ofNat 32 (passwordHash s.password))

/-- PWHASH (43_password_mask R110): always `OK`. -/
def execPwhash (s : State) : Host.Outcome State Fault Refusal := .next (pwhashEffect s).succeed

/-- `MSG[i] <- MSG[i] xor maskByte(KEY, i)` for `0 <= i < MLEN`. -/
def xmaskEffect (s : State) : State := s.writeMsg 0 (maskSeq s.key.toNat s.message)

/-- XMASK (43_password_mask R111): always `OK`. -/
def execXmask (s : State) : Host.Outcome State Fault Refusal := .next (xmaskEffect s).succeed

end Sys2Proof.Machine
end

