-- ==== Sys2Proof/Machine/StreamEngine.lean ====
section
/-!
DEFINITION. The bit-to-pixel stream engine (42_stream_engine): the map `sidx`, the write walk and the read walk, and the
commands EMBED and EXTRACT.
-/
namespace Sys2Proof.Machine

/-- `sidx(k) = 4 * (k div 3) + (k mod 3)` (42_stream_engine R95). -/
def sidx (k : Nat) : Nat := channels * (k / carriersPerPixel) + k % carriersPerPixel

/-- The write walk (42_stream_engine R97): bit `t` of the sequence goes into the sample at stream position `p + t`. -/
def State.writeStream (s : State) (p : Nat) : List Bit → State
  | [] => s
  | b :: rest => (s.writeBit (sidx p) b).writeStream (p + 1) rest

/-- `stream[k] = rbit(PIX[sidx(k)])` (42_stream_engine R97). -/
def State.streamAt (s : State) (k : Nat) : Bit := rbit (s.pixAt (sidx k))

/-- The read walk (42_stream_engine R97): the `m` bits at stream positions `p .. p+m-1`. -/
def State.readStream (s : State) (p m : Nat) : List Bit := (List.range m).map fun t => s.streamAt (p + t)

/-- `POS <- POS + BLEN` (42_stream_engine R98, R99). -/
def State.advancePos (s : State) : State := s.setPos (BitVec.ofNat 36 (s.pos.toNat + s.blen.toNat))

/-- The write of EMBED (42_stream_engine R98). -/
def embedEffect (s : State) : State := (s.writeStream s.pos.toNat s.bitSeq).advancePos

/-- EMBED (42_stream_engine R98). -/
def execEmbed (s : State) : Host.Outcome State Fault Refusal := .next (s.conclude (streamCheck s) embedEffect)

/-- The read of EXTRACT (42_stream_engine R99). -/
def extractEffect (s : State) : State := (s.writeBits 0 (s.readStream s.pos.toNat s.blen.toNat)).advancePos

/-- EXTRACT (42_stream_engine R99). -/
def execExtract (s : State) : Host.Outcome State Fault Refusal := .next (s.conclude (streamCheck s) extractEffect)

end Sys2Proof.Machine
end

