-- ==== Sys2Proof/Machine/FrameCodec.lean ====
section
/-!
DEFINITION. The length-prefixed frame (44_frame_codec, 30_encoding R60 to R63) and the commands ENCODE and DECODE.
-/
namespace Sys2Proof.Machine

/-- `be32(L)` (30_encoding R67): the header is big-endian (20_memory R40). -/
def be32 (l : Len) : List Byte := [l.extractLsb' 24 8, l.extractLsb' 16 8, l.extractLsb' 8 8, l.extractLsb' 0 8]

/-- `frameBytes(L, body) = be32(L) ++ body ++ [0, 0, 0, 0]` (44_frame_codec R115). -/
def frameBytes (l : Len) (body : List Byte) : List Byte := be32 l ++ body ++ List.replicate termBytes 0#8

/-- `frameBits(L, body) = bytesToBits(frameBytes(L, body))` (44_frame_codec R116). -/
def frameBits (l : Len) (body : List Byte) : List Bit := bytesToBits (frameBytes l body)

/-- `declared`: the sum over `j` of `h[j] * 2^(31-j)`, unsigned (30_encoding R67, 44_frame_codec R122). -/
def headerValue (h : List Bit) : Nat :=
  ((List.range headerBits).map fun j => (h.getD j false).toNat * 2 ^ (headerBits - 1 - j)).sum

/-- The checks of ENCODE in their order (44_frame_codec R118, 60_exceptions R148). -/
def encodeCheck (s : State) : Code :=
  if ¬ s.ShapeOk then .invalidInput
  else if s.mlen.toNat > capacity s.w.toNat s.h.toNat then .capacityExceeded
  else if reserveBits + 8 * s.mlen.toNat > s.carriers then .outOfRange
  else .ok

/-- The payload ENCODE writes: the message, masked if `PLEN != 0` (44_frame_codec R119). -/
def encodeBody (s : State) : List Byte := maskWith s.password s.message

/-- The write of ENCODE (44_frame_codec R118): the frame from stream position 0, `POS <- 64 + 8 * L`. -/
def encodeEffect (s : State) : State :=
  (s.writeStream 0 (frameBits s.mlen (encodeBody s))).setPos (BitVec.ofNat 36 (reserveBits + 8 * s.mlen.toNat))

/-- ENCODE (44_frame_codec R118). -/
def execEncode (s : State) : Host.Outcome State Fault Refusal := .next (s.conclude (encodeCheck s) encodeEffect)

/-- The declared length: stream positions 0 to 31 (44_frame_codec R122 step 1). -/
def declaredLength (s : State) : Nat := headerValue (s.readStream 0 headerBits)

/-- The decoded bytes: stream positions 32 to `31 + 8L`, unmasked if `PLEN != 0` (44_frame_codec R122 steps 3 to 5, R125). -/
def decodedMessage (s : State) : List Byte :=
  maskWith s.password (bitsToBytes (s.readStream headerBits (8 * declaredLength s)))

/-- The checks of DECODE in their order (44_frame_codec R122, 60_exceptions R148): shape, header present, the gate of R123,
payload present, and the dead test of step 6 (R126). -/
def decodeCheck (s : State) : Code :=
  if ¬ s.ShapeOk then .invalidInput
  else if s.carriers < headerBits then .notFound
  else if declaredLength s = 0 ∨ declaredLength s > maxDeclared then .notFound
  else if headerBits + 8 * declaredLength s > s.carriers then .outOfRange
  else if (decodedMessage s).length = 0 then .notFound
  else .ok

/-- The writes of DECODE (44_frame_codec R122): `MSG[0 .. L-1]`, `MLEN <- L`, `POS <- 32 + 8 * L`. -/
def decodeEffect (s : State) : State :=
  ((s.writeMsg 0 (decodedMessage s)).setMlen (BitVec.ofNat 32 (declaredLength s))).setPos
    (BitVec.ofNat 36 (headerBits + 8 * declaredLength s))

/-- DECODE (44_frame_codec R122). -/
def execDecode (s : State) : Host.Outcome State Fault Refusal := .next (s.conclude (decodeCheck s) decodeEffect)

end Sys2Proof.Machine
end

