-- ==== Sys2Proof/Machine/Dispatch.lean ====
section
/-!
DEFINITION. One arm per command (30_encoding R71): the command in flight is performed to its completion (10_state R26).
-/
namespace Sys2Proof.Machine

def exec (i : Instr) (s : State) : Host.Outcome State Fault Refusal :=
  match i with
  | .capacity => Sys2Proof.Machine.execCapacity s
  | .pack => Sys2Proof.Machine.execPack s
  | .unpack => Sys2Proof.Machine.execUnpack s
  | .wrbit => Sys2Proof.Machine.execWrbit s
  | .rdbit => Sys2Proof.Machine.execRdbit s
  | .pwhash => Sys2Proof.Machine.execPwhash s
  | .xmask => Sys2Proof.Machine.execXmask s
  | .embed => Sys2Proof.Machine.execEmbed s
  | .extract => Sys2Proof.Machine.execExtract s
  | .encode => Sys2Proof.Machine.execEncode s
  | .decode => Sys2Proof.Machine.execDecode s

end Sys2Proof.Machine
end

