-- ==== Sys2Proof/Machine/Ports.lean ====
section
/-!
DEFINITION. The host ports: the width of every register's port and the size of every space and cell (10_state R10, R21, R25,
R30 to R33).
-/
namespace Sys2Proof.Machine

/-- The width of the host port of register `n`; `none` for a number that names no register (10_state R10, R21, R25). -/
def portWidth : Nat → Option Nat
  | 0 => some 16
  | 1 => some 16
  | 2 => some 36
  | 3 => some 32
  | 4 => some 16
  | 5 => some 36
  | 6 => some 1
  | 7 => some 36
  | 8 => some 36
  | 9 => some 32
  | 10 => some 32
  | 16 => some 8
  | 17 => some 8
  | 18 => some 7
  | _ => none

/-- A value fits the host port of register `n`; a number that names no register ignores any value (10_state R21). -/
def fitsPort (n v : Nat) : Bool :=
  match portWidth n with
  | some k => decide (v < 2 ^ k)
  | none => true

/-- The number of cells of a space (10_state R30 to R33). -/
def spaceCells : Space → Nat
  | .pix => bigCells
  | .msg => msgCells
  | .pwd => pwdCells
  | .bits => bigCells

/-- The width of one cell of a space (10_state R30 to R33). -/
def cellWidth : Space → Nat
  | .pix => 8
  | .msg => 8
  | .pwd => 16
  | .bits => 1

end Sys2Proof.Machine
end

