-- ==== Sys2Proof/WellFormed.lean ====
section
/-!
DEFINITION. Well-formedness: of a command word (30_encoding R65, R71), of an instruction, and of a host action (10_state R10,
R21, R25, R30 to R33).
-/
namespace Sys2Proof

/-- A command word is well formed when bits 7:4 are 0 and `OPC` is one of 1 to 11 (30_encoding R65, R71). -/
def cmdWordWf (v : CmdWord) : Bool :=
  v.extractLsb' 4 4 == 0#4 && decide (1 ≤ (v.extractLsb' 0 4).toNat) && decide ((v.extractLsb' 0 4).toNat ≤ 11)

/-- Every instruction is well formed: no command has an operand field that could be wrong (30_encoding R69). -/
def Instr.wf : Instr → Bool
  | .capacity => true
  | .pack => true
  | .unpack => true
  | .wrbit => true
  | .rdbit => true
  | .pwhash => true
  | .xmask => true
  | .embed => true
  | .extract => true
  | .encode => true
  | .decode => true

/-- A host action is well formed when the value fits the port or the cell and the cell exists. -/
def hostActionWf : Machine.HostAction → Bool
  | .writeReg n v => Machine.fitsPort n v
  | .readReg _ => true
  | .writeCell sp a v => decide (a < Machine.spaceCells sp) && decide (v < 2 ^ Machine.cellWidth sp)
  | .readCell sp a => decide (a < Machine.spaceCells sp)
  | .reset => true

end Sys2Proof
end

