-- ==== Sys2Proof/Decode.lean ====
section
/-!
DEFINITION. The command-word decoder (30_encoding R65, R71, R72), total on any bytes and rejecting by name, and the encoder.
-/
namespace Sys2Proof

/-- Why a word is no command (30_encoding R72). -/
inductive Reject
  /-- there is no byte to decode. -/
  | noByte
  /-- a bit of 7:4 is set. -/
  | zeroFieldSet
  /-- `OPC` is 0 or 12 to 15. -/
  | reservedOpc (opc : Nat)
deriving DecidableEq, Repr

/-- The command-word decoder of 30_encoding R71: bits 7:4 first, then the row with `OPC = v[3:0]`. -/
def decodeWord (v : CmdWord) : Except Reject Instr :=
  if v.extractLsb' 4 4 ≠ 0#4 then .error .zeroFieldSet
  else
    match (v.extractLsb' 0 4).toNat with
    | 1 => .ok .capacity
    | 2 => .ok .pack
    | 3 => .ok .unpack
    | 4 => .ok .wrbit
    | 5 => .ok .rdbit
    | 6 => .ok .pwhash
    | 7 => .ok .xmask
    | 8 => .ok .embed
    | 9 => .ok .extract
    | 10 => .ok .encode
    | 11 => .ok .decode
    | n => .error (.reservedOpc n)

/-- Decoding from a list of bytes: all command words have one length, 8 bits, with no second word (30_encoding R65, R75). -/
def decodeBytes : List Byte → Except Reject (Instr × List Byte)
  | [] => .error .noByte
  | v :: rest => (decodeWord v).map fun i => (i, rest)

/-- The command word of an instruction: the `CMD` column of 30_encoding R71. -/
def encode : Instr → CmdWord
  | .capacity => 0x01
  | .pack => 0x02
  | .unpack => 0x03
  | .wrbit => 0x04
  | .rdbit => 0x05
  | .pwhash => 0x06
  | .xmask => 0x07
  | .embed => 0x08
  | .extract => 0x09
  | .encode => 0x0A
  | .decode => 0x0B

/-- The instruction the decoder reads from a word numbered as spec/opcode_table.json numbers it. A command word is 8 bits
(30_encoding R65), so no other length holds one (log 13). -/
def decodeTableWord (nbits w : Nat) : Option Instr :=
  if nbits = 8 ∧ w < 2 ^ 8 then
    match decodeBytes [BitVec.ofNat 8 w] with
    | .ok (i, []) => some i
    | _ => none
  else none

end Sys2Proof
end

