-- ==== Sys2Proof/Machine/Reset.lean ====
section
/-!
DEFINITION. The reset input (70_reset R160 to R162), and the cells each command writes (20_memory R44), which a reset leaves
unspecified when it strikes while the command runs.
-/
namespace Sys2Proof.Machine

/-- The cells of `PIX`, `MSG` and `BITS` a command writes (20_memory R44). No command writes `PWD` (10_state R32). -/
structure WriteSet where
  pix : List Nat
  msg : List Nat
  bits : List Nat
deriving DecidableEq, Repr

/-- A command that raises an outcome writes nothing (00_scope R8, 20_memory R44). -/
def writesIfOk (check : Code) (ws : WriteSet) : WriteSet :=
  if check = .ok then ws else ⟨[], [], []⟩

/-- The "writes" column of 20_memory R44. -/
def writeSet : Instr → State → WriteSet
  | .capacity, _ => ⟨[], [], []⟩
  | .pack, s => ⟨[], [], List.range (8 * s.mlen.toNat)⟩
  | .unpack, s => writesIfOk (unpackCheck s) ⟨[], List.range (ceilDiv8 s.blen.toNat), []⟩
  | .wrbit, s => writesIfOk (indexCheck s) ⟨[s.idx.toNat], [], []⟩
  | .rdbit, _ => ⟨[], [], []⟩
  | .pwhash, _ => ⟨[], [], []⟩
  | .xmask, s => ⟨[], List.range s.mlen.toNat, []⟩
  | .embed, s =>
    writesIfOk (streamCheck s) ⟨(List.range s.blen.toNat).map fun t => sidx (s.pos.toNat + t), [], []⟩
  | .extract, s => writesIfOk (streamCheck s) ⟨[], [], List.range s.blen.toNat⟩
  | .encode, s => writesIfOk (encodeCheck s) ⟨(List.range (reserveBits + 8 * s.mlen.toNat)).map sidx, [], []⟩
  | .decode, s => writesIfOk (decodeCheck s) ⟨[], List.range (declaredLength s), []⟩

/-- The cells the command in flight writes; none when its word is reserved (30_encoding R72). -/
def inFlightWrites (s : State) : WriteSet :=
  match decodeWord s.inFlight with
  | .ok i => writeSet i s
  | .error _ => ⟨[], [], []⟩

/-- Every cell of `ws` holds an unspecified value from here on (70_reset R162, U9). DESIGN CHOICE of the form, log 6. -/
def State.scramble (s : State) (ws : WriteSet) : State :=
  { s with
    pix := memFill (Config.interruptedPix s.draws) ws.pix s.pix
    msg := memFill (Config.interruptedMsg s.draws) ws.msg s.msg
    bits := memFill (Config.interruptedBits s.draws) ws.bits s.bits
    draws := s.draws + 1 }

/-- Every cell of the four memories holds an unspecified value from here on (70_reset R161, U7): nothing is listed, and the
cells nothing has written take other contents. DESIGN CHOICE of the form, log 7. -/
def State.forgetMemories (s : State) : State :=
  { s with pix := [], msg := [], pwd := [], bits := [], powerOn := s.powerOn + 1 }

/-- Every register takes its reset value (70_reset R160). -/
def State.resetRegisters (s : State) : State :=
  { State.reset with
    pix := s.pix
    msg := s.msg
    pwd := s.pwd
    bits := s.bits
    agenda := s.agenda
    hostData := s.hostData
    powerOn := s.powerOn
    draws := s.draws }

/-- What a reset does to the memories: the cells a running command was writing become unspecified and the others keep their
values (70_reset R162, U9); without a running command every cell becomes unspecified (R161, U7; log 7). -/
def State.resetMemories (s : State) : State :=
  if s.busy then s.scramble (inFlightWrites s) else s.forgetMemories

/-- The reset input is applied (70_reset R160 to R162): a command in flight ends at once. -/
def State.applyReset (s : State) : State := s.resetMemories.resetRegisters

end Sys2Proof.Machine
end

