-- ==== Sys2Proof/Machine/HostPort.lean ====
section
/-!
DEFINITION. What the host does at the register and memory interface (10_state R10, R21, R25, R26, R30 to R33) and what the
model gives no meaning (70_reset R166).
-/
namespace Sys2Proof.Machine

/-- A host write of a fitting value to register number `n` (10_state R10, R21, R25): `CAP`, `STATUS`, `PROGRESS` and numbers
that name no register ignore it; `CMD` issues a command unless one is running (10_state R26). -/
def State.portWrite (s : State) (n v : Nat) : State :=
  match n with
  | 0 => s.setW (BitVec.ofNat 16 v)
  | 1 => s.setH (BitVec.ofNat 16 v)
  | 2 => s.setPixlen (BitVec.ofNat 36 v)
  | 3 => s.setMlen (BitVec.ofNat 32 v)
  | 4 => s.setPlen (BitVec.ofNat 16 v)
  | 5 => s.setIdx (BitVec.ofNat 36 v)
  | 6 => s.setBit (decide (v = 1))
  | 7 => s.setBlen (BitVec.ofNat 36 v)
  | 8 => s.setPos (BitVec.ofNat 36 v)
  | 10 => s.setKey (BitVec.ofNat 32 v)
  | 16 => if s.busy then s else s.issue (BitVec.ofNat 8 v)
  | _ => s

/-- A host read of register number `n` (10_state R10, R21, R25): `CMD` and numbers that name no register read 0. -/
def State.portRead (s : State) (n : Nat) : Nat :=
  match n with
  | 0 => s.w.toNat
  | 1 => s.h.toNat
  | 2 => s.pixlen.toNat
  | 3 => s.mlen.toNat
  | 4 => s.plen.toNat
  | 5 => s.idx.toNat
  | 6 => s.bit.toNat
  | 7 => s.blen.toNat
  | 8 => s.pos.toNat
  | 9 => s.cap.toNat
  | 10 => s.key.toNat
  | 17 => s.status.toNat
  | 18 => s.progress.toNat
  | _ => 0

/-- A host write of one cell (10_state R30 to R33). -/
def State.cellWrite (s : State) (sp : Space) (a v : Nat) : State :=
  match sp with
  | .pix => s.writePix a (BitVec.ofNat 8 v)
  | .msg => s.writeMsg a [BitVec.ofNat 8 v]
  | .pwd => s.writePwd a (BitVec.ofNat 16 v)
  | .bits => s.writeBits a [decide (v = 1)]

/-- A host read of one cell (10_state R30 to R33). -/
def State.cellRead (s : State) (sp : Space) (a : Nat) : Nat :=
  match sp with
  | .pix => (s.pixAt a).toNat
  | .msg => (s.msgAt a).toNat
  | .pwd => (s.pwdAt a).toNat
  | .bits => (s.bitsAt a).toNat

/-- Numbers 0 to 10 are the operand registers (10_state R10). -/
def isOperandReg (n : Nat) : Bool := decide (n ≤ 10)

/-- One action of the host, or the reset input. While a command runs the operand registers and the cells are out of the
host's reach (70_reset R166, U8; log 8). -/
def hostAct (a : HostAction) (s : State) : Host.Outcome State Fault Refusal :=
  match a with
  | .writeReg n v =>
    if s.busy && isOperandReg n then .refused .hostAccessWhileBusy
    else if fitsPort n v then .next (s.portWrite n v)
    else .refused .hostValueTooWide
  | .readReg n =>
    if s.busy && isOperandReg n then .refused .hostAccessWhileBusy
    else .next (s.setHostData (s.portRead n))
  | .writeCell sp a v =>
    if s.busy then .refused .hostAccessWhileBusy
    else if a ≥ spaceCells sp then .fault (.noSuchCell sp a)
    else if v ≥ 2 ^ cellWidth sp then .refused .hostValueTooWide
    else .next (s.cellWrite sp a v)
  | .readCell sp a =>
    if s.busy then .refused .hostAccessWhileBusy
    else if a ≥ spaceCells sp then .fault (.noSuchCell sp a)
    else .next (s.setHostData (s.cellRead sp a))
  | .reset => .next s.applyReset

end Sys2Proof.Machine
end

