-- ==== Sys2Proof/Machine/Engine.lean ====
section
/-!
DEFINITION. The engine's own turns: bringing the command in flight to its completion (10_state R26) and raising `PROGRESS`
while it runs (R28 (b)). An idle engine does nothing (20_memory R51, 70_reset R160; log 14).
-/
namespace Sys2Proof.Machine

/-- The command in flight is decoded and performed; a reserved word ends with `InvalidCommand` (30_encoding R71, R72;
60_exceptions R146, R148). -/
def runInFlight (s : State) : Host.Outcome State Fault Refusal :=
  match decodeWord s.inFlight with
  | .ok i => exec i s
  | .error _ => .next (s.raise .invalidCommand)

/-- The engine's turn to complete: an idle engine stays as it is. -/
def completeTurn (s : State) : Host.Outcome State Fault Refusal :=
  if s.busy then runInFlight s else .next s

/-- The engine's turn to raise `PROGRESS`: an idle engine stays as it is (10_state R28 (e)). -/
def progressTurn (s : State) : Host.Outcome State Fault Refusal :=
  if s.busy then .next s.raiseProgress else .next s

/-- One turn of the agenda. -/
def takeTurn (t : Turn) (s : State) : Host.Outcome State Fault Refusal :=
  match t with
  | .host a => hostAct a s
  | .progress => progressTurn s
  | .complete => completeTurn s

end Sys2Proof.Machine
end

