-- ==== Sys2Proof/Machine/Step.lean ====
section
/-!
DEFINITION. One step: the next turn of the agenda; with no turn left the engine alone moves, so a command in flight completes
without any action of the host (70_reset R175) and an idle engine waits (R160).
-/
namespace Sys2Proof.Machine

def step (s : State) : Host.Outcome State Fault Refusal :=
  match s.agenda with
  | [] => completeTurn s
  | t :: rest => takeTurn t (s.setAgenda rest)

/-- The agenda with the engine's completion as its next turn. -/
def completeNext : List Turn → List Turn
  | [] => []
  | t :: rest => .complete :: t :: rest

/-- `s` with the command word `w` issued and the engine's completion next, so that the next step performs exactly that
command. The engine fetches nothing: a command word is on its way because the host wrote it to `CMD` (10_state R23, R26; log
13). -/
def State.withFetchWord (s : State) (nbits w : Nat) : State :=
  (s.issue (BitVec.ofNat 8 (w % 2 ^ nbits))).setAgenda (completeNext s.agenda)

end Sys2Proof.Machine
end

