-- ==== Sys2Proof/Safety.lean ====
section
/-!
DEFINITION. What claims about the engine are stated with: the invariant of every run, and the frames of the commands.
-/
namespace Sys2Proof.Machine

/-- `STATUS` is one of the eight words the rules allow: 0x00 after reset, 0x01 while a command runs, and the six completed
words (10_state R27; 60_exceptions R140). -/
def State.statusLegal (s : State) : Bool :=
  s.status == 0#8 || s.status == statusBusy || s.status == statusDone .ok || s.status == statusDone .capacityExceeded ||
  s.status == statusDone .notFound || s.status == statusDone .invalidInput || s.status == statusDone .outOfRange ||
  s.status == statusDone .invalidCommand

/-- Each space is in its canonical form and lists only cells that exist (10_state R30 to R33). -/
abbrev State.MemInv (s : State) : Prop :=
  (Memory.wf s.pix = true ∧ Memory.within bigCells s.pix = true) ∧
  (Memory.wf s.msg = true ∧ Memory.within msgCells s.msg = true) ∧
  (Memory.wf s.pwd = true ∧ Memory.within pwdCells s.pwd = true) ∧
  (Memory.wf s.bits = true ∧ Memory.within bigCells s.bits = true)

/-- The invariant of every run: a legal `STATUS` word (R27); `PROGRESS` at most 100, at most 99 while a command runs, 100 after
an `OK` completion (R28 (b), (c), (e)); no command word left when none runs (R26, R34); the memories well formed. -/
abbrev State.Inv (s : State) : Prop :=
  s.statusLegal = true ∧
  s.progress.toNat ≤ 100 ∧
  (s.busy = true → s.progress.toNat ≤ 99) ∧
  (s.status = statusDone .ok → s.progress.toNat = 100) ∧
  (s.busy = false → s.inFlight = 0#8) ∧
  s.MemInv

/-- The host-written registers that no command writes: `W`, `H`, `PIXLEN`, `PLEN`, `IDX` (10_state R10). -/
abbrev State.SameHostRegs (s t : State) : Prop :=
  t.w = s.w ∧ t.h = s.h ∧ t.pixlen = s.pixlen ∧ t.plen = s.plen ∧ t.idx = s.idx

/-- Every operand register is the same (10_state R10). -/
abbrev State.SameOperands (s t : State) : Prop :=
  s.SameHostRegs t ∧ t.mlen = s.mlen ∧ t.bit = s.bit ∧ t.blen = s.blen ∧ t.pos = s.pos ∧ t.cap = s.cap ∧ t.key = s.key

/-- Every cell of `PIX` reads the same. -/
def State.SamePix (s t : State) : Prop := ∀ a, t.pixAt a = s.pixAt a

/-- Every cell of `MSG` reads the same. -/
def State.SameMsg (s t : State) : Prop := ∀ a, t.msgAt a = s.msgAt a

/-- Every cell of `PWD` reads the same. -/
def State.SamePwd (s t : State) : Prop := ∀ a, t.pwdAt a = s.pwdAt a

/-- Every cell of `BITS` reads the same. -/
def State.SameBits (s t : State) : Prop := ∀ a, t.bitsAt a = s.bitsAt a

/-- The model's own fields that no command touches: the schedule, the last host read, the power-on contents. -/
abbrev State.SameModelFields (s t : State) : Prop :=
  t.agenda = s.agenda ∧ t.hostData = s.hostData ∧ t.powerOn = s.powerOn

/-- `t` is a completed `OK` (10_state R26, R28 (c); 60_exceptions R141). -/
abbrev State.EndsOk (t : State) : Prop :=
  t.status = 0x02#8 ∧ t.progress.toNat = 100 ∧ t.inFlight = 0#8

/-- `t` is `s` after a command that ended with the outcome whose `STATUS` word is `word` and wrote nothing else: `STATUS` and
`PROGRESS` (from its last value up to 100) alone have changed (10_state R22, R28 (d); 60_exceptions R150, R151). -/
def State.OnlyOutcome (s t : State) (word : BitVec 8) : Prop :=
  t.status = word ∧ s.progress.toNat ≤ t.progress.toNat ∧ t.progress.toNat ≤ 100 ∧ t.inFlight = 0#8 ∧
  s.SameOperands t ∧ t.pix = s.pix ∧ t.msg = s.msg ∧ t.pwd = s.pwd ∧ t.bits = s.bits ∧ s.SameModelFields t

/-- `t` differs from `s` in the two status registers at most: no operand register, no cell, none of the schedule. -/
abbrev State.OnlyStatus (s t : State) : Prop :=
  s.SameOperands t ∧ s.SamePix t ∧ s.SameMsg t ∧ s.SamePwd t ∧ s.SameBits t ∧ s.SameModelFields t

/-- The byte that the mask of password `PWD[0 .. PLEN-1]` XORs at position `i`; 0 when there is no password (44_frame_codec
R119, R125). -/
def State.maskAt (s : State) (i : Nat) : Byte :=
  if s.plen.toNat ≠ 0 then BitVec.ofNat 8 ((passwordHash s.password + i) % 256) else 0#8

/-- Bit `k` of the frame of the message in `MSG` under the password in `PWD`: the table of 30_encoding R60, with the payload
of R62. -/
def State.frameBit (s : State) (k : Nat) : Bit :=
  if k < 32 then s.mlen.getLsbD (31 - k)
  else if k < 32 + 8 * s.mlen.toNat then
    (s.msgAt ((k - 32) / 8) ^^^ s.maskAt ((k - 32) / 8)).getLsbD (7 - (k - 32) % 8)
  else false

/-- The first 32 bits of the stream spell `d`, most significant bit first (30_encoding R60, R67). -/
def State.Declares (s : State) (d : Len) : Prop := ∀ j, j < 32 → s.streamAt j = d.getLsbD (31 - j)

end Sys2Proof.Machine
end

