-- ==== Sys2Proof/Certificates/Slice0/Obligations.lean ====
section
/-!
DEFINITION. The statements for the provers, from the numbered rules of spec/. A docstring names the rule; where a rule is
marked by the spec as derived or as general knowledge, or a clause is the model's own, the docstring says so.
-/

open Sys2Proof Sys2Proof.Machine

/-! ### Command words (30_encoding) -/

/-- 30_encoding R71: the eleven codes, and the decoder reads exactly them: a word decodes to a command if and only if it is
that command's word. -/
def Obligations.CommandWordsDecodeAndEncode : Prop :=
  [encode .capacity, encode .pack, encode .unpack, encode .wrbit, encode .rdbit, encode .pwhash, encode .xmask, encode .embed,
    encode .extract, encode .encode, encode .decode] =
    [0x01#8, 0x02#8, 0x03#8, 0x04#8, 0x05#8, 0x06#8, 0x07#8, 0x08#8, 0x09#8, 0x0A#8, 0x0B#8] ∧
  ∀ (v : CmdWord) (i : Instr), decodeWord v = .ok i ↔ v = encode i

/-- Words written out bit by bit from the CMD8 format of 30_encoding R65 and the map of R71 decode to their commands, one of
each family; words of R72 are rejected by name. -/
def Obligations.WrittenOutWordsDecode : Prop :=
  decodeTableWord 8 0b00000001 = some .capacity ∧ decodeTableWord 8 0b00000100 = some .wrbit ∧
  decodeTableWord 8 0b00000111 = some .xmask ∧ decodeTableWord 8 0b00001000 = some .embed ∧
  decodeTableWord 8 0b00001010 = some .encode ∧ decodeTableWord 8 0b00001011 = some .decode ∧
  decodeWord 0b00011010#8 = .error .zeroFieldSet ∧ decodeWord 0b00000000#8 = .error (.reservedOpc 0) ∧
  decodeWord 0b00001100#8 = .error (.reservedOpc 12)

/-- A step runs the decoded command: with a command in flight and nothing else scheduled before its completion, the step is
`exec` of the decoded command, at the same state (nothing scheduled), or at the state with the completion turn taken from the
agenda. The agenda is the model's own (log 1). -/
def Obligations.StepRunsDecodedCommand : Prop :=
  ∀ (s : State) (i : Instr), s.busy = true → decodeWord s.inFlight = .ok i →
    (s.agenda = [] → step s = exec i s) ∧
    (∀ rest, s.agenda = .complete :: rest → step s = exec i (s.setAgenda rest))

/-- 60_exceptions R146: a `CMD` write of one of the 245 reserved values issues a command that completes with `InvalidCommand`
and changes nothing but `STATUS` and `PROGRESS`. -/
def Obligations.ReservedWordEndsInvalidCommand : Prop :=
  ((List.range 256).filter fun v => decide (v = 0 ∨ 12 ≤ v)).length = 245 ∧
  ∀ (s : State) (v : Nat), s.busy = false → v < 256 → (v = 0 ∨ 12 ≤ v) →
    ∃ u t, hostAct (.writeReg 16 v) s = .next u ∧ completeTurn u = .next t ∧
      t.status = 0x52#8 ∧ t.progress.toNat ≤ 100 ∧ s.OnlyStatus t

/-! ### The life of a command (10_state R26 to R28) -/

/-- A `CMD` write while `BUSY = 0` issues (10_state R26): `BUSY` 1, `DONE` 0, `CODE` 0, `PROGRESS` 0, the word on its way to
the decoder, nothing else changed. -/
def Obligations.CmdWriteIssuesCommand : Prop :=
  ∀ (s : State) (v : Nat), s.busy = false → v < 256 →
    ∃ t, hostAct (.writeReg 16 v) s = .next t ∧ t.busy = true ∧ t.done = false ∧ t.code = 0#4 ∧ t.status = 0x01#8 ∧
      t.progress = 0#7 ∧ t.inFlight.toNat = v ∧ s.OnlyStatus t

/-- A `CMD` write while `BUSY = 1` is dropped without a trace (10_state R26, 70_reset R171). -/
def Obligations.CmdWriteWhileBusyIsDropped : Prop :=
  ∀ (s : State) (v : Nat), s.busy = true → v < 256 → hostAct (.writeReg 16 v) s = .next s

/-- The outcome stays until the next issue (10_state R28 (e), 60_exceptions R152): while no command runs, no step but one whose
turn is a `CMD` write or the reset changes `STATUS` or `PROGRESS`; in particular no other host action does, and the engine's own
turns change nothing. The agenda and the turns of an idle engine are the model's own (log 1, log 14). -/
def Obligations.OutcomeStaysUntilNextIssue : Prop :=
  (∀ s t : State, s.busy = false → s.agenda.head? ≠ some (.host .reset) →
    (∀ v, s.agenda.head? ≠ some (.host (.writeReg 16 v))) → step s = .next t →
    t.status = s.status ∧ t.progress = s.progress ∧ t.inFlight = s.inFlight) ∧
  (∀ (s t : State) (a : HostAction), s.busy = false → a ≠ .reset → (∀ v, a ≠ .writeReg 16 v) → hostAct a s = .next t →
    t.status = s.status ∧ t.progress = s.progress ∧ t.inFlight = s.inFlight) ∧
  (∀ s : State, s.busy = false → progressTurn s = .next s ∧ completeTurn s = .next s)

/-- From a state with `BUSY = 1` the engine reaches `DONE = 1` without any action of the host, however often it raises `PROGRESS`
in between (70_reset R175). That nothing but `n` raises is scheduled before the completion is the model's form of it: the agenda
is the model's own (log 1). Agendas that hold a completion turn are those of StepRunsDecodedCommand. -/
def Obligations.BusyReachesDoneWithoutHost : Prop :=
  ∀ (n : Nat) (s : State), s.busy = true → s.agenda = List.replicate n .progress →
    ∃ t, Sys2Proof.core.run (n + 1) s = .next t ∧ t.done = true ∧ t.busy = false

/-- While a command runs `PROGRESS` never decreases and never exceeds 99 (10_state R28 (b)); raising it changes nothing else
a host could see. -/
def Obligations.ProgressRisesWhileBusy : Prop :=
  ∀ s : State, s.busy = true → s.progress.toNat ≤ 99 →
    ∃ t, progressTurn s = .next t ∧ s.progress.toNat ≤ t.progress.toNat ∧ t.progress.toNat ≤ 99 ∧ t.status = s.status ∧
      t.inFlight = s.inFlight ∧ s.OnlyStatus t

/-- The final `PROGRESS` (10_state R28 (c), (d)): 100 after `OK`, some value from the last one up to 100 after any other
outcome. The value is a free value (log 5). -/
def Obligations.FinalProgressObeysLaws : Prop :=
  ∀ (i : Instr) (s t : State), s.progress.toNat ≤ 100 → exec i s = .next t →
    (t.status = 0x02#8 → t.progress.toNat = 100) ∧
    (t.status ≠ 0x02#8 → s.progress.toNat ≤ t.progress.toNat ∧ t.progress.toNat ≤ 100)

/-- 60_exceptions R151: a command that does not end `OK`, a reserved word among them, has changed no operand register and no
memory cell; only `STATUS` and `PROGRESS` have changed. -/
def Obligations.FailedCommandChangesNothing : Prop :=
  (∀ (i : Instr) (s t : State), s.progress.toNat ≤ 100 → exec i s = .next t → t.status ≠ 0x02#8 →
    s.OnlyOutcome t t.status) ∧
  (∀ s t : State, s.busy = true → s.progress.toNat ≤ 100 → completeTurn s = .next t → t.status ≠ 0x02#8 →
    s.OnlyOutcome t t.status)

/-- Which outcomes each command has (60_exceptions R140, column "raised by"), and that each command completes. -/
def Obligations.OutcomesOfEachCommand : Prop :=
  ∀ (i : Instr) (s : State), ∃ t, exec i s = .next t ∧ t.busy = false ∧ t.done = true ∧
    match i with
    | .capacity => t.status = 0x02#8
    | .pack => t.status = 0x02#8
    | .unpack => t.status = 0x02#8 ∨ t.status = 0x42#8
    | .wrbit => t.status = 0x02#8 ∨ t.status = 0x42#8
    | .rdbit => t.status = 0x02#8 ∨ t.status = 0x42#8
    | .pwhash => t.status = 0x02#8
    | .xmask => t.status = 0x02#8
    | .embed => t.status = 0x02#8 ∨ t.status = 0x32#8 ∨ t.status = 0x42#8
    | .extract => t.status = 0x02#8 ∨ t.status = 0x32#8 ∨ t.status = 0x42#8
    | .encode => t.status = 0x02#8 ∨ t.status = 0x12#8 ∨ t.status = 0x32#8 ∨ t.status = 0x42#8
    | .decode => t.status = 0x02#8 ∨ t.status = 0x22#8 ∨ t.status = 0x32#8 ∨ t.status = 0x42#8

/-- The "written by" column of 10_state R10: a command not listed never writes the register. -/
def Obligations.RegistersWrittenOnlyByListedCommands : Prop :=
  ∀ (i : Instr) (s t : State), exec i s = .next t →
    s.SameHostRegs t ∧
    (i ≠ .unpack → i ≠ .decode → t.mlen = s.mlen) ∧
    (i ≠ .rdbit → t.bit = s.bit) ∧
    (i ≠ .pack → t.blen = s.blen) ∧
    (i ≠ .embed → i ≠ .extract → i ≠ .encode → i ≠ .decode → t.pos = s.pos) ∧
    (i ≠ .capacity → t.cap = s.cap) ∧
    (i ≠ .pwhash → t.key = s.key)

/-- Which commands write which space (10_state R30 to R33): no command writes `PWD`. -/
def Obligations.SpacesWrittenOnlyByListedCommands : Prop :=
  ∀ (i : Instr) (s t : State), exec i s = .next t →
    s.SamePwd t ∧
    (i ≠ .wrbit → i ≠ .embed → i ≠ .encode → s.SamePix t) ∧
    (i ≠ .unpack → i ≠ .xmask → i ≠ .decode → s.SameMsg t) ∧
    (i ≠ .pack → i ≠ .extract → s.SameBits t)

/-- The engine writes only the cells 20_memory R44 lists for the command. -/
def Obligations.CommandWritesOnlyItsWriteSet : Prop :=
  ∀ (i : Instr) (s t : State), exec i s = .next t →
    (∀ a, a ∉ (writeSet i s).pix → t.pixAt a = s.pixAt a) ∧
    (∀ a, a ∉ (writeSet i s).msg → t.msgAt a = s.msgAt a) ∧
    (∀ a, a ∉ (writeSet i s).bits → t.bitsAt a = s.bitsAt a)

/-! ### The host interface (10_state R10, R21, R25; 70_reset R166) -/

/-- The widths of the operand registers (10_state R10), and a host write and read of each writable one: it takes the value, no
other register and no cell changes, and a read returns it. `CAP` is read-only: ReadOnlyAndAbsentRegistersIgnoreWrites and
HostReadReturnsEachRegister. A value too wide for the port of any register, `CAP`, `CMD`, `STATUS` and `PROGRESS` among them,
cannot be written (R21): the model refuses the write (log 9). -/
def Obligations.HostWritesAndReadsOperandRegister : Prop :=
  (List.range 11).map portWidth =
    [some 16, some 16, some 36, some 32, some 16, some 36, some 1, some 36, some 36, some 32, some 32] ∧
  (∀ (s : State) (n v k : Nat), s.busy = false → n ≤ 10 → n ≠ 9 → portWidth n = some k → v < 2 ^ k →
    ∃ t r, hostAct (.writeReg n v) s = .next t ∧ (∀ m, m ≠ n → t.portRead m = s.portRead m) ∧
      s.SamePix t ∧ s.SameMsg t ∧ s.SamePwd t ∧ s.SameBits t ∧
      hostAct (.readReg n) t = .next r ∧ r.hostData = v ∧ (∀ m, r.portRead m = t.portRead m)) ∧
  (∀ (s : State) (n v k : Nat), s.busy = false → portWidth n = some k → 2 ^ k ≤ v →
    hostAct (.writeReg n v) s = .refused .hostValueTooWide)

/-- Read-only registers and numbers that name no register ignore a host write; `CMD` and numbers that name no register read 0,
and the read changes nothing else (10_state R19, R21, R25). `hostData` holds what a read returned (log 11). -/
def Obligations.ReadOnlyAndAbsentRegistersIgnoreWrites : Prop :=
  ∀ (s : State) (v : Nat), s.busy = false →
    (v < 2 ^ 32 → hostAct (.writeReg 9 v) s = .next s) ∧
    (v < 2 ^ 8 → hostAct (.writeReg 17 v) s = .next s) ∧
    (v < 2 ^ 7 → hostAct (.writeReg 18 v) s = .next s) ∧
    (∀ n, (11 ≤ n ∧ n ≤ 15) ∨ 19 ≤ n → hostAct (.writeReg n v) s = .next s) ∧
    (∀ n, (11 ≤ n ∧ n ≤ 16) ∨ 19 ≤ n → hostAct (.readReg n) s = .next { s with hostData := 0 })

/-- A host write of a cell that exists is read back, and neither access changes another cell of any space or a register
(10_state R30 to R33; 20_memory R46, R55). A value wider than the cell is refused (log 9), and an index outside the space
faults (log 10). -/
def Obligations.HostWritesAndReadsCell : Prop :=
  (∀ (s : State) (sp : Space) (a v : Nat), s.busy = false → a < spaceCells sp → v < 2 ^ cellWidth sp →
    ∃ t, hostAct (.writeCell sp a v) s = .next t ∧
      (∀ sp' b, (sp' ≠ sp ∨ b ≠ a) → t.cellRead sp' b = s.cellRead sp' b) ∧ (∀ n, t.portRead n = s.portRead n) ∧
      hostAct (.readCell sp a) t = .next { t with hostData := v }) ∧
  (∀ (s : State) (sp : Space) (a v : Nat), s.busy = false → a < spaceCells sp → 2 ^ cellWidth sp ≤ v →
    hostAct (.writeCell sp a v) s = .refused .hostValueTooWide) ∧
  (∀ (s : State) (sp : Space) (a v : Nat), s.busy = false → spaceCells sp ≤ a →
    hostAct (.writeCell sp a v) s = .fault (.noSuchCell sp a) ∧ hostAct (.readCell sp a) s = .fault (.noSuchCell sp a))

/-- 70_reset R166: while a command runs a host access to an operand register or to a cell has no meaning and is refused;
`STATUS` and `PROGRESS` may be read, and the read changes nothing. -/
def Obligations.HostAccessWhileBusyIsRefused : Prop :=
  ∀ s : State, s.busy = true →
    (∀ n v, n ≤ 10 → hostAct (.writeReg n v) s = .refused .hostAccessWhileBusy) ∧
    (∀ n, n ≤ 10 → hostAct (.readReg n) s = .refused .hostAccessWhileBusy) ∧
    (∀ sp a v, hostAct (.writeCell sp a v) s = .refused .hostAccessWhileBusy) ∧
    (∀ sp a, hostAct (.readCell sp a) s = .refused .hostAccessWhileBusy) ∧
    hostAct (.readReg 17) s = .next { s with hostData := s.status.toNat } ∧
    hostAct (.readReg 18) s = .next { s with hostData := s.progress.toNat }

/-- A host read of each register while no command runs returns its value and changes nothing else (10_state R10, R25).
`hostData` holds what a read returned (log 11). `CMD` and absent numbers are in ReadOnlyAndAbsentRegistersIgnoreWrites. -/
def Obligations.HostReadReturnsEachRegister : Prop :=
  ∀ s : State, s.busy = false →
    hostAct (.readReg 0) s = .next { s with hostData := s.w.toNat } ∧
    hostAct (.readReg 1) s = .next { s with hostData := s.h.toNat } ∧
    hostAct (.readReg 2) s = .next { s with hostData := s.pixlen.toNat } ∧
    hostAct (.readReg 3) s = .next { s with hostData := s.mlen.toNat } ∧
    hostAct (.readReg 4) s = .next { s with hostData := s.plen.toNat } ∧
    hostAct (.readReg 5) s = .next { s with hostData := s.idx.toNat } ∧
    hostAct (.readReg 6) s = .next { s with hostData := if s.bit then 1 else 0 } ∧
    hostAct (.readReg 7) s = .next { s with hostData := s.blen.toNat } ∧
    hostAct (.readReg 8) s = .next { s with hostData := s.pos.toNat } ∧
    hostAct (.readReg 9) s = .next { s with hostData := s.cap.toNat } ∧
    hostAct (.readReg 10) s = .next { s with hostData := s.key.toNat } ∧
    hostAct (.readReg 17) s = .next { s with hostData := s.status.toNat } ∧
    hostAct (.readReg 18) s = .next { s with hostData := s.progress.toNat }

/-- While a command runs: reads of `CMD` and of numbers that name no register return 0, writes to `STATUS`, `PROGRESS` and
numbers that name no register are ignored, and a write too wide for the port of `CMD`, `STATUS` or `PROGRESS` is refused. A
fitting `CMD` write is CmdWriteWhileBusyIsDropped; reads of `STATUS` and `PROGRESS` are HostAccessWhileBusyIsRefused. 10_state
R21 and R25 say so without naming `BUSY`; that it holds while busy is the model's reading of 70_reset R166 (log 8; log 9 for
the width). -/
def Obligations.OtherRegistersWhileBusy : Prop :=
  ∀ s : State, s.busy = true →
    (∀ n, (11 ≤ n ∧ n ≤ 16) ∨ 19 ≤ n → hostAct (.readReg n) s = .next { s with hostData := 0 }) ∧
    (∀ n v, (11 ≤ n ∧ n ≤ 15) ∨ 19 ≤ n → hostAct (.writeReg n v) s = .next s) ∧
    (∀ v, v < 2 ^ 8 → hostAct (.writeReg 17 v) s = .next s) ∧
    (∀ v, v < 2 ^ 7 → hostAct (.writeReg 18 v) s = .next s) ∧
    (∀ n v k, 11 ≤ n → portWidth n = some k → 2 ^ k ≤ v → hostAct (.writeReg n v) s = .refused .hostValueTooWide)

/-! ### Reset (70_reset R160 to R163) -/

/-- After reset every register is 0, and the engine is idle and waits (70_reset R160). That the waiting engine's step leaves the
state as it is rests on the empty agenda (log 1) and the idle turn (log 14), and that no command word is held on log 12. -/
def Obligations.ResetClearsEveryRegister : Prop :=
  (∀ n, State.reset.portRead n = 0) ∧ State.reset.busy = false ∧ State.reset.done = false ∧
  step State.reset = .next State.reset ∧
  ∀ s : State, ∃ t, hostAct .reset s = .next t ∧ (∀ n, t.portRead n = 0) ∧ t.busy = false ∧ t.done = false ∧
    t.status = 0x00#8 ∧ t.progress = 0#7 ∧ t.inFlight = 0#8

/-- A reset applied while a command runs leaves every cell outside the write set of that command as it was (70_reset R162,
93_implementation_defined U9); a reserved word has no write set, so with one in flight every cell is left. The reset of an idle
engine is IdleResetForgetsMemories. -/
def Obligations.ResetKeepsCellsOutsideWriteSet : Prop :=
  ∀ s : State, s.busy = true → ∃ t, hostAct .reset s = .next t ∧ s.SamePwd t ∧
    (∀ i, decodeWord s.inFlight = .ok i →
      (∀ a, a ∉ (writeSet i s).pix → t.pixAt a = s.pixAt a) ∧
      (∀ a, a ∉ (writeSet i s).msg → t.msgAt a = s.msgAt a) ∧
      (∀ a, a ∉ (writeSet i s).bits → t.bitsAt a = s.bitsAt a)) ∧
    (∀ e, decodeWord s.inFlight = .error e → s.SamePix t ∧ s.SameMsg t ∧ s.SameBits t)

/-- After the reset of an idle engine every cell of the four memories holds an unspecified value (70_reset R161;
93_implementation_defined U7): no cell is listed, so each reads its free value, and the state after the reset is the same
whatever the memories and the registers held before, the model's own fields being equal. The form is the model's (log 2,
log 7). -/
def Obligations.IdleResetForgetsMemories : Prop :=
  (∀ s : State, s.busy = false → ∃ t, hostAct .reset s = .next t ∧ t.pix = [] ∧ t.msg = [] ∧ t.pwd = [] ∧ t.bits = [] ∧
    t.powerOn = s.powerOn + 1) ∧
  (∀ s u : State, s.busy = false → u.busy = false → s.SameModelFields u → u.draws = s.draws →
    hostAct .reset u = hostAct .reset s)

/-- The first command after reset (70_reset R163, which the spec derives): its outcome, and that every operand register is
still 0 and no cell was touched. `withFetchWord` issues the command (log 13). -/
def Obligations.FirstCommandAfterReset : Prop :=
  ∀ p ∈ [(1, 0x02#8), (2, 0x02#8), (3, 0x02#8), (4, 0x42#8), (5, 0x42#8), (6, 0x02#8), (7, 0x02#8), (8, 0x02#8), (9, 0x02#8),
      (10, 0x42#8), (11, 0x22#8)],
    ∃ t, step (State.reset.withFetchWord 8 p.1) = .next t ∧ t.status = p.2 ∧ State.reset.SameOperands t ∧
      t.pix = [] ∧ t.msg = [] ∧ t.pwd = [] ∧ t.bits = []

/-! ### The commands -/

/-- 40_capacity R81: CAPACITY always ends `OK` with `CAP = capacity(W, H)` (R80 written out, clamped to 0); nothing else
changes. -/
def Obligations.CapacityComputesCap : Prop :=
  decodeWord 0x01#8 = .ok .capacity ∧
  ∀ s : State, ∃ t, exec .capacity s = .next t ∧ t.EndsOk ∧
    t.cap.toNat = (if 3 * (s.w.toNat * s.h.toNat) < 64 then 0 else (3 * (s.w.toNat * s.h.toNat) - 64) / 8) ∧
    s.SameHostRegs t ∧ t.mlen = s.mlen ∧ t.bit = s.bit ∧ t.blen = s.blen ∧ t.pos = s.pos ∧ t.key = s.key ∧
    s.SamePix t ∧ s.SameMsg t ∧ s.SamePwd t ∧ s.SameBits t ∧ s.SameModelFields t

/-- 41_bit_packer R90 (with R85 written out): PACK always ends `OK`; bit `8i + j` is bit `7 - j` of byte `i`;
`BLEN = 8 * MLEN`; cells from `8 * MLEN` on and everything else are unchanged. -/
def Obligations.PackExpandsMessage : Prop :=
  decodeWord 0x02#8 = .ok .pack ∧
  ∀ s : State, ∃ t, exec .pack s = .next t ∧ t.EndsOk ∧ t.blen.toNat = 8 * s.mlen.toNat ∧
    (∀ i j, i < s.mlen.toNat → j ≤ 7 → t.bitsAt (8 * i + j) = (s.msgAt i).getLsbD (7 - j)) ∧
    (∀ a, 8 * s.mlen.toNat ≤ a → t.bitsAt a = s.bitsAt a) ∧
    s.SameHostRegs t ∧ t.mlen = s.mlen ∧ t.bit = s.bit ∧ t.pos = s.pos ∧ t.cap = s.cap ∧ t.key = s.key ∧
    s.SamePix t ∧ s.SameMsg t ∧ s.SamePwd t ∧ s.SameModelFields t

/-- 41_bit_packer R91 (with R86 written out): UNPACK collects `ceil(BLEN / 8)` bytes, a trailing group padded with zeros on the
right, and sets `MLEN`; when the byte count does not fit `MLEN` it ends `OutOfRange` before any write. -/
def Obligations.UnpackCollectsBits : Prop :=
  decodeWord 0x03#8 = .ok .unpack ∧
  (∀ s : State, (s.blen.toNat + 7) / 8 ≤ 2 ^ 32 - 1 →
    ∃ t, exec .unpack s = .next t ∧ t.EndsOk ∧ t.mlen.toNat = (s.blen.toNat + 7) / 8 ∧
      (∀ i j, i < (s.blen.toNat + 7) / 8 → j ≤ 7 →
        (t.msgAt i).getLsbD (7 - j) = (if 8 * i + j < s.blen.toNat then s.bitsAt (8 * i + j) else false)) ∧
      (∀ a, (s.blen.toNat + 7) / 8 ≤ a → t.msgAt a = s.msgAt a) ∧
      s.SameHostRegs t ∧ t.bit = s.bit ∧ t.blen = s.blen ∧ t.pos = s.pos ∧ t.cap = s.cap ∧ t.key = s.key ∧
      s.SamePix t ∧ s.SamePwd t ∧ s.SameBits t ∧ s.SameModelFields t) ∧
  (∀ s : State, s.progress.toNat ≤ 100 → 2 ^ 32 - 1 < (s.blen.toNat + 7) / 8 →
    ∃ t, exec .unpack s = .next t ∧ s.OnlyOutcome t 0x42#8)

/-- 41_bit_packer R92: WRBIT writes `(PIX[IDX] & 0xFE) | BIT` into `PIX[IDX]`, alpha samples included, and nothing else; it
ends `OutOfRange` when `IDX >= PIXLEN`. -/
def Obligations.WrbitWritesOneSample : Prop :=
  decodeWord 0x04#8 = .ok .wrbit ∧
  (∀ s : State, s.idx.toNat < s.pixlen.toNat →
    ∃ t, exec .wrbit s = .next t ∧ t.EndsOk ∧
      t.pixAt s.idx.toNat = ((s.pixAt s.idx.toNat &&& 0xFE#8) ||| (if s.bit then 1#8 else 0#8)) ∧
      (∀ a, a ≠ s.idx.toNat → t.pixAt a = s.pixAt a) ∧
      s.SameOperands t ∧ s.SameMsg t ∧ s.SamePwd t ∧ s.SameBits t ∧ s.SameModelFields t) ∧
  (∀ s : State, s.progress.toNat ≤ 100 → s.pixlen.toNat ≤ s.idx.toNat →
    ∃ t, exec .wrbit s = .next t ∧ s.OnlyOutcome t 0x42#8)

/-- 41_bit_packer R93: RDBIT leaves `PIX[IDX] & 1` in `BIT` and changes nothing else; it ends `OutOfRange` when
`IDX >= PIXLEN`, with `BIT` unchanged. -/
def Obligations.RdbitReadsOneSample : Prop :=
  decodeWord 0x05#8 = .ok .rdbit ∧
  (∀ s : State, s.idx.toNat < s.pixlen.toNat →
    ∃ t, exec .rdbit s = .next t ∧ t.EndsOk ∧ t.bit = decide (s.pixAt s.idx.toNat &&& 1#8 = 1#8) ∧
      s.SameHostRegs t ∧ t.mlen = s.mlen ∧ t.blen = s.blen ∧ t.pos = s.pos ∧ t.cap = s.cap ∧ t.key = s.key ∧
      s.SamePix t ∧ s.SameMsg t ∧ s.SamePwd t ∧ s.SameBits t ∧ s.SameModelFields t) ∧
  (∀ s : State, s.progress.toNat ≤ 100 → s.pixlen.toNat ≤ s.idx.toNat →
    ∃ t, exec .rdbit s = .next t ∧ s.OnlyOutcome t 0x42#8)

/-- PWHASH always ends `OK` with the key of 43_password_mask R105, its recurrence written out: seed 0, `h*31 + c` wrapped to 32
bits signed at every character, absolute value. The seed 0 is general knowledge, not the source's (R105, K1, log 15). -/
def Obligations.PwhashDerivesKey : Prop :=
  decodeWord 0x06#8 = .ok .pwhash ∧
  ∀ s : State, ∃ t, exec .pwhash s = .next t ∧ t.EndsOk ∧
    (∃ h : Nat → Int, h 0 = 0 ∧ (∀ i, i < s.plen.toNat → h (i + 1) = (h i * 31 + ((s.pwdAt i).toNat : Int)).bmod (2 ^ 32)) ∧
      t.key.toNat = (h s.plen.toNat).natAbs) ∧
    s.SameHostRegs t ∧ t.mlen = s.mlen ∧ t.bit = s.bit ∧ t.blen = s.blen ∧ t.pos = s.pos ∧ t.cap = s.cap ∧
    s.SamePix t ∧ s.SameMsg t ∧ s.SamePwd t ∧ s.SameBits t ∧ s.SameModelFields t

/-- 43_password_mask R111 (with R107 written out): XMASK always ends `OK`; byte `i < MLEN` is XORed with `(KEY + i) mod 256`;
nothing else changes. -/
def Obligations.XmaskMasksMessage : Prop :=
  decodeWord 0x07#8 = .ok .xmask ∧
  ∀ s : State, ∃ t, exec .xmask s = .next t ∧ t.EndsOk ∧
    (∀ i, i < s.mlen.toNat → t.msgAt i = s.msgAt i ^^^ BitVec.ofNat 8 ((s.key.toNat + i) % 256)) ∧
    (∀ a, s.mlen.toNat ≤ a → t.msgAt a = s.msgAt a) ∧
    s.SameOperands t ∧ s.SamePix t ∧ s.SamePwd t ∧ s.SameBits t ∧ s.SameModelFields t

/-- 42_stream_engine R98: EMBED writes bit `t` of `BITS` into the LSB of the sample at stream position `POS + t` and advances
`POS` by `BLEN`; `InvalidInput`, then `OutOfRange`, before any write. -/
def Obligations.EmbedWritesStream : Prop :=
  decodeWord 0x08#8 = .ok .embed ∧
  (∀ s : State, s.progress.toNat ≤ 100 → s.pixlen.toNat ≠ 4 * (s.w.toNat * s.h.toNat) →
    ∃ t, exec .embed s = .next t ∧ s.OnlyOutcome t 0x32#8) ∧
  (∀ s : State, s.progress.toNat ≤ 100 → s.pixlen.toNat = 4 * (s.w.toNat * s.h.toNat) →
    3 * (s.w.toNat * s.h.toNat) < s.pos.toNat + s.blen.toNat →
    ∃ t, exec .embed s = .next t ∧ s.OnlyOutcome t 0x42#8) ∧
  (∀ s : State, s.pixlen.toNat = 4 * (s.w.toNat * s.h.toNat) →
    s.pos.toNat + s.blen.toNat ≤ 3 * (s.w.toNat * s.h.toNat) →
    ∃ t, exec .embed s = .next t ∧ t.EndsOk ∧ t.pos.toNat = s.pos.toNat + s.blen.toNat ∧
      (∀ u, u < s.blen.toNat →
        t.pixAt (sidx (s.pos.toNat + u)) = wbit (s.pixAt (sidx (s.pos.toNat + u))) (s.bitsAt u)) ∧
      (∀ a, (∀ u, u < s.blen.toNat → a ≠ sidx (s.pos.toNat + u)) → t.pixAt a = s.pixAt a) ∧
      s.SameHostRegs t ∧ t.mlen = s.mlen ∧ t.bit = s.bit ∧ t.blen = s.blen ∧ t.cap = s.cap ∧ t.key = s.key ∧
      s.SameMsg t ∧ s.SamePwd t ∧ s.SameBits t ∧ s.SameModelFields t)

/-- 42_stream_engine R99: EXTRACT leaves the LSB of the sample at stream position `POS + t` in `BITS[t]` and advances `POS` by
`BLEN`; `InvalidInput`, then `OutOfRange`, before any write. -/
def Obligations.ExtractReadsStream : Prop :=
  decodeWord 0x09#8 = .ok .extract ∧
  (∀ s : State, s.progress.toNat ≤ 100 → s.pixlen.toNat ≠ 4 * (s.w.toNat * s.h.toNat) →
    ∃ t, exec .extract s = .next t ∧ s.OnlyOutcome t 0x32#8) ∧
  (∀ s : State, s.progress.toNat ≤ 100 → s.pixlen.toNat = 4 * (s.w.toNat * s.h.toNat) →
    3 * (s.w.toNat * s.h.toNat) < s.pos.toNat + s.blen.toNat →
    ∃ t, exec .extract s = .next t ∧ s.OnlyOutcome t 0x42#8) ∧
  (∀ s : State, s.pixlen.toNat = 4 * (s.w.toNat * s.h.toNat) →
    s.pos.toNat + s.blen.toNat ≤ 3 * (s.w.toNat * s.h.toNat) →
    ∃ t, exec .extract s = .next t ∧ t.EndsOk ∧ t.pos.toNat = s.pos.toNat + s.blen.toNat ∧
      (∀ u, u < s.blen.toNat → t.bitsAt u = (s.pixAt (sidx (s.pos.toNat + u))).getLsbD 0) ∧
      (∀ a, s.blen.toNat ≤ a → t.bitsAt a = s.bitsAt a) ∧
      s.SameHostRegs t ∧ t.mlen = s.mlen ∧ t.bit = s.bit ∧ t.blen = s.blen ∧ t.cap = s.cap ∧ t.key = s.key ∧
      s.SamePix t ∧ s.SameMsg t ∧ s.SamePwd t ∧ s.SameModelFields t)

/-- 44_frame_codec R118: the checks of ENCODE in their order, and on `OK` the frame of 30_encoding R60 in the LSBs of the
stream from position 0, `POS = 64 + 8 * MLEN`, and nothing else changed. -/
def Obligations.EncodeWritesFrame : Prop :=
  decodeWord 0x0A#8 = .ok .encode ∧
  (∀ s : State, s.progress.toNat ≤ 100 → s.pixlen.toNat ≠ 4 * (s.w.toNat * s.h.toNat) →
    ∃ t, exec .encode s = .next t ∧ s.OnlyOutcome t 0x32#8) ∧
  (∀ s : State, s.progress.toNat ≤ 100 → s.pixlen.toNat = 4 * (s.w.toNat * s.h.toNat) →
    capacity s.w.toNat s.h.toNat < s.mlen.toNat →
    ∃ t, exec .encode s = .next t ∧ s.OnlyOutcome t 0x12#8) ∧
  (∀ s : State, s.progress.toNat ≤ 100 → s.pixlen.toNat = 4 * (s.w.toNat * s.h.toNat) →
    s.mlen.toNat ≤ capacity s.w.toNat s.h.toNat → 3 * (s.w.toNat * s.h.toNat) < 64 + 8 * s.mlen.toNat →
    ∃ t, exec .encode s = .next t ∧ s.OnlyOutcome t 0x42#8) ∧
  (∀ s : State, s.pixlen.toNat = 4 * (s.w.toNat * s.h.toNat) → s.mlen.toNat ≤ capacity s.w.toNat s.h.toNat →
    64 + 8 * s.mlen.toNat ≤ 3 * (s.w.toNat * s.h.toNat) →
    ∃ t, exec .encode s = .next t ∧ t.EndsOk ∧ t.pos.toNat = 64 + 8 * s.mlen.toNat ∧
      (∀ k, k < 64 + 8 * s.mlen.toNat → t.pixAt (sidx k) = wbit (s.pixAt (sidx k)) (s.frameBit k)) ∧
      (∀ a, (∀ k, k < 64 + 8 * s.mlen.toNat → a ≠ sidx k) → t.pixAt a = s.pixAt a) ∧
      s.SameHostRegs t ∧ t.mlen = s.mlen ∧ t.bit = s.bit ∧ t.blen = s.blen ∧ t.cap = s.cap ∧ t.key = s.key ∧
      s.SameMsg t ∧ s.SamePwd t ∧ s.SameBits t ∧ s.SameModelFields t)

/-- 44_frame_codec R122: the checks of DECODE in their order (`d` is the declared length, the 32-bit number the first 32 bits of
the stream spell), and on `OK` the unmasked payload in `MSG[0 .. d-1]`, `MLEN = d`, `POS = 32 + 8d`, and nothing else
changed. -/
def Obligations.DecodeReadsFrame : Prop :=
  decodeWord 0x0B#8 = .ok .decode ∧
  (∀ s : State, s.progress.toNat ≤ 100 → s.pixlen.toNat ≠ 4 * (s.w.toNat * s.h.toNat) →
    ∃ t, exec .decode s = .next t ∧ s.OnlyOutcome t 0x32#8) ∧
  (∀ s : State, s.progress.toNat ≤ 100 → s.pixlen.toNat = 4 * (s.w.toNat * s.h.toNat) →
    3 * (s.w.toNat * s.h.toNat) < 32 → ∃ t, exec .decode s = .next t ∧ s.OnlyOutcome t 0x22#8) ∧
  (∀ (s : State) (d : Len), s.progress.toNat ≤ 100 → s.pixlen.toNat = 4 * (s.w.toNat * s.h.toNat) →
    32 ≤ 3 * (s.w.toNat * s.h.toNat) → s.Declares d → (d.toNat = 0 ∨ 1000000 < d.toNat) →
    ∃ t, exec .decode s = .next t ∧ s.OnlyOutcome t 0x22#8) ∧
  (∀ (s : State) (d : Len), s.progress.toNat ≤ 100 → s.pixlen.toNat = 4 * (s.w.toNat * s.h.toNat) →
    32 ≤ 3 * (s.w.toNat * s.h.toNat) → s.Declares d → 1 ≤ d.toNat → d.toNat ≤ 1000000 →
    3 * (s.w.toNat * s.h.toNat) < 32 + 8 * d.toNat →
    ∃ t, exec .decode s = .next t ∧ s.OnlyOutcome t 0x42#8) ∧
  (∀ (s : State) (d : Len), s.pixlen.toNat = 4 * (s.w.toNat * s.h.toNat) → s.Declares d → 1 ≤ d.toNat →
    d.toNat ≤ 1000000 → 32 + 8 * d.toNat ≤ 3 * (s.w.toNat * s.h.toNat) →
    ∃ t, exec .decode s = .next t ∧ t.EndsOk ∧ t.mlen = d ∧ t.pos.toNat = 32 + 8 * d.toNat ∧
      (∀ i j, i < d.toNat → j ≤ 7 →
        (t.msgAt i).getLsbD (7 - j) = ((s.streamAt (32 + 8 * i + j)) ^^ ((s.maskAt i).getLsbD (7 - j)))) ∧
      (∀ a, d.toNat ≤ a → t.msgAt a = s.msgAt a) ∧
      s.SameHostRegs t ∧ t.bit = s.bit ∧ t.blen = s.blen ∧ t.cap = s.cap ∧ t.key = s.key ∧
      s.SamePix t ∧ s.SamePwd t ∧ s.SameBits t ∧ s.SameModelFields t)

/-! ### Outcomes (60_exceptions) -/

/-- 60_exceptions R143: EMBED, EXTRACT, ENCODE and DECODE raise `InvalidInput` exactly when `PIXLEN != 4 * W * H`, before
anything else, and no other command raises it; an empty image is a valid shape, on which ENCODE ends `CapacityExceeded` for
`MLEN >= 1` and `OutOfRange` for `MLEN = 0`, and DECODE `NotFound`. -/
def Obligations.InvalidInputExactlyOnShapeMismatch : Prop :=
  (∀ (i : Instr) (s t : State), exec i s = .next t →
    (t.status = 0x32#8 ↔ (i = .embed ∨ i = .extract ∨ i = .encode ∨ i = .decode) ∧
      s.pixlen.toNat ≠ 4 * (s.w.toNat * s.h.toNat))) ∧
  (∀ s : State, s.w = 0#16 ∨ s.h = 0#16 → s.pixlen = 0#36 →
    ∃ t u, exec .encode s = .next t ∧ (s.mlen ≠ 0#32 → t.status = 0x12#8) ∧ (s.mlen = 0#32 → t.status = 0x42#8) ∧
      exec .decode s = .next u ∧ u.status = 0x22#8)

/-- `CapacityExceeded` (60_exceptions R142) is raised by ENCODE alone, and exactly when `MLEN > capacity(W, H)` (the shape check
of R143 comes first, R148). -/
def Obligations.CapacityExceededExactlyWhenTooLong : Prop :=
  ∀ (i : Instr) (s t : State), exec i s = .next t →
    (t.status = 0x12#8 ↔ i = .encode ∧ s.pixlen.toNat = 4 * (s.w.toNat * s.h.toNat) ∧
      capacity s.w.toNat s.h.toNat < s.mlen.toNat)

/-! ### Laws of the functions -/

/-- `capacity` in closed form with its clamp (40_capacity R80); and the facts that the spec derives from the definition: it is 0
exactly up to 23 pixels, depends on the product alone, does not decrease with it, and leaves room for the frame. -/
def Obligations.CapacityFacts : Prop :=
  (∀ w h, capacity w h = if w * h * 3 < 64 then 0 else (w * h * 3 - 64) / 8) ∧
  (∀ w h, capacity w h = 0 ↔ w * h ≤ 23) ∧
  (∀ w h w' h', w * h = w' * h' → capacity w h = capacity w' h') ∧
  (∀ w h w' h', w * h ≤ w' * h' → capacity w h ≤ capacity w' h') ∧
  (∀ w h, 64 ≤ 3 * w * h → 8 * capacity w h + 64 ≤ 3 * w * h)

/-- When a frame fits (44_frame_codec R117, which the spec derives): from 64 carrier samples on, exactly when the message is at
most the capacity; below 64 no frame fits, the capacity is 0, and ENCODE of the empty message ends `OutOfRange`. -/
def Obligations.FrameFitsExactlyUpToCapacity : Prop :=
  (∀ w h l, 64 ≤ 3 * (w * h) → (64 + 8 * l ≤ 3 * (w * h) ↔ l ≤ capacity w h)) ∧
  (∀ w h l, 3 * (w * h) < 64 → ¬ 64 + 8 * l ≤ 3 * (w * h) ∧ capacity w h = 0) ∧
  (∀ s : State, s.pixlen.toNat = 4 * (s.w.toNat * s.h.toNat) → 3 * (s.w.toNat * s.h.toNat) < 64 → s.mlen = 0#32 →
    ∃ t, exec .encode s = .next t ∧ t.status = 0x42#8)

/-- The laws of the bit write and the bit read (41_bit_packer R88, R89, and R94, which the spec derives). -/
def Obligations.BitWriteAndReadLaws : Prop :=
  ∀ (s : Byte) (a b : Bit),
    wbit s b = ((s &&& 0xFE#8) ||| (if b then 1#8 else 0#8)) ∧ rbit s = decide (s &&& 1#8 = 1#8) ∧
    rbit (wbit s b) = b ∧ wbit s (rbit s) = s ∧ wbit (wbit s a) b = wbit s b ∧ (wbit s b).toNat / 2 = s.toNat / 2

/-- The inverse laws of packing and unpacking (41_bit_packer R87, which the spec derives from R85 and R86). -/
def Obligations.PackingAndUnpackingAreInverse : Prop :=
  (∀ b : List Byte, bitsToBytes (bytesToBits b) = b) ∧
  (∀ s : List Bit, bytesToBits (bitsToBytes s) = s ++ List.replicate ((8 - s.length % 8) % 8) false) ∧
  (∀ s : List Bit, s.length % 8 = 0 → bytesToBits (bitsToBytes s) = s) ∧
  (∀ b : List Byte, (bytesToBits b).length = 8 * b.length) ∧
  (∀ s : List Bit, (bitsToBytes s).length = (s.length + 7) / 8)

/-- The stream map (42_stream_engine R95) and its properties (R96, which the spec derives): strictly increasing, onto the
samples that are not alpha, with its inverse, and inside the buffer exactly for the positions of the stream. -/
def Obligations.StreamMapProperties : Prop :=
  (∀ k, sidx k = 4 * (k / 3) + k % 3) ∧ (∀ j k, j < k → sidx j < sidx k) ∧
  (∀ i, i % 4 ≠ 3 ↔ ∃ k, sidx k = i) ∧ (∀ i, i % 4 ≠ 3 → sidx (3 * (i / 4) + i % 4) = i) ∧
  (∀ k p, sidx k < 4 * p ↔ k < 3 * p)

/-- What a stream write preserves (42_stream_engine R100, which the spec derives): alpha samples and samples outside the
written range keep all 8 bits, every sample keeps bits 7 to 1, and reading back gives the written bits. -/
def Obligations.StreamWritePreservesImage : Prop :=
  ∀ (s : State) (p : Nat) (bs : List Bit),
    (∀ a, a % 4 = 3 → (s.writeStream p bs).pixAt a = s.pixAt a) ∧
    (∀ a j, 1 ≤ j → ((s.writeStream p bs).pixAt a).getLsbD j = (s.pixAt a).getLsbD j) ∧
    (∀ k, (k < p ∨ p + bs.length ≤ k) → (s.writeStream p bs).pixAt (sidx k) = s.pixAt (sidx k)) ∧
    (s.writeStream p bs).readStream p bs.length = bs

/-- When the hash is truncated does not matter (43_password_mask R106, which the spec derives): truncating once, at the end, the
exact sum of `p[i] * 31^(n-1-i)` gives the same key. It rests on the seed 0 (K1, log 15). -/
def Obligations.HashMayTruncateOnceAtEnd : Prop :=
  ∀ p : List CharCode,
    passwordHash p =
      ((((List.range p.length).map fun i => ((p.getD i 0#16).toNat : Int) * 31 ^ (p.length - 1 - i)).sum).bmod
        (2 ^ 32)).natAbs

/-- The mask is an involution (43_password_mask R108, which the spec derives from R107). -/
def Obligations.MaskIsInvolution : Prop :=
  ∀ (key : Nat) (m : List Byte), maskSeq key (maskSeq key m) = m ∧ (maskSeq key m).length = m.length

/-- Only `key mod 256` matters (43_password_mask R109, which the spec derives): congruent keys mask identically, a second mask
undoes the first exactly when the keys are congruent, and a multiple of 256 leaves exactly the bytes at multiples of 256
alone. -/
def Obligations.OnlyLowKeyByteMatters : Prop :=
  (∀ key i, maskByte key i = BitVec.ofNat 8 ((key % 256 + i) % 256)) ∧
  (∀ k1 k2 (m : List Byte), k1 % 256 = k2 % 256 → maskSeq k1 m = maskSeq k2 m) ∧
  (∀ k1 k2 (m : List Byte), m ≠ [] → (maskSeq k1 (maskSeq k2 m) = m ↔ k1 % 256 = k2 % 256)) ∧
  (∀ key i (m : List Byte) (h : i < m.length), key % 256 = 0 →
    ((maskSeq key m)[i]? = some m[i] ↔ i % 256 = 0))

/-! ### Whole-machine rules -/

/-- Two images with the same pixel count are the same to the engine (20_memory R48, which the spec derives): replacing `W` and
`H` by values with the same product changes nothing else in the result of any command. -/
def Obligations.OnlyPixelCountMatters : Prop :=
  ∀ (i : Instr) (s t : State) (w' h' : Dim), w'.toNat * h'.toNat = s.w.toNat * s.h.toNat → exec i s = .next t →
    exec i ((s.setW w').setH h') = .next ((t.setW w').setH h')

/-- ENCODE and DECODE neither read nor write `KEY`, `CAP` and `BLEN`, and touch no `BITS` cell (10_state R19, R20, R33; D32). -/
def Obligations.CodecIgnoresKeyCapAndBits : Prop :=
  ∀ (i : Instr) (s t : State) (key cap : Len) (blen : Big) (base : Nat) (bs : List Bit), i = .encode ∨ i = .decode →
    exec i s = .next t →
    exec i ((((s.setKey key).setCap cap).setBlen blen).writeBits base bs) =
      .next ((((t.setKey key).setCap cap).setBlen blen).writeBits base bs)

/-- PACK then UNPACK restores the message and its length (41_bit_packer R87, R90, R91). -/
def Obligations.PackThenUnpackRestoresMessage : Prop :=
  ∀ s : State, ∃ t u, exec .pack s = .next t ∧ exec .unpack t = .next u ∧ u.status = 0x02#8 ∧ u.mlen = s.mlen ∧ s.SameMsg u

/-- Two XMASKs in a row with the same `KEY` restore `MSG` (43_password_mask R108, R111). -/
def Obligations.MaskTwiceRestoresMessage : Prop :=
  ∀ s : State, ∃ t u, exec .xmask s = .next t ∧ exec .xmask t = .next u ∧ s.SameMsg u ∧ s.SameOperands u

/-- RDBIT after WRBIT at the same `IDX` returns the bit written (41_bit_packer R93, R94). -/
def Obligations.WriteBitThenReadBit : Prop :=
  ∀ (s : State) (b : Bit), s.idx.toNat < s.pixlen.toNat →
    ∃ t u, exec .wrbit s = .next t ∧ exec .rdbit (t.setBit b) = .next u ∧ u.status = 0x02#8 ∧ u.bit = s.bit

/-- EXTRACT after EMBED of the same range, with `POS` set back, returns the embedded bits whatever `BITS` held in between
(42_stream_engine R99, R100). -/
def Obligations.EmbedThenExtractReturnsBits : Prop :=
  ∀ s : State, s.pixlen.toNat = 4 * (s.w.toNat * s.h.toNat) →
    s.pos.toNat + s.blen.toNat ≤ 3 * (s.w.toNat * s.h.toNat) →
    ∃ t, exec .embed s = .next t ∧ ∀ (base : Nat) (junk : List Bit),
      ∃ u, exec .extract ((t.setPos s.pos).writeBits base junk) = .next u ∧ u.status = 0x02#8 ∧ u.pos = t.pos ∧
        ∀ k, k < s.blen.toNat → u.bitsAt k = s.bitsAt k

/-- DECODE of a buffer that was never encoded into (44_frame_codec R130, which the spec derives): the outcome depends only on
`W`, `H`, `PIXLEN` and the first 32 stream bits, and a buffer whose LSBs are all zero gives `NotFound`, whatever its size. -/
def Obligations.DecodeOutcomeDependsOnHeaderOnly : Prop :=
  (∀ s u t v : State, u.w = s.w → u.h = s.h → u.pixlen = s.pixlen → (∀ k, k < 32 → u.streamAt k = s.streamAt k) →
    exec .decode s = .next t → exec .decode u = .next v → v.status = t.status) ∧
  (∀ s : State, s.pixlen.toNat = 4 * (s.w.toNat * s.h.toNat) →
    (∀ k, k < 3 * (s.w.toNat * s.h.toNat) → s.streamAt k = false) → ∃ t, exec .decode s = .next t ∧ t.status = 0x22#8)

/-! ### Whole runs: round trip, passwords, compositions, invariant -/

/-- The round trip (44_frame_codec R128, which the spec derives): a message of 1 to 1 000 000 bytes that fits is encoded, and any
later DECODE with the same dimensions, password and buffer ends `OK` with the same length and the same bytes, whatever else
the registers and `MSG` hold in between. -/
def Obligations.EncodeThenDecodeReturnsMessage : Prop :=
  ∀ s : State, s.pixlen.toNat = 4 * (s.w.toNat * s.h.toNat) → 1 ≤ s.mlen.toNat → s.mlen.toNat ≤ 1000000 →
    s.mlen.toNat ≤ capacity s.w.toNat s.h.toNat →
    ∃ t, exec .encode s = .next t ∧ t.status = 0x02#8 ∧
      ∀ u : State, u.w = s.w → u.h = s.h → u.pixlen = s.pixlen → u.plen = s.plen →
        (∀ a, a < s.plen.toNat → u.pwdAt a = s.pwdAt a) → t.SamePix u →
        ∃ v, exec .decode u = .next v ∧ v.status = 0x02#8 ∧ v.mlen = s.mlen ∧
          ∀ i, i < s.mlen.toNat → v.msgAt i = s.msgAt i

/-- Other passwords (44_frame_codec R129, which the spec derives): DECODE with any password still ends `OK`; byte `i` of the
result is the message byte XORed with both masks; it is the message exactly when the keys are congruent modulo 256, or, if
exactly one side had no password, only for a one-byte message and a key that is a multiple of 256. -/
def Obligations.WrongPasswordGarblesSilently : Prop :=
  ∀ s : State, s.pixlen.toNat = 4 * (s.w.toNat * s.h.toNat) → 1 ≤ s.mlen.toNat → s.mlen.toNat ≤ 1000000 →
    s.mlen.toNat ≤ capacity s.w.toNat s.h.toNat →
    ∃ t, exec .encode s = .next t ∧
      ∀ u : State, u.w = s.w → u.h = s.h → u.pixlen = s.pixlen → t.SamePix u →
        ∃ v, exec .decode u = .next v ∧ v.status = 0x02#8 ∧ v.mlen = s.mlen ∧
          (∀ i, i < s.mlen.toNat → v.msgAt i = s.msgAt i ^^^ s.maskAt i ^^^ u.maskAt i) ∧
          (s.plen ≠ 0#16 → u.plen ≠ 0#16 →
            ((∀ i, i < s.mlen.toNat → v.msgAt i = s.msgAt i) ↔
              passwordHash s.password % 256 = passwordHash u.password % 256)) ∧
          (s.plen ≠ 0#16 → u.plen = 0#16 →
            ((∀ i, i < s.mlen.toNat → v.msgAt i = s.msgAt i) ↔
              s.mlen.toNat = 1 ∧ passwordHash s.password % 256 = 0)) ∧
          (s.plen = 0#16 → u.plen ≠ 0#16 →
            ((∀ i, i < s.mlen.toNat → v.msgAt i = s.msgAt i) ↔
              s.mlen.toNat = 1 ∧ passwordHash u.password % 256 = 0))

/-- ENCODE equals its composition from the primitives (92_eei_decisions D29, 95_test_vectors P2): an engine whose `MSG` holds
the frame bytes, with `POS = 0`, gets the same buffer and the same `POS` from PACK followed by EMBED. -/
def Obligations.EncodeEqualsPackThenEmbed : Prop :=
  ∀ s r : State, s.pixlen.toNat = 4 * (s.w.toNat * s.h.toNat) → s.mlen.toNat ≤ capacity s.w.toNat s.h.toNat →
    64 + 8 * s.mlen.toNat ≤ 3 * (s.w.toNat * s.h.toNat) →
    r.w = s.w → r.h = s.h → r.pixlen = s.pixlen → s.SamePix r → r.pos = 0#36 → r.mlen.toNat = s.mlen.toNat + 8 →
    (∀ i (h : i < (frameBytes s.mlen (encodeBody s)).length), r.msgAt i = (frameBytes s.mlen (encodeBody s))[i]) →
    ∃ t p e, exec .encode s = .next t ∧ t.status = 0x02#8 ∧ exec .pack r = .next p ∧ exec .embed p = .next e ∧
      e.status = 0x02#8 ∧ e.pos = t.pos ∧ t.SamePix e

/-- DECODE without a password equals EXTRACT of the payload followed by UNPACK (95_test_vectors P5): same bytes, same `MLEN`,
same `POS`. -/
def Obligations.DecodeEqualsExtractThenUnpack : Prop :=
  ∀ (s : State) (d : Len), s.pixlen.toNat = 4 * (s.w.toNat * s.h.toNat) → s.Declares d → 1 ≤ d.toNat →
    d.toNat ≤ 1000000 → 32 + 8 * d.toNat ≤ 3 * (s.w.toNat * s.h.toNat) → s.plen = 0#16 →
    ∃ t x y, exec .decode s = .next t ∧ t.status = 0x02#8 ∧
      exec .extract ((s.setPos 32#36).setBlen (BitVec.ofNat 36 (8 * d.toNat))) = .next x ∧ exec .unpack x = .next y ∧
      y.status = 0x02#8 ∧ y.mlen = t.mlen ∧ y.pos = t.pos ∧ t.SameMsg y

/-- The invariant of every run holds after reset (70_reset R160): a legal `STATUS`, `PROGRESS` in its laws, memories in
canonical form. The clauses about the memory lists and the hidden word are the model's own (log 2, log 12). -/
def Obligations.InvariantHoldsAtReset : Prop := State.reset.Inv

/-- Every step keeps the invariant, from every state that has it: `STATUS` stays one of the eight legal words (10_state R27),
`PROGRESS` stays within its laws (R28), no command word outlives its command (R26, R34), and every space lists only cells that
exist, in canonical form (R30 to R33). The clauses about the memory lists and the hidden word are the model's own (log 2,
log 12). -/
def Obligations.EveryStepKeepsInvariant : Prop :=
  ∀ s t : State, s.Inv → step s = .next t → t.Inv
end

