-- ==== Sys2Proof/Laws/BitPacker.lean ====
section
/-!
SUPPORT. The pure functions of the bit packer and of the frame header: lengths, and what stands at each place
(41_bit_packer R85 to R89, R94; 30_encoding R67).
-/
namespace Sys2Proof.Machine

/-! ### `bytesToBits` -/

@[simp] theorem length_byteBits (b : Byte) : (byteBits b).length = 8 := rfl

@[simp] theorem length_bytesToBits (bs : List Byte) : (bytesToBits bs).length = 8 * bs.length := by
  induction bs with
  | nil => rfl
  | cons b bs ih =>
    simp only [bytesToBits, List.flatMap_cons, List.length_append, length_byteBits, List.length_cons] at ih ⊢
    omega

theorem bytesToBits_append (xs ys : List Byte) : bytesToBits (xs ++ ys) = bytesToBits xs ++ bytesToBits ys := by
  simp [bytesToBits]

theorem getElem_byteBits (b : Byte) (j : Nat) (h : j < (byteBits b).length) : (byteBits b)[j] = b.getLsbD (7 - j) := by
  simp [byteBits]

/-- Bit `t` of the expansion is bit `7 - t mod 8` of byte `t div 8` (41_bit_packer R85). -/
theorem getElem_bytesToBits (bs : List Byte) (t : Nat) (h : t < (bytesToBits bs).length) :
    (bytesToBits bs)[t] = (bs[t / 8]'(by rw [length_bytesToBits] at h; omega)).getLsbD (7 - t % 8) := by
  induction bs generalizing t with
  | nil => simp [bytesToBits] at h
  | cons b bs ih =>
    have e : bytesToBits (b :: bs) = byteBits b ++ bytesToBits bs := by simp [bytesToBits]
    rw [List.getElem_of_eq e]
    by_cases ht : t < 8
    · rw [List.getElem_append_left (by simpa using ht), getElem_byteBits]
      have e1 : t / 8 = 0 := by omega
      have e2 : t % 8 = t := by omega
      simp only [e1, e2, List.getElem_cons_zero]
    · rw [List.getElem_append_right (by simp; omega), ih]
      have e1 : t / 8 = (t - (byteBits b).length) / 8 + 1 := by rw [length_byteBits]; omega
      have e2 : t % 8 = (t - (byteBits b).length) % 8 := by rw [length_byteBits]; omega
      simp only [e1, e2, List.getElem_cons_succ]

/-! ### `bitsToBytes` -/

@[simp] theorem length_bitsToBytes (bits : List Bit) : (bitsToBytes bits).length = ceilDiv8 bits.length := by
  simp [bitsToBytes]

theorem getElem_bitsToBytes (bits : List Bit) (i : Nat) (h : i < (bitsToBytes bits).length) :
    (bitsToBytes bits)[i] = byteAt bits i := by
  simp [bitsToBytes]

theorem getLsbD_packed_byte : ∀ b0 b1 b2 b3 b4 b5 b6 b7 : Bool,
    let v := BitVec.ofNat 8 ([b0.toNat * 2 ^ 7, b1.toNat * 2 ^ 6, b2.toNat * 2 ^ 5, b3.toNat * 2 ^ 4, b4.toNat * 2 ^ 3,
      b5.toNat * 2 ^ 2, b6.toNat * 2 ^ 1, b7.toNat * 2 ^ 0].sum)
    v.getLsbD 7 = b0 ∧ v.getLsbD 6 = b1 ∧ v.getLsbD 5 = b2 ∧ v.getLsbD 4 = b3 ∧ v.getLsbD 3 = b4 ∧ v.getLsbD 2 = b5 ∧
      v.getLsbD 1 = b6 ∧ v.getLsbD 0 = b7 := by
  decide

/-- Bit `7 - j` of byte `i` is bit `8i + j` of the sequence, 0 beyond its end (41_bit_packer R86). -/
theorem getLsbD_byteAt (bits : List Bit) (i j : Nat) (hj : j < 8) :
    (byteAt bits i).getLsbD (7 - j) = paddedBit bits (8 * i + j) := by
  have h := getLsbD_packed_byte (paddedBit bits (8 * i + 0)) (paddedBit bits (8 * i + 1)) (paddedBit bits (8 * i + 2))
    (paddedBit bits (8 * i + 3)) (paddedBit bits (8 * i + 4)) (paddedBit bits (8 * i + 5)) (paddedBit bits (8 * i + 6))
    (paddedBit bits (8 * i + 7))
  obtain ⟨h0, h1, h2, h3, h4, h5, h6, h7⟩ := h
  match j, hj with
  | 0, _ => exact h0
  | 1, _ => exact h1
  | 2, _ => exact h2
  | 3, _ => exact h3
  | 4, _ => exact h4
  | 5, _ => exact h5
  | 6, _ => exact h6
  | 7, _ => exact h7

/-- Two bytes with the same bits, read most significant first, are the same byte. -/
theorem byte_ext_msb {a b : Byte} (h : ∀ j, j < 8 → a.getLsbD (7 - j) = b.getLsbD (7 - j)) : a = b := by
  apply BitVec.eq_of_getLsbD_eq
  intro i hi
  have := h (7 - i) (by omega)
  have e : 7 - (7 - i) = i := by omega
  rwa [e] at this

theorem paddedBit_eq_getElem (bits : List Bit) (t : Nat) (h : t < bits.length) : paddedBit bits t = bits[t] := by
  simp [paddedBit, h]

theorem paddedBit_eq_false (bits : List Bit) (t : Nat) (h : bits.length ≤ t) : paddedBit bits t = false := by
  simp [paddedBit, h]

/-! ### `wbit` and `rbit` -/

theorem rbit_wbit (s : Byte) (b : Bit) : rbit (wbit s b) = b := by revert s b; decide

theorem wbit_rbit (s : Byte) : wbit s (rbit s) = s := by revert s; decide

theorem rbit_eq_getLsbD (s : Byte) : rbit s = s.getLsbD 0 := by revert s; decide

/-- A bit write keeps bits 7 to 1 (41_bit_packer R88). -/
theorem getLsbD_wbit (s : Byte) (b : Bit) (j : Nat) (h : 0 < j) : (wbit s b).getLsbD j = s.getLsbD j := by
  by_cases h8 : j < 8
  · have all : ∀ (s : Byte) (b : Bit) (j : Fin 8), 0 < j.val → (wbit s b).getLsbD j.val = s.getLsbD j.val := by decide
    exact all s b ⟨j, h8⟩ h
  · rw [BitVec.getLsbD_of_ge _ _ (by omega), BitVec.getLsbD_of_ge _ _ (by omega)]

/-! ### The header -/

theorem sum_testBit (x n : Nat) :
    ((List.range n).map fun j => (x.testBit (n - 1 - j)).toNat * 2 ^ (n - 1 - j)).sum = x % 2 ^ n := by
  induction n with
  | zero => simp [Nat.mod_one]
  | succ n ih =>
    rw [List.range_succ_eq_map, List.map_cons, List.sum_cons, List.map_map, Nat.mod_pow_succ]
    have e : ((fun j => (x.testBit (n + 1 - 1 - j)).toNat * 2 ^ (n + 1 - 1 - j)) ∘ Nat.succ) =
        fun j => (x.testBit (n - 1 - j)).toNat * 2 ^ (n - 1 - j) := by
      funext j
      have e1 : n + 1 - 1 - Nat.succ j = n - 1 - j := by omega
      simp only [Function.comp, e1]
    rw [e, ih]
    simp only [Nat.add_sub_cancel, Nat.sub_zero, Nat.toNat_testBit]
    rw [Nat.mul_comm, Nat.add_comm]

/-- The declared length is the number whose bits the header lists, most significant first (30_encoding R67). -/
theorem headerValue_eq (h : List Bit) (d : Len) (hb : ∀ j, j < 32 → h.getD j false = d.getLsbD (31 - j)) :
    headerValue h = d.toNat := by
  have e : headerValue h = ((List.range 32).map fun j => (d.toNat.testBit (32 - 1 - j)).toNat * 2 ^ (32 - 1 - j)).sum := by
    unfold headerValue headerBits
    refine congrArg List.sum (List.map_congr_left fun j hj => ?_)
    rw [hb j (List.mem_range.1 hj)]
    simp only [BitVec.getLsbD, Nat.reduceSub]
  rw [e, sum_testBit, Nat.mod_eq_of_lt d.isLt]

theorem getLsbD_be32 (l : Len) (k : Nat) (h : k < 32) :
    ((be32 l)[k / 8]'(by show k / 8 < 4; omega)).getLsbD (7 - k % 8) = l.getLsbD (31 - k) := by
  have hk : k / 8 < 4 := by omega
  have hcases : k / 8 = 0 ∨ k / 8 = 1 ∨ k / 8 = 2 ∨ k / 8 = 3 := by omega
  have h7 : 7 - k % 8 < 8 := by omega
  rcases hcases with e | e | e | e <;>
    simp only [be32, e, List.getElem_cons_zero, List.getElem_cons_succ, BitVec.getLsbD_extractLsb', h7, decide_true,
      Bool.true_and] <;>
    congr 1 <;> omega

end Sys2Proof.Machine
end

