-- ==== Sys2Proof/Laws/PasswordMask.lean ====
section
/-!
SUPPORT. The hash and the mask (43_password_mask R105 to R109) and the frame (44_frame_codec R115, R116): lengths, bounds, and
what stands at each place.
-/
namespace Sys2Proof.Machine

/-! ### The hash -/

theorem wrap32s_range (z : Int) : -2 ^ 31 ≤ wrap32s z ∧ wrap32s z ≤ 2 ^ 31 - 1 := by
  simp only [wrap32s, sext32]
  split <;> omega

theorem wrap32s_emod (z : Int) : wrap32s z % 2 ^ 32 = z % 2 ^ 32 := by
  simp only [wrap32s, sext32]
  split <;> omega

/-- `wrap32s` is the representative of its residue in `-2^31 .. 2^31 - 1` (00_scope R6). -/
theorem wrap32s_eq_bmod (z : Int) : wrap32s z = z.bmod (2 ^ 32) := by
  rw [Int.bmod_def]
  simp only [wrap32s, sext32]
  norm_num

theorem foldl_hashStep_range (p : List CharCode) (h : Int) (hh : -2 ^ 31 ≤ h ∧ h ≤ 2 ^ 31 - 1) :
    -2 ^ 31 ≤ p.foldl hashStep h ∧ p.foldl hashStep h ≤ 2 ^ 31 - 1 := by
  induction p generalizing h with
  | nil => exact hh
  | cons c p ih => exact ih _ (wrap32s_range _)

/-- A key is at most `2^31` (43_password_mask R105), so it fits `KEY` (10_state R20). -/
theorem passwordHash_le (p : List CharCode) : passwordHash p ≤ 2 ^ 31 := by
  have h := foldl_hashStep_range p hashSeed (by decide)
  simp only [passwordHash]
  omega

/-! ### The mask -/

@[simp] theorem length_maskSeq (key : Nat) (m : List Byte) : (maskSeq key m).length = m.length := by simp [maskSeq]

theorem getElem_maskSeq (key : Nat) (m : List Byte) (i : Nat) (h : i < (maskSeq key m).length) :
    (maskSeq key m)[i] = (m[i]'(by simpa using h)) ^^^ maskByte key i := by
  simp [maskSeq]

/-- Only `key mod 256` matters (43_password_mask R109). -/
theorem maskByte_mod (key i : Nat) : maskByte (key % 256) i = maskByte key i := by
  simp only [maskByte, maskMod]
  congr 1
  omega

@[simp] theorem length_maskWith (p : List CharCode) (m : List Byte) : (maskWith p m).length = m.length := by
  unfold maskWith
  split <;> simp

theorem getElem_maskWith (p : List CharCode) (m : List Byte) (i : Nat) (h : i < (maskWith p m).length) :
    (maskWith p m)[i] =
      if p.length ≠ 0 then (m[i]'(by simpa using h)) ^^^ maskByte (passwordHash p) i else m[i]'(by simpa using h) := by
  by_cases hp : p.length ≠ 0
  · have e : maskWith p m = maskSeq (passwordHash p) m := if_pos hp
    rw [List.getElem_of_eq e, getElem_maskSeq, if_pos hp]
  · have e : maskWith p m = m := if_neg hp
    rw [List.getElem_of_eq e, if_neg hp]

/-! ### The frame -/

@[simp] theorem length_be32 (l : Len) : (be32 l).length = 4 := rfl

@[simp] theorem length_frameBytes (l : Len) (body : List Byte) : (frameBytes l body).length = body.length + 8 := by
  simp [frameBytes, termBytes]
  omega

@[simp] theorem length_frameBits (l : Len) (body : List Byte) : (frameBits l body).length = 64 + 8 * body.length := by
  simp [frameBits]
  omega

theorem getElem_frameBits (l : Len) (body : List Byte) (k : Nat) (h : k < (frameBits l body).length) :
    (frameBits l body)[k] =
      ((frameBytes l body)[k / 8]'(by rw [length_frameBits] at h; rw [length_frameBytes]; omega)).getLsbD (7 - k % 8) :=
  getElem_bytesToBits (frameBytes l body) k h

/-- Frame bits 0 to 31: the length, most significant bit first (30_encoding R60). -/
theorem getElem_frameBits_header (l : Len) (body : List Byte) (k : Nat) (h : k < (frameBits l body).length) (hk : k < 32) :
    (frameBits l body)[k] = l.getLsbD (31 - k) := by
  have e : (frameBytes l body)[k / 8]'(by rw [length_frameBytes]; rw [length_frameBits] at h; omega) = (be32 l)[k / 8]'(by rw [length_be32]; omega) := by
    simp only [frameBytes, List.append_assoc]
    rw [List.getElem_append_left (by rw [length_be32]; omega)]
  rw [getElem_frameBits, e, getLsbD_be32 l k hk]

/-- Frame bits 32 to `31 + 8L`: the payload, each byte most significant bit first (30_encoding R60, R62). -/
theorem getElem_frameBits_payload (l : Len) (body : List Byte) (k : Nat) (h : k < (frameBits l body).length) (hk : 32 ≤ k)
    (hk' : k < 32 + 8 * body.length) :
    (frameBits l body)[k] = (body[(k - 32) / 8]'(by omega)).getLsbD (7 - (k - 32) % 8) := by
  have e : (frameBytes l body)[k / 8]'(by rw [length_frameBytes]; omega) = body[(k - 32) / 8]'(by omega) := by
    simp only [frameBytes, List.append_assoc]
    rw [List.getElem_append_right (by rw [length_be32]; omega), List.getElem_append_left (by rw [length_be32]; omega)]
    congr 1
    rw [length_be32]
    omega
  have e2 : k % 8 = (k - 32) % 8 := by omega
  rw [getElem_frameBits, e, e2]

/-- The last 32 frame bits: the terminator, all zero (30_encoding R60, R63). -/
theorem getElem_frameBits_terminator (l : Len) (body : List Byte) (k : Nat) (h : k < (frameBits l body).length)
    (hk : 32 + 8 * body.length ≤ k) : (frameBits l body)[k] = false := by
  have h' := h
  rw [length_frameBits] at h'
  have e : (frameBytes l body)[k / 8]'(by rw [length_frameBytes]; omega) = 0#8 := by
    simp only [frameBytes]
    rw [List.getElem_append_right (by simp; omega)]
    simp
  rw [getElem_frameBits, e]
  simp

end Sys2Proof.Machine
end

