-- ==== Sys2Proof/Laws/Memory.lean ====
section
/-!
SUPPORT. The laws of one memory space: a read after a write, and that every operation keeps the canonical form and the bound
of the space.
-/
namespace Sys2Proof.Machine

variable {α : Type}

/-! ### Reads after writes -/

theorem memFind_memWrite (m : Memory α) (a b : Nat) (v : α) :
    memFind (memWrite m a v) b = if b = a then some v else memFind m b := by
  induction m with
  | nil => simp [memWrite, memFind]
  | cons c rest ih =>
    obtain ⟨k, u⟩ := c
    by_cases h1 : a < k
    · simp [memWrite, h1, memFind]
    · by_cases h2 : a = k
      · subst h2
        by_cases hb : b = a <;> simp [memWrite, memFind, hb]
      · by_cases hb : b = k
        · have hba : b ≠ a := fun h => h2 (h ▸ hb)
          simp [memWrite, h1, h2, memFind, hb, Ne.symm h2]
        · simp [memWrite, h1, h2, memFind, hb, ih]

@[simp] theorem memRead_memWrite (free : Nat → α) (m : Memory α) (a b : Nat) (v : α) :
    memRead free (memWrite m a v) b = if b = a then v else memRead free m b := by
  unfold memRead
  rw [memFind_memWrite]
  split <;> rfl

/-- A read after a run of writes: the value written to the cell, the old one outside the run. -/
theorem memRead_memWriteSeq (free : Nat → α) (vs : List α) (m : Memory α) (base b : Nat) :
    memRead free (memWriteSeq m base vs) b =
      if h : base ≤ b ∧ b < base + vs.length then vs[b - base]'(by omega) else memRead free m b := by
  induction vs generalizing m base with
  | nil =>
    have h : ¬ (base ≤ b ∧ b < base + ([] : List α).length) := by simp
    simp only [memWriteSeq, h, dite_false]
  | cons v vs ih =>
    rw [memWriteSeq, ih, memRead_memWrite]
    by_cases hb : b = base
    · subst hb
      have h : ¬ (b + 1 ≤ b ∧ b < b + 1 + vs.length) := by omega
      simp
    · by_cases hin : base + 1 ≤ b ∧ b < base + 1 + vs.length
      · have hin' : base ≤ b ∧ b < base + (v :: vs).length := by simp; omega
        have e : b - base = (b - (base + 1)) + 1 := by omega
        simp only [hin, hin', and_self, dite_true, e, List.getElem_cons_succ]
      · have hin' : ¬ (base ≤ b ∧ b < base + (v :: vs).length) := by simp; omega
        simp only [hin, hin', dite_false, hb, if_false]

theorem memRead_memWriteSeq_in (free : Nat → α) (m : Memory α) (base i : Nat) (vs : List α) (h : i < vs.length) :
    memRead free (memWriteSeq m base vs) (base + i) = vs[i] := by
  rw [memRead_memWriteSeq]
  have hin : base ≤ base + i ∧ base + i < base + vs.length := by omega
  simp [hin]

theorem memRead_memWriteSeq_out (free : Nat → α) (m : Memory α) (base b : Nat) (vs : List α)
    (h : b < base ∨ base + vs.length ≤ b) : memRead free (memWriteSeq m base vs) b = memRead free m b := by
  rw [memRead_memWriteSeq]
  have hin : ¬ (base ≤ b ∧ b < base + vs.length) := by omega
  simp only [hin, dite_false]

theorem memRead_memFill (free fill : Nat → α) (cells : List Nat) (m : Memory α) (b : Nat) :
    memRead free (memFill fill cells m) b = if b ∈ cells then fill b else memRead free m b := by
  induction cells generalizing m with
  | nil => simp [memFill]
  | cons a cells ih =>
    rw [memFill, ih, memRead_memWrite]
    by_cases hb : b ∈ cells
    · simp [hb]
    · by_cases hab : b = a <;> simp [hb, hab]

/-! ### The canonical form -/

/-- The first index of `m` is at least `a`. -/
def headAbove (a : Nat) : Memory α → Prop
  | [] => True
  | (k, _) :: _ => a < k

theorem wf_cons {k : Nat} {u : α} {m : Memory α} :
    Memory.wf ((k, u) :: m) = true ↔ headAbove k m ∧ Memory.wf m = true := by
  cases m with
  | nil => simp [Memory.wf, headAbove]
  | cons c rest => obtain ⟨k', v'⟩ := c; simp [Memory.wf, headAbove]

theorem headAbove_memWrite {k a : Nat} {v : α} {m : Memory α} (hm : headAbove k m) (h : k < a) :
    headAbove k (memWrite m a v) := by
  cases m with
  | nil => simpa [memWrite, headAbove] using h
  | cons c rest =>
    obtain ⟨k', u⟩ := c
    simp only [memWrite]
    split
    · simpa [headAbove] using h
    · split
      · simpa [headAbove] using h
      · simpa [headAbove] using hm

/-- A write keeps the canonical form. -/
theorem wf_memWrite {m : Memory α} (a : Nat) (v : α) (h : Memory.wf m = true) : Memory.wf (memWrite m a v) = true := by
  induction m with
  | nil => rfl
  | cons c rest ih =>
    obtain ⟨k, u⟩ := c
    obtain ⟨hk, hrest⟩ := wf_cons.1 h
    simp only [memWrite]
    split
    · exact wf_cons.2 ⟨by simpa [headAbove], h⟩
    · split
      · rename_i e; subst e; exact wf_cons.2 ⟨hk, hrest⟩
      · exact wf_cons.2 ⟨headAbove_memWrite hk (by omega), ih hrest⟩

/-- A run of writes keeps the canonical form. -/
theorem wf_memWriteSeq (vs : List α) {m : Memory α} (base : Nat) (h : Memory.wf m = true) :
    Memory.wf (memWriteSeq m base vs) = true := by
  induction vs generalizing m base with
  | nil => exact h
  | cons v vs ih => exact ih (base + 1) (wf_memWrite base v h)

/-- Filling cells keeps the canonical form. -/
theorem wf_memFill (free : Nat → α) (cells : List Nat) {m : Memory α} (h : Memory.wf m = true) :
    Memory.wf (memFill free cells m) = true := by
  induction cells generalizing m with
  | nil => exact h
  | cons a cells ih => exact ih (wf_memWrite a (free a) h)

/-! ### The bound of a space -/

/-- A write below the bound keeps the bound. -/
theorem within_memWrite {n : Nat} {m : Memory α} {a : Nat} (v : α) (ha : a < n) (h : Memory.within n m = true) :
    Memory.within n (memWrite m a v) = true := by
  induction m with
  | nil => simpa [memWrite, Memory.within] using ha
  | cons c rest ih =>
    obtain ⟨k, u⟩ := c
    simp only [Memory.within, Bool.and_eq_true, decide_eq_true_eq] at h
    simp only [memWrite]
    split
    · simp [Memory.within, ha, h.1, h.2]
    · split <;> simp [Memory.within, ha, h.1, h.2, ih h.2]

/-- A run of writes below the bound keeps the bound. -/
theorem within_memWriteSeq {n : Nat} (vs : List α) {m : Memory α} {base : Nat} (hb : base + vs.length ≤ n)
    (h : Memory.within n m = true) : Memory.within n (memWriteSeq m base vs) = true := by
  induction vs generalizing m base with
  | nil => exact h
  | cons v vs ih =>
    simp only [List.length_cons] at hb
    exact ih (by omega) (within_memWrite v (by omega) h)

/-- Filling cells below the bound keeps the bound. -/
theorem within_memFill {n : Nat} (free : Nat → α) (cells : List Nat) {m : Memory α} (hc : ∀ a ∈ cells, a < n)
    (h : Memory.within n m = true) : Memory.within n (memFill free cells m) = true := by
  induction cells generalizing m with
  | nil => exact h
  | cons a cells ih =>
    exact ih (fun b hb => hc b (List.mem_cons_of_mem _ hb)) (within_memWrite _ (hc a List.mem_cons_self) h)

/-! ### Equal contents are equal data -/

theorem memFind_none_of_headAbove {m : Memory α} {a b : Nat} (hw : Memory.wf m = true) (h : headAbove a m) (hb : b ≤ a) :
    memFind m b = none := by
  induction m generalizing a with
  | nil => rfl
  | cons c rest ih =>
    obtain ⟨k, u⟩ := c
    obtain ⟨hk, hrest⟩ := wf_cons.1 hw
    have hak : a < k := h
    have hbk : b ≠ k := by omega
    simp only [memFind, hbk, if_false]
    exact ih hrest hk (by omega)

/-- Two canonical memories that list the same value for every cell are the same list. -/
theorem eq_of_memFind_eq {m n : Memory α} (hm : Memory.wf m = true) (hn : Memory.wf n = true)
    (h : ∀ a, memFind m a = memFind n a) : m = n := by
  induction m generalizing n with
  | nil =>
    cases n with
    | nil => rfl
    | cons c rest => obtain ⟨k, u⟩ := c; have := h k; simp [memFind] at this
  | cons c rest ih =>
    obtain ⟨k, u⟩ := c
    obtain ⟨hk, hrest⟩ := wf_cons.1 hm
    cases n with
    | nil => have := h k; simp [memFind] at this
    | cons d rest' =>
      obtain ⟨k', u'⟩ := d
      obtain ⟨hk', hrest'⟩ := wf_cons.1 hn
      have hkk : k = k' := by
        rcases Nat.lt_trichotomy k k' with hlt | heq | hgt
        · have h1 := h k
          have hne : k ≠ k' := by omega
          simp only [memFind, if_true, hne, if_false] at h1
          rw [memFind_none_of_headAbove hrest' hk' (by omega)] at h1
          cases h1
        · exact heq
        · have h1 := h k'
          have hne : k' ≠ k := by omega
          simp only [memFind, if_true, hne, if_false] at h1
          rw [memFind_none_of_headAbove hrest hk (by omega)] at h1
          cases h1
      subst hkk
      have hu : u = u' := by have h1 := h k; simpa [memFind] using h1
      subst hu
      congr 1
      refine ih hrest hrest' fun a => ?_
      by_cases hak : a = k
      · subst hak
        rw [memFind_none_of_headAbove hrest hk (Nat.le_refl _), memFind_none_of_headAbove hrest' hk' (Nat.le_refl _)]
      · have h1 := h a
        simpa [memFind, hak] using h1

end Sys2Proof.Machine
end

