-- ==== Sys2Proof/Laws/State.lean ====
section
/-!
SUPPORT. One lemma per field per update of State, and the cell reads under every update that leaves their space alone: true
by rfl, so that no proof unfolds a record update. Each is proved by the tactic rfl, so that simp uses it as an equation and the
kernel compares no two states.
-/
namespace Sys2Proof.Machine.State

/-! ### `setW` -/

@[simp] theorem setW_w (s : State) (v : Dim) : (s.setW v).w = v := by rfl
@[simp] theorem setW_h (s : State) (v : Dim) : (s.setW v).h = s.h := by rfl
@[simp] theorem setW_pixlen (s : State) (v : Dim) : (s.setW v).pixlen = s.pixlen := by rfl
@[simp] theorem setW_mlen (s : State) (v : Dim) : (s.setW v).mlen = s.mlen := by rfl
@[simp] theorem setW_plen (s : State) (v : Dim) : (s.setW v).plen = s.plen := by rfl
@[simp] theorem setW_idx (s : State) (v : Dim) : (s.setW v).idx = s.idx := by rfl
@[simp] theorem setW_bit (s : State) (v : Dim) : (s.setW v).bit = s.bit := by rfl
@[simp] theorem setW_blen (s : State) (v : Dim) : (s.setW v).blen = s.blen := by rfl
@[simp] theorem setW_pos (s : State) (v : Dim) : (s.setW v).pos = s.pos := by rfl
@[simp] theorem setW_cap (s : State) (v : Dim) : (s.setW v).cap = s.cap := by rfl
@[simp] theorem setW_key (s : State) (v : Dim) : (s.setW v).key = s.key := by rfl
@[simp] theorem setW_status (s : State) (v : Dim) : (s.setW v).status = s.status := by rfl
@[simp] theorem setW_progress (s : State) (v : Dim) : (s.setW v).progress = s.progress := by rfl
@[simp] theorem setW_pix (s : State) (v : Dim) : (s.setW v).pix = s.pix := by rfl
@[simp] theorem setW_msg (s : State) (v : Dim) : (s.setW v).msg = s.msg := by rfl
@[simp] theorem setW_pwd (s : State) (v : Dim) : (s.setW v).pwd = s.pwd := by rfl
@[simp] theorem setW_bits (s : State) (v : Dim) : (s.setW v).bits = s.bits := by rfl
@[simp] theorem setW_inFlight (s : State) (v : Dim) : (s.setW v).inFlight = s.inFlight := by rfl
@[simp] theorem setW_agenda (s : State) (v : Dim) : (s.setW v).agenda = s.agenda := by rfl
@[simp] theorem setW_hostData (s : State) (v : Dim) : (s.setW v).hostData = s.hostData := by rfl
@[simp] theorem setW_powerOn (s : State) (v : Dim) : (s.setW v).powerOn = s.powerOn := by rfl
@[simp] theorem setW_draws (s : State) (v : Dim) : (s.setW v).draws = s.draws := by rfl
@[simp] theorem setW_pixAt (s : State) (v : Dim) : (s.setW v).pixAt = s.pixAt := by rfl
@[simp] theorem setW_msgAt (s : State) (v : Dim) : (s.setW v).msgAt = s.msgAt := by rfl
@[simp] theorem setW_pwdAt (s : State) (v : Dim) : (s.setW v).pwdAt = s.pwdAt := by rfl
@[simp] theorem setW_bitsAt (s : State) (v : Dim) : (s.setW v).bitsAt = s.bitsAt := by rfl
@[simp] theorem setW_busy (s : State) (v : Dim) : (s.setW v).busy = s.busy := by rfl
@[simp] theorem setW_done (s : State) (v : Dim) : (s.setW v).done = s.done := by rfl

/-! ### `setH` -/

@[simp] theorem setH_w (s : State) (v : Dim) : (s.setH v).w = s.w := by rfl
@[simp] theorem setH_h (s : State) (v : Dim) : (s.setH v).h = v := by rfl
@[simp] theorem setH_pixlen (s : State) (v : Dim) : (s.setH v).pixlen = s.pixlen := by rfl
@[simp] theorem setH_mlen (s : State) (v : Dim) : (s.setH v).mlen = s.mlen := by rfl
@[simp] theorem setH_plen (s : State) (v : Dim) : (s.setH v).plen = s.plen := by rfl
@[simp] theorem setH_idx (s : State) (v : Dim) : (s.setH v).idx = s.idx := by rfl
@[simp] theorem setH_bit (s : State) (v : Dim) : (s.setH v).bit = s.bit := by rfl
@[simp] theorem setH_blen (s : State) (v : Dim) : (s.setH v).blen = s.blen := by rfl
@[simp] theorem setH_pos (s : State) (v : Dim) : (s.setH v).pos = s.pos := by rfl
@[simp] theorem setH_cap (s : State) (v : Dim) : (s.setH v).cap = s.cap := by rfl
@[simp] theorem setH_key (s : State) (v : Dim) : (s.setH v).key = s.key := by rfl
@[simp] theorem setH_status (s : State) (v : Dim) : (s.setH v).status = s.status := by rfl
@[simp] theorem setH_progress (s : State) (v : Dim) : (s.setH v).progress = s.progress := by rfl
@[simp] theorem setH_pix (s : State) (v : Dim) : (s.setH v).pix = s.pix := by rfl
@[simp] theorem setH_msg (s : State) (v : Dim) : (s.setH v).msg = s.msg := by rfl
@[simp] theorem setH_pwd (s : State) (v : Dim) : (s.setH v).pwd = s.pwd := by rfl
@[simp] theorem setH_bits (s : State) (v : Dim) : (s.setH v).bits = s.bits := by rfl
@[simp] theorem setH_inFlight (s : State) (v : Dim) : (s.setH v).inFlight = s.inFlight := by rfl
@[simp] theorem setH_agenda (s : State) (v : Dim) : (s.setH v).agenda = s.agenda := by rfl
@[simp] theorem setH_hostData (s : State) (v : Dim) : (s.setH v).hostData = s.hostData := by rfl
@[simp] theorem setH_powerOn (s : State) (v : Dim) : (s.setH v).powerOn = s.powerOn := by rfl
@[simp] theorem setH_draws (s : State) (v : Dim) : (s.setH v).draws = s.draws := by rfl
@[simp] theorem setH_pixAt (s : State) (v : Dim) : (s.setH v).pixAt = s.pixAt := by rfl
@[simp] theorem setH_msgAt (s : State) (v : Dim) : (s.setH v).msgAt = s.msgAt := by rfl
@[simp] theorem setH_pwdAt (s : State) (v : Dim) : (s.setH v).pwdAt = s.pwdAt := by rfl
@[simp] theorem setH_bitsAt (s : State) (v : Dim) : (s.setH v).bitsAt = s.bitsAt := by rfl
@[simp] theorem setH_busy (s : State) (v : Dim) : (s.setH v).busy = s.busy := by rfl
@[simp] theorem setH_done (s : State) (v : Dim) : (s.setH v).done = s.done := by rfl

/-! ### `setPixlen` -/

@[simp] theorem setPixlen_w (s : State) (v : Big) : (s.setPixlen v).w = s.w := by rfl
@[simp] theorem setPixlen_h (s : State) (v : Big) : (s.setPixlen v).h = s.h := by rfl
@[simp] theorem setPixlen_pixlen (s : State) (v : Big) : (s.setPixlen v).pixlen = v := by rfl
@[simp] theorem setPixlen_mlen (s : State) (v : Big) : (s.setPixlen v).mlen = s.mlen := by rfl
@[simp] theorem setPixlen_plen (s : State) (v : Big) : (s.setPixlen v).plen = s.plen := by rfl
@[simp] theorem setPixlen_idx (s : State) (v : Big) : (s.setPixlen v).idx = s.idx := by rfl
@[simp] theorem setPixlen_bit (s : State) (v : Big) : (s.setPixlen v).bit = s.bit := by rfl
@[simp] theorem setPixlen_blen (s : State) (v : Big) : (s.setPixlen v).blen = s.blen := by rfl
@[simp] theorem setPixlen_pos (s : State) (v : Big) : (s.setPixlen v).pos = s.pos := by rfl
@[simp] theorem setPixlen_cap (s : State) (v : Big) : (s.setPixlen v).cap = s.cap := by rfl
@[simp] theorem setPixlen_key (s : State) (v : Big) : (s.setPixlen v).key = s.key := by rfl
@[simp] theorem setPixlen_status (s : State) (v : Big) : (s.setPixlen v).status = s.status := by rfl
@[simp] theorem setPixlen_progress (s : State) (v : Big) : (s.setPixlen v).progress = s.progress := by rfl
@[simp] theorem setPixlen_pix (s : State) (v : Big) : (s.setPixlen v).pix = s.pix := by rfl
@[simp] theorem setPixlen_msg (s : State) (v : Big) : (s.setPixlen v).msg = s.msg := by rfl
@[simp] theorem setPixlen_pwd (s : State) (v : Big) : (s.setPixlen v).pwd = s.pwd := by rfl
@[simp] theorem setPixlen_bits (s : State) (v : Big) : (s.setPixlen v).bits = s.bits := by rfl
@[simp] theorem setPixlen_inFlight (s : State) (v : Big) : (s.setPixlen v).inFlight = s.inFlight := by rfl
@[simp] theorem setPixlen_agenda (s : State) (v : Big) : (s.setPixlen v).agenda = s.agenda := by rfl
@[simp] theorem setPixlen_hostData (s : State) (v : Big) : (s.setPixlen v).hostData = s.hostData := by rfl
@[simp] theorem setPixlen_powerOn (s : State) (v : Big) : (s.setPixlen v).powerOn = s.powerOn := by rfl
@[simp] theorem setPixlen_draws (s : State) (v : Big) : (s.setPixlen v).draws = s.draws := by rfl
@[simp] theorem setPixlen_pixAt (s : State) (v : Big) : (s.setPixlen v).pixAt = s.pixAt := by rfl
@[simp] theorem setPixlen_msgAt (s : State) (v : Big) : (s.setPixlen v).msgAt = s.msgAt := by rfl
@[simp] theorem setPixlen_pwdAt (s : State) (v : Big) : (s.setPixlen v).pwdAt = s.pwdAt := by rfl
@[simp] theorem setPixlen_bitsAt (s : State) (v : Big) : (s.setPixlen v).bitsAt = s.bitsAt := by rfl
@[simp] theorem setPixlen_busy (s : State) (v : Big) : (s.setPixlen v).busy = s.busy := by rfl
@[simp] theorem setPixlen_done (s : State) (v : Big) : (s.setPixlen v).done = s.done := by rfl

/-! ### `setMlen` -/

@[simp] theorem setMlen_w (s : State) (v : Len) : (s.setMlen v).w = s.w := by rfl
@[simp] theorem setMlen_h (s : State) (v : Len) : (s.setMlen v).h = s.h := by rfl
@[simp] theorem setMlen_pixlen (s : State) (v : Len) : (s.setMlen v).pixlen = s.pixlen := by rfl
@[simp] theorem setMlen_mlen (s : State) (v : Len) : (s.setMlen v).mlen = v := by rfl
@[simp] theorem setMlen_plen (s : State) (v : Len) : (s.setMlen v).plen = s.plen := by rfl
@[simp] theorem setMlen_idx (s : State) (v : Len) : (s.setMlen v).idx = s.idx := by rfl
@[simp] theorem setMlen_bit (s : State) (v : Len) : (s.setMlen v).bit = s.bit := by rfl
@[simp] theorem setMlen_blen (s : State) (v : Len) : (s.setMlen v).blen = s.blen := by rfl
@[simp] theorem setMlen_pos (s : State) (v : Len) : (s.setMlen v).pos = s.pos := by rfl
@[simp] theorem setMlen_cap (s : State) (v : Len) : (s.setMlen v).cap = s.cap := by rfl
@[simp] theorem setMlen_key (s : State) (v : Len) : (s.setMlen v).key = s.key := by rfl
@[simp] theorem setMlen_status (s : State) (v : Len) : (s.setMlen v).status = s.status := by rfl
@[simp] theorem setMlen_progress (s : State) (v : Len) : (s.setMlen v).progress = s.progress := by rfl
@[simp] theorem setMlen_pix (s : State) (v : Len) : (s.setMlen v).pix = s.pix := by rfl
@[simp] theorem setMlen_msg (s : State) (v : Len) : (s.setMlen v).msg = s.msg := by rfl
@[simp] theorem setMlen_pwd (s : State) (v : Len) : (s.setMlen v).pwd = s.pwd := by rfl
@[simp] theorem setMlen_bits (s : State) (v : Len) : (s.setMlen v).bits = s.bits := by rfl
@[simp] theorem setMlen_inFlight (s : State) (v : Len) : (s.setMlen v).inFlight = s.inFlight := by rfl
@[simp] theorem setMlen_agenda (s : State) (v : Len) : (s.setMlen v).agenda = s.agenda := by rfl
@[simp] theorem setMlen_hostData (s : State) (v : Len) : (s.setMlen v).hostData = s.hostData := by rfl
@[simp] theorem setMlen_powerOn (s : State) (v : Len) : (s.setMlen v).powerOn = s.powerOn := by rfl
@[simp] theorem setMlen_draws (s : State) (v : Len) : (s.setMlen v).draws = s.draws := by rfl
@[simp] theorem setMlen_pixAt (s : State) (v : Len) : (s.setMlen v).pixAt = s.pixAt := by rfl
@[simp] theorem setMlen_msgAt (s : State) (v : Len) : (s.setMlen v).msgAt = s.msgAt := by rfl
@[simp] theorem setMlen_pwdAt (s : State) (v : Len) : (s.setMlen v).pwdAt = s.pwdAt := by rfl
@[simp] theorem setMlen_bitsAt (s : State) (v : Len) : (s.setMlen v).bitsAt = s.bitsAt := by rfl
@[simp] theorem setMlen_busy (s : State) (v : Len) : (s.setMlen v).busy = s.busy := by rfl
@[simp] theorem setMlen_done (s : State) (v : Len) : (s.setMlen v).done = s.done := by rfl

/-! ### `setPlen` -/

@[simp] theorem setPlen_w (s : State) (v : BitVec 16) : (s.setPlen v).w = s.w := by rfl
@[simp] theorem setPlen_h (s : State) (v : BitVec 16) : (s.setPlen v).h = s.h := by rfl
@[simp] theorem setPlen_pixlen (s : State) (v : BitVec 16) : (s.setPlen v).pixlen = s.pixlen := by rfl
@[simp] theorem setPlen_mlen (s : State) (v : BitVec 16) : (s.setPlen v).mlen = s.mlen := by rfl
@[simp] theorem setPlen_plen (s : State) (v : BitVec 16) : (s.setPlen v).plen = v := by rfl
@[simp] theorem setPlen_idx (s : State) (v : BitVec 16) : (s.setPlen v).idx = s.idx := by rfl
@[simp] theorem setPlen_bit (s : State) (v : BitVec 16) : (s.setPlen v).bit = s.bit := by rfl
@[simp] theorem setPlen_blen (s : State) (v : BitVec 16) : (s.setPlen v).blen = s.blen := by rfl
@[simp] theorem setPlen_pos (s : State) (v : BitVec 16) : (s.setPlen v).pos = s.pos := by rfl
@[simp] theorem setPlen_cap (s : State) (v : BitVec 16) : (s.setPlen v).cap = s.cap := by rfl
@[simp] theorem setPlen_key (s : State) (v : BitVec 16) : (s.setPlen v).key = s.key := by rfl
@[simp] theorem setPlen_status (s : State) (v : BitVec 16) : (s.setPlen v).status = s.status := by rfl
@[simp] theorem setPlen_progress (s : State) (v : BitVec 16) : (s.setPlen v).progress = s.progress := by rfl
@[simp] theorem setPlen_pix (s : State) (v : BitVec 16) : (s.setPlen v).pix = s.pix := by rfl
@[simp] theorem setPlen_msg (s : State) (v : BitVec 16) : (s.setPlen v).msg = s.msg := by rfl
@[simp] theorem setPlen_pwd (s : State) (v : BitVec 16) : (s.setPlen v).pwd = s.pwd := by rfl
@[simp] theorem setPlen_bits (s : State) (v : BitVec 16) : (s.setPlen v).bits = s.bits := by rfl
@[simp] theorem setPlen_inFlight (s : State) (v : BitVec 16) : (s.setPlen v).inFlight = s.inFlight := by rfl
@[simp] theorem setPlen_agenda (s : State) (v : BitVec 16) : (s.setPlen v).agenda = s.agenda := by rfl
@[simp] theorem setPlen_hostData (s : State) (v : BitVec 16) : (s.setPlen v).hostData = s.hostData := by rfl
@[simp] theorem setPlen_powerOn (s : State) (v : BitVec 16) : (s.setPlen v).powerOn = s.powerOn := by rfl
@[simp] theorem setPlen_draws (s : State) (v : BitVec 16) : (s.setPlen v).draws = s.draws := by rfl
@[simp] theorem setPlen_pixAt (s : State) (v : BitVec 16) : (s.setPlen v).pixAt = s.pixAt := by rfl
@[simp] theorem setPlen_msgAt (s : State) (v : BitVec 16) : (s.setPlen v).msgAt = s.msgAt := by rfl
@[simp] theorem setPlen_pwdAt (s : State) (v : BitVec 16) : (s.setPlen v).pwdAt = s.pwdAt := by rfl
@[simp] theorem setPlen_bitsAt (s : State) (v : BitVec 16) : (s.setPlen v).bitsAt = s.bitsAt := by rfl
@[simp] theorem setPlen_busy (s : State) (v : BitVec 16) : (s.setPlen v).busy = s.busy := by rfl
@[simp] theorem setPlen_done (s : State) (v : BitVec 16) : (s.setPlen v).done = s.done := by rfl

/-! ### `setIdx` -/

@[simp] theorem setIdx_w (s : State) (v : Big) : (s.setIdx v).w = s.w := by rfl
@[simp] theorem setIdx_h (s : State) (v : Big) : (s.setIdx v).h = s.h := by rfl
@[simp] theorem setIdx_pixlen (s : State) (v : Big) : (s.setIdx v).pixlen = s.pixlen := by rfl
@[simp] theorem setIdx_mlen (s : State) (v : Big) : (s.setIdx v).mlen = s.mlen := by rfl
@[simp] theorem setIdx_plen (s : State) (v : Big) : (s.setIdx v).plen = s.plen := by rfl
@[simp] theorem setIdx_idx (s : State) (v : Big) : (s.setIdx v).idx = v := by rfl
@[simp] theorem setIdx_bit (s : State) (v : Big) : (s.setIdx v).bit = s.bit := by rfl
@[simp] theorem setIdx_blen (s : State) (v : Big) : (s.setIdx v).blen = s.blen := by rfl
@[simp] theorem setIdx_pos (s : State) (v : Big) : (s.setIdx v).pos = s.pos := by rfl
@[simp] theorem setIdx_cap (s : State) (v : Big) : (s.setIdx v).cap = s.cap := by rfl
@[simp] theorem setIdx_key (s : State) (v : Big) : (s.setIdx v).key = s.key := by rfl
@[simp] theorem setIdx_status (s : State) (v : Big) : (s.setIdx v).status = s.status := by rfl
@[simp] theorem setIdx_progress (s : State) (v : Big) : (s.setIdx v).progress = s.progress := by rfl
@[simp] theorem setIdx_pix (s : State) (v : Big) : (s.setIdx v).pix = s.pix := by rfl
@[simp] theorem setIdx_msg (s : State) (v : Big) : (s.setIdx v).msg = s.msg := by rfl
@[simp] theorem setIdx_pwd (s : State) (v : Big) : (s.setIdx v).pwd = s.pwd := by rfl
@[simp] theorem setIdx_bits (s : State) (v : Big) : (s.setIdx v).bits = s.bits := by rfl
@[simp] theorem setIdx_inFlight (s : State) (v : Big) : (s.setIdx v).inFlight = s.inFlight := by rfl
@[simp] theorem setIdx_agenda (s : State) (v : Big) : (s.setIdx v).agenda = s.agenda := by rfl
@[simp] theorem setIdx_hostData (s : State) (v : Big) : (s.setIdx v).hostData = s.hostData := by rfl
@[simp] theorem setIdx_powerOn (s : State) (v : Big) : (s.setIdx v).powerOn = s.powerOn := by rfl
@[simp] theorem setIdx_draws (s : State) (v : Big) : (s.setIdx v).draws = s.draws := by rfl
@[simp] theorem setIdx_pixAt (s : State) (v : Big) : (s.setIdx v).pixAt = s.pixAt := by rfl
@[simp] theorem setIdx_msgAt (s : State) (v : Big) : (s.setIdx v).msgAt = s.msgAt := by rfl
@[simp] theorem setIdx_pwdAt (s : State) (v : Big) : (s.setIdx v).pwdAt = s.pwdAt := by rfl
@[simp] theorem setIdx_bitsAt (s : State) (v : Big) : (s.setIdx v).bitsAt = s.bitsAt := by rfl
@[simp] theorem setIdx_busy (s : State) (v : Big) : (s.setIdx v).busy = s.busy := by rfl
@[simp] theorem setIdx_done (s : State) (v : Big) : (s.setIdx v).done = s.done := by rfl

/-! ### `setBit` -/

@[simp] theorem setBit_w (s : State) (v : Bit) : (s.setBit v).w = s.w := by rfl
@[simp] theorem setBit_h (s : State) (v : Bit) : (s.setBit v).h = s.h := by rfl
@[simp] theorem setBit_pixlen (s : State) (v : Bit) : (s.setBit v).pixlen = s.pixlen := by rfl
@[simp] theorem setBit_mlen (s : State) (v : Bit) : (s.setBit v).mlen = s.mlen := by rfl
@[simp] theorem setBit_plen (s : State) (v : Bit) : (s.setBit v).plen = s.plen := by rfl
@[simp] theorem setBit_idx (s : State) (v : Bit) : (s.setBit v).idx = s.idx := by rfl
@[simp] theorem setBit_bit (s : State) (v : Bit) : (s.setBit v).bit = v := by rfl
@[simp] theorem setBit_blen (s : State) (v : Bit) : (s.setBit v).blen = s.blen := by rfl
@[simp] theorem setBit_pos (s : State) (v : Bit) : (s.setBit v).pos = s.pos := by rfl
@[simp] theorem setBit_cap (s : State) (v : Bit) : (s.setBit v).cap = s.cap := by rfl
@[simp] theorem setBit_key (s : State) (v : Bit) : (s.setBit v).key = s.key := by rfl
@[simp] theorem setBit_status (s : State) (v : Bit) : (s.setBit v).status = s.status := by rfl
@[simp] theorem setBit_progress (s : State) (v : Bit) : (s.setBit v).progress = s.progress := by rfl
@[simp] theorem setBit_pix (s : State) (v : Bit) : (s.setBit v).pix = s.pix := by rfl
@[simp] theorem setBit_msg (s : State) (v : Bit) : (s.setBit v).msg = s.msg := by rfl
@[simp] theorem setBit_pwd (s : State) (v : Bit) : (s.setBit v).pwd = s.pwd := by rfl
@[simp] theorem setBit_bits (s : State) (v : Bit) : (s.setBit v).bits = s.bits := by rfl
@[simp] theorem setBit_inFlight (s : State) (v : Bit) : (s.setBit v).inFlight = s.inFlight := by rfl
@[simp] theorem setBit_agenda (s : State) (v : Bit) : (s.setBit v).agenda = s.agenda := by rfl
@[simp] theorem setBit_hostData (s : State) (v : Bit) : (s.setBit v).hostData = s.hostData := by rfl
@[simp] theorem setBit_powerOn (s : State) (v : Bit) : (s.setBit v).powerOn = s.powerOn := by rfl
@[simp] theorem setBit_draws (s : State) (v : Bit) : (s.setBit v).draws = s.draws := by rfl
@[simp] theorem setBit_pixAt (s : State) (v : Bit) : (s.setBit v).pixAt = s.pixAt := by rfl
@[simp] theorem setBit_msgAt (s : State) (v : Bit) : (s.setBit v).msgAt = s.msgAt := by rfl
@[simp] theorem setBit_pwdAt (s : State) (v : Bit) : (s.setBit v).pwdAt = s.pwdAt := by rfl
@[simp] theorem setBit_bitsAt (s : State) (v : Bit) : (s.setBit v).bitsAt = s.bitsAt := by rfl
@[simp] theorem setBit_busy (s : State) (v : Bit) : (s.setBit v).busy = s.busy := by rfl
@[simp] theorem setBit_done (s : State) (v : Bit) : (s.setBit v).done = s.done := by rfl

/-! ### `setBlen` -/

@[simp] theorem setBlen_w (s : State) (v : Big) : (s.setBlen v).w = s.w := by rfl
@[simp] theorem setBlen_h (s : State) (v : Big) : (s.setBlen v).h = s.h := by rfl
@[simp] theorem setBlen_pixlen (s : State) (v : Big) : (s.setBlen v).pixlen = s.pixlen := by rfl
@[simp] theorem setBlen_mlen (s : State) (v : Big) : (s.setBlen v).mlen = s.mlen := by rfl
@[simp] theorem setBlen_plen (s : State) (v : Big) : (s.setBlen v).plen = s.plen := by rfl
@[simp] theorem setBlen_idx (s : State) (v : Big) : (s.setBlen v).idx = s.idx := by rfl
@[simp] theorem setBlen_bit (s : State) (v : Big) : (s.setBlen v).bit = s.bit := by rfl
@[simp] theorem setBlen_blen (s : State) (v : Big) : (s.setBlen v).blen = v := by rfl
@[simp] theorem setBlen_pos (s : State) (v : Big) : (s.setBlen v).pos = s.pos := by rfl
@[simp] theorem setBlen_cap (s : State) (v : Big) : (s.setBlen v).cap = s.cap := by rfl
@[simp] theorem setBlen_key (s : State) (v : Big) : (s.setBlen v).key = s.key := by rfl
@[simp] theorem setBlen_status (s : State) (v : Big) : (s.setBlen v).status = s.status := by rfl
@[simp] theorem setBlen_progress (s : State) (v : Big) : (s.setBlen v).progress = s.progress := by rfl
@[simp] theorem setBlen_pix (s : State) (v : Big) : (s.setBlen v).pix = s.pix := by rfl
@[simp] theorem setBlen_msg (s : State) (v : Big) : (s.setBlen v).msg = s.msg := by rfl
@[simp] theorem setBlen_pwd (s : State) (v : Big) : (s.setBlen v).pwd = s.pwd := by rfl
@[simp] theorem setBlen_bits (s : State) (v : Big) : (s.setBlen v).bits = s.bits := by rfl
@[simp] theorem setBlen_inFlight (s : State) (v : Big) : (s.setBlen v).inFlight = s.inFlight := by rfl
@[simp] theorem setBlen_agenda (s : State) (v : Big) : (s.setBlen v).agenda = s.agenda := by rfl
@[simp] theorem setBlen_hostData (s : State) (v : Big) : (s.setBlen v).hostData = s.hostData := by rfl
@[simp] theorem setBlen_powerOn (s : State) (v : Big) : (s.setBlen v).powerOn = s.powerOn := by rfl
@[simp] theorem setBlen_draws (s : State) (v : Big) : (s.setBlen v).draws = s.draws := by rfl
@[simp] theorem setBlen_pixAt (s : State) (v : Big) : (s.setBlen v).pixAt = s.pixAt := by rfl
@[simp] theorem setBlen_msgAt (s : State) (v : Big) : (s.setBlen v).msgAt = s.msgAt := by rfl
@[simp] theorem setBlen_pwdAt (s : State) (v : Big) : (s.setBlen v).pwdAt = s.pwdAt := by rfl
@[simp] theorem setBlen_bitsAt (s : State) (v : Big) : (s.setBlen v).bitsAt = s.bitsAt := by rfl
@[simp] theorem setBlen_busy (s : State) (v : Big) : (s.setBlen v).busy = s.busy := by rfl
@[simp] theorem setBlen_done (s : State) (v : Big) : (s.setBlen v).done = s.done := by rfl

/-! ### `setPos` -/

@[simp] theorem setPos_w (s : State) (v : Big) : (s.setPos v).w = s.w := by rfl
@[simp] theorem setPos_h (s : State) (v : Big) : (s.setPos v).h = s.h := by rfl
@[simp] theorem setPos_pixlen (s : State) (v : Big) : (s.setPos v).pixlen = s.pixlen := by rfl
@[simp] theorem setPos_mlen (s : State) (v : Big) : (s.setPos v).mlen = s.mlen := by rfl
@[simp] theorem setPos_plen (s : State) (v : Big) : (s.setPos v).plen = s.plen := by rfl
@[simp] theorem setPos_idx (s : State) (v : Big) : (s.setPos v).idx = s.idx := by rfl
@[simp] theorem setPos_bit (s : State) (v : Big) : (s.setPos v).bit = s.bit := by rfl
@[simp] theorem setPos_blen (s : State) (v : Big) : (s.setPos v).blen = s.blen := by rfl
@[simp] theorem setPos_pos (s : State) (v : Big) : (s.setPos v).pos = v := by rfl
@[simp] theorem setPos_cap (s : State) (v : Big) : (s.setPos v).cap = s.cap := by rfl
@[simp] theorem setPos_key (s : State) (v : Big) : (s.setPos v).key = s.key := by rfl
@[simp] theorem setPos_status (s : State) (v : Big) : (s.setPos v).status = s.status := by rfl
@[simp] theorem setPos_progress (s : State) (v : Big) : (s.setPos v).progress = s.progress := by rfl
@[simp] theorem setPos_pix (s : State) (v : Big) : (s.setPos v).pix = s.pix := by rfl
@[simp] theorem setPos_msg (s : State) (v : Big) : (s.setPos v).msg = s.msg := by rfl
@[simp] theorem setPos_pwd (s : State) (v : Big) : (s.setPos v).pwd = s.pwd := by rfl
@[simp] theorem setPos_bits (s : State) (v : Big) : (s.setPos v).bits = s.bits := by rfl
@[simp] theorem setPos_inFlight (s : State) (v : Big) : (s.setPos v).inFlight = s.inFlight := by rfl
@[simp] theorem setPos_agenda (s : State) (v : Big) : (s.setPos v).agenda = s.agenda := by rfl
@[simp] theorem setPos_hostData (s : State) (v : Big) : (s.setPos v).hostData = s.hostData := by rfl
@[simp] theorem setPos_powerOn (s : State) (v : Big) : (s.setPos v).powerOn = s.powerOn := by rfl
@[simp] theorem setPos_draws (s : State) (v : Big) : (s.setPos v).draws = s.draws := by rfl
@[simp] theorem setPos_pixAt (s : State) (v : Big) : (s.setPos v).pixAt = s.pixAt := by rfl
@[simp] theorem setPos_msgAt (s : State) (v : Big) : (s.setPos v).msgAt = s.msgAt := by rfl
@[simp] theorem setPos_pwdAt (s : State) (v : Big) : (s.setPos v).pwdAt = s.pwdAt := by rfl
@[simp] theorem setPos_bitsAt (s : State) (v : Big) : (s.setPos v).bitsAt = s.bitsAt := by rfl
@[simp] theorem setPos_busy (s : State) (v : Big) : (s.setPos v).busy = s.busy := by rfl
@[simp] theorem setPos_done (s : State) (v : Big) : (s.setPos v).done = s.done := by rfl

/-! ### `setCap` -/

@[simp] theorem setCap_w (s : State) (v : Len) : (s.setCap v).w = s.w := by rfl
@[simp] theorem setCap_h (s : State) (v : Len) : (s.setCap v).h = s.h := by rfl
@[simp] theorem setCap_pixlen (s : State) (v : Len) : (s.setCap v).pixlen = s.pixlen := by rfl
@[simp] theorem setCap_mlen (s : State) (v : Len) : (s.setCap v).mlen = s.mlen := by rfl
@[simp] theorem setCap_plen (s : State) (v : Len) : (s.setCap v).plen = s.plen := by rfl
@[simp] theorem setCap_idx (s : State) (v : Len) : (s.setCap v).idx = s.idx := by rfl
@[simp] theorem setCap_bit (s : State) (v : Len) : (s.setCap v).bit = s.bit := by rfl
@[simp] theorem setCap_blen (s : State) (v : Len) : (s.setCap v).blen = s.blen := by rfl
@[simp] theorem setCap_pos (s : State) (v : Len) : (s.setCap v).pos = s.pos := by rfl
@[simp] theorem setCap_cap (s : State) (v : Len) : (s.setCap v).cap = v := by rfl
@[simp] theorem setCap_key (s : State) (v : Len) : (s.setCap v).key = s.key := by rfl
@[simp] theorem setCap_status (s : State) (v : Len) : (s.setCap v).status = s.status := by rfl
@[simp] theorem setCap_progress (s : State) (v : Len) : (s.setCap v).progress = s.progress := by rfl
@[simp] theorem setCap_pix (s : State) (v : Len) : (s.setCap v).pix = s.pix := by rfl
@[simp] theorem setCap_msg (s : State) (v : Len) : (s.setCap v).msg = s.msg := by rfl
@[simp] theorem setCap_pwd (s : State) (v : Len) : (s.setCap v).pwd = s.pwd := by rfl
@[simp] theorem setCap_bits (s : State) (v : Len) : (s.setCap v).bits = s.bits := by rfl
@[simp] theorem setCap_inFlight (s : State) (v : Len) : (s.setCap v).inFlight = s.inFlight := by rfl
@[simp] theorem setCap_agenda (s : State) (v : Len) : (s.setCap v).agenda = s.agenda := by rfl
@[simp] theorem setCap_hostData (s : State) (v : Len) : (s.setCap v).hostData = s.hostData := by rfl
@[simp] theorem setCap_powerOn (s : State) (v : Len) : (s.setCap v).powerOn = s.powerOn := by rfl
@[simp] theorem setCap_draws (s : State) (v : Len) : (s.setCap v).draws = s.draws := by rfl
@[simp] theorem setCap_pixAt (s : State) (v : Len) : (s.setCap v).pixAt = s.pixAt := by rfl
@[simp] theorem setCap_msgAt (s : State) (v : Len) : (s.setCap v).msgAt = s.msgAt := by rfl
@[simp] theorem setCap_pwdAt (s : State) (v : Len) : (s.setCap v).pwdAt = s.pwdAt := by rfl
@[simp] theorem setCap_bitsAt (s : State) (v : Len) : (s.setCap v).bitsAt = s.bitsAt := by rfl
@[simp] theorem setCap_busy (s : State) (v : Len) : (s.setCap v).busy = s.busy := by rfl
@[simp] theorem setCap_done (s : State) (v : Len) : (s.setCap v).done = s.done := by rfl

/-! ### `setKey` -/

@[simp] theorem setKey_w (s : State) (v : Len) : (s.setKey v).w = s.w := by rfl
@[simp] theorem setKey_h (s : State) (v : Len) : (s.setKey v).h = s.h := by rfl
@[simp] theorem setKey_pixlen (s : State) (v : Len) : (s.setKey v).pixlen = s.pixlen := by rfl
@[simp] theorem setKey_mlen (s : State) (v : Len) : (s.setKey v).mlen = s.mlen := by rfl
@[simp] theorem setKey_plen (s : State) (v : Len) : (s.setKey v).plen = s.plen := by rfl
@[simp] theorem setKey_idx (s : State) (v : Len) : (s.setKey v).idx = s.idx := by rfl
@[simp] theorem setKey_bit (s : State) (v : Len) : (s.setKey v).bit = s.bit := by rfl
@[simp] theorem setKey_blen (s : State) (v : Len) : (s.setKey v).blen = s.blen := by rfl
@[simp] theorem setKey_pos (s : State) (v : Len) : (s.setKey v).pos = s.pos := by rfl
@[simp] theorem setKey_cap (s : State) (v : Len) : (s.setKey v).cap = s.cap := by rfl
@[simp] theorem setKey_key (s : State) (v : Len) : (s.setKey v).key = v := by rfl
@[simp] theorem setKey_status (s : State) (v : Len) : (s.setKey v).status = s.status := by rfl
@[simp] theorem setKey_progress (s : State) (v : Len) : (s.setKey v).progress = s.progress := by rfl
@[simp] theorem setKey_pix (s : State) (v : Len) : (s.setKey v).pix = s.pix := by rfl
@[simp] theorem setKey_msg (s : State) (v : Len) : (s.setKey v).msg = s.msg := by rfl
@[simp] theorem setKey_pwd (s : State) (v : Len) : (s.setKey v).pwd = s.pwd := by rfl
@[simp] theorem setKey_bits (s : State) (v : Len) : (s.setKey v).bits = s.bits := by rfl
@[simp] theorem setKey_inFlight (s : State) (v : Len) : (s.setKey v).inFlight = s.inFlight := by rfl
@[simp] theorem setKey_agenda (s : State) (v : Len) : (s.setKey v).agenda = s.agenda := by rfl
@[simp] theorem setKey_hostData (s : State) (v : Len) : (s.setKey v).hostData = s.hostData := by rfl
@[simp] theorem setKey_powerOn (s : State) (v : Len) : (s.setKey v).powerOn = s.powerOn := by rfl
@[simp] theorem setKey_draws (s : State) (v : Len) : (s.setKey v).draws = s.draws := by rfl
@[simp] theorem setKey_pixAt (s : State) (v : Len) : (s.setKey v).pixAt = s.pixAt := by rfl
@[simp] theorem setKey_msgAt (s : State) (v : Len) : (s.setKey v).msgAt = s.msgAt := by rfl
@[simp] theorem setKey_pwdAt (s : State) (v : Len) : (s.setKey v).pwdAt = s.pwdAt := by rfl
@[simp] theorem setKey_bitsAt (s : State) (v : Len) : (s.setKey v).bitsAt = s.bitsAt := by rfl
@[simp] theorem setKey_busy (s : State) (v : Len) : (s.setKey v).busy = s.busy := by rfl
@[simp] theorem setKey_done (s : State) (v : Len) : (s.setKey v).done = s.done := by rfl

/-! ### `setAgenda` -/

@[simp] theorem setAgenda_w (s : State) (v : List Turn) : (s.setAgenda v).w = s.w := by rfl
@[simp] theorem setAgenda_h (s : State) (v : List Turn) : (s.setAgenda v).h = s.h := by rfl
@[simp] theorem setAgenda_pixlen (s : State) (v : List Turn) : (s.setAgenda v).pixlen = s.pixlen := by rfl
@[simp] theorem setAgenda_mlen (s : State) (v : List Turn) : (s.setAgenda v).mlen = s.mlen := by rfl
@[simp] theorem setAgenda_plen (s : State) (v : List Turn) : (s.setAgenda v).plen = s.plen := by rfl
@[simp] theorem setAgenda_idx (s : State) (v : List Turn) : (s.setAgenda v).idx = s.idx := by rfl
@[simp] theorem setAgenda_bit (s : State) (v : List Turn) : (s.setAgenda v).bit = s.bit := by rfl
@[simp] theorem setAgenda_blen (s : State) (v : List Turn) : (s.setAgenda v).blen = s.blen := by rfl
@[simp] theorem setAgenda_pos (s : State) (v : List Turn) : (s.setAgenda v).pos = s.pos := by rfl
@[simp] theorem setAgenda_cap (s : State) (v : List Turn) : (s.setAgenda v).cap = s.cap := by rfl
@[simp] theorem setAgenda_key (s : State) (v : List Turn) : (s.setAgenda v).key = s.key := by rfl
@[simp] theorem setAgenda_status (s : State) (v : List Turn) : (s.setAgenda v).status = s.status := by rfl
@[simp] theorem setAgenda_progress (s : State) (v : List Turn) : (s.setAgenda v).progress = s.progress := by rfl
@[simp] theorem setAgenda_pix (s : State) (v : List Turn) : (s.setAgenda v).pix = s.pix := by rfl
@[simp] theorem setAgenda_msg (s : State) (v : List Turn) : (s.setAgenda v).msg = s.msg := by rfl
@[simp] theorem setAgenda_pwd (s : State) (v : List Turn) : (s.setAgenda v).pwd = s.pwd := by rfl
@[simp] theorem setAgenda_bits (s : State) (v : List Turn) : (s.setAgenda v).bits = s.bits := by rfl
@[simp] theorem setAgenda_inFlight (s : State) (v : List Turn) : (s.setAgenda v).inFlight = s.inFlight := by rfl
@[simp] theorem setAgenda_agenda (s : State) (v : List Turn) : (s.setAgenda v).agenda = v := by rfl
@[simp] theorem setAgenda_hostData (s : State) (v : List Turn) : (s.setAgenda v).hostData = s.hostData := by rfl
@[simp] theorem setAgenda_powerOn (s : State) (v : List Turn) : (s.setAgenda v).powerOn = s.powerOn := by rfl
@[simp] theorem setAgenda_draws (s : State) (v : List Turn) : (s.setAgenda v).draws = s.draws := by rfl
@[simp] theorem setAgenda_pixAt (s : State) (v : List Turn) : (s.setAgenda v).pixAt = s.pixAt := by rfl
@[simp] theorem setAgenda_msgAt (s : State) (v : List Turn) : (s.setAgenda v).msgAt = s.msgAt := by rfl
@[simp] theorem setAgenda_pwdAt (s : State) (v : List Turn) : (s.setAgenda v).pwdAt = s.pwdAt := by rfl
@[simp] theorem setAgenda_bitsAt (s : State) (v : List Turn) : (s.setAgenda v).bitsAt = s.bitsAt := by rfl
@[simp] theorem setAgenda_busy (s : State) (v : List Turn) : (s.setAgenda v).busy = s.busy := by rfl
@[simp] theorem setAgenda_done (s : State) (v : List Turn) : (s.setAgenda v).done = s.done := by rfl

/-! ### `setHostData` -/

@[simp] theorem setHostData_w (s : State) (v : Nat) : (s.setHostData v).w = s.w := by rfl
@[simp] theorem setHostData_h (s : State) (v : Nat) : (s.setHostData v).h = s.h := by rfl
@[simp] theorem setHostData_pixlen (s : State) (v : Nat) : (s.setHostData v).pixlen = s.pixlen := by rfl
@[simp] theorem setHostData_mlen (s : State) (v : Nat) : (s.setHostData v).mlen = s.mlen := by rfl
@[simp] theorem setHostData_plen (s : State) (v : Nat) : (s.setHostData v).plen = s.plen := by rfl
@[simp] theorem setHostData_idx (s : State) (v : Nat) : (s.setHostData v).idx = s.idx := by rfl
@[simp] theorem setHostData_bit (s : State) (v : Nat) : (s.setHostData v).bit = s.bit := by rfl
@[simp] theorem setHostData_blen (s : State) (v : Nat) : (s.setHostData v).blen = s.blen := by rfl
@[simp] theorem setHostData_pos (s : State) (v : Nat) : (s.setHostData v).pos = s.pos := by rfl
@[simp] theorem setHostData_cap (s : State) (v : Nat) : (s.setHostData v).cap = s.cap := by rfl
@[simp] theorem setHostData_key (s : State) (v : Nat) : (s.setHostData v).key = s.key := by rfl
@[simp] theorem setHostData_status (s : State) (v : Nat) : (s.setHostData v).status = s.status := by rfl
@[simp] theorem setHostData_progress (s : State) (v : Nat) : (s.setHostData v).progress = s.progress := by rfl
@[simp] theorem setHostData_pix (s : State) (v : Nat) : (s.setHostData v).pix = s.pix := by rfl
@[simp] theorem setHostData_msg (s : State) (v : Nat) : (s.setHostData v).msg = s.msg := by rfl
@[simp] theorem setHostData_pwd (s : State) (v : Nat) : (s.setHostData v).pwd = s.pwd := by rfl
@[simp] theorem setHostData_bits (s : State) (v : Nat) : (s.setHostData v).bits = s.bits := by rfl
@[simp] theorem setHostData_inFlight (s : State) (v : Nat) : (s.setHostData v).inFlight = s.inFlight := by rfl
@[simp] theorem setHostData_agenda (s : State) (v : Nat) : (s.setHostData v).agenda = s.agenda := by rfl
@[simp] theorem setHostData_hostData (s : State) (v : Nat) : (s.setHostData v).hostData = v := by rfl
@[simp] theorem setHostData_powerOn (s : State) (v : Nat) : (s.setHostData v).powerOn = s.powerOn := by rfl
@[simp] theorem setHostData_draws (s : State) (v : Nat) : (s.setHostData v).draws = s.draws := by rfl
@[simp] theorem setHostData_pixAt (s : State) (v : Nat) : (s.setHostData v).pixAt = s.pixAt := by rfl
@[simp] theorem setHostData_msgAt (s : State) (v : Nat) : (s.setHostData v).msgAt = s.msgAt := by rfl
@[simp] theorem setHostData_pwdAt (s : State) (v : Nat) : (s.setHostData v).pwdAt = s.pwdAt := by rfl
@[simp] theorem setHostData_bitsAt (s : State) (v : Nat) : (s.setHostData v).bitsAt = s.bitsAt := by rfl
@[simp] theorem setHostData_busy (s : State) (v : Nat) : (s.setHostData v).busy = s.busy := by rfl
@[simp] theorem setHostData_done (s : State) (v : Nat) : (s.setHostData v).done = s.done := by rfl

/-! ### `writePix` -/

@[simp] theorem writePix_w (s : State) (a : Nat) (v : Byte) : (s.writePix a v).w = s.w := by rfl
@[simp] theorem writePix_h (s : State) (a : Nat) (v : Byte) : (s.writePix a v).h = s.h := by rfl
@[simp] theorem writePix_pixlen (s : State) (a : Nat) (v : Byte) : (s.writePix a v).pixlen = s.pixlen := by rfl
@[simp] theorem writePix_mlen (s : State) (a : Nat) (v : Byte) : (s.writePix a v).mlen = s.mlen := by rfl
@[simp] theorem writePix_plen (s : State) (a : Nat) (v : Byte) : (s.writePix a v).plen = s.plen := by rfl
@[simp] theorem writePix_idx (s : State) (a : Nat) (v : Byte) : (s.writePix a v).idx = s.idx := by rfl
@[simp] theorem writePix_bit (s : State) (a : Nat) (v : Byte) : (s.writePix a v).bit = s.bit := by rfl
@[simp] theorem writePix_blen (s : State) (a : Nat) (v : Byte) : (s.writePix a v).blen = s.blen := by rfl
@[simp] theorem writePix_pos (s : State) (a : Nat) (v : Byte) : (s.writePix a v).pos = s.pos := by rfl
@[simp] theorem writePix_cap (s : State) (a : Nat) (v : Byte) : (s.writePix a v).cap = s.cap := by rfl
@[simp] theorem writePix_key (s : State) (a : Nat) (v : Byte) : (s.writePix a v).key = s.key := by rfl
@[simp] theorem writePix_status (s : State) (a : Nat) (v : Byte) : (s.writePix a v).status = s.status := by rfl
@[simp] theorem writePix_progress (s : State) (a : Nat) (v : Byte) : (s.writePix a v).progress = s.progress := by rfl
@[simp] theorem writePix_pix (s : State) (a : Nat) (v : Byte) : (s.writePix a v).pix = memWrite s.pix a v := by rfl
@[simp] theorem writePix_msg (s : State) (a : Nat) (v : Byte) : (s.writePix a v).msg = s.msg := by rfl
@[simp] theorem writePix_pwd (s : State) (a : Nat) (v : Byte) : (s.writePix a v).pwd = s.pwd := by rfl
@[simp] theorem writePix_bits (s : State) (a : Nat) (v : Byte) : (s.writePix a v).bits = s.bits := by rfl
@[simp] theorem writePix_inFlight (s : State) (a : Nat) (v : Byte) : (s.writePix a v).inFlight = s.inFlight := by rfl
@[simp] theorem writePix_agenda (s : State) (a : Nat) (v : Byte) : (s.writePix a v).agenda = s.agenda := by rfl
@[simp] theorem writePix_hostData (s : State) (a : Nat) (v : Byte) : (s.writePix a v).hostData = s.hostData := by rfl
@[simp] theorem writePix_powerOn (s : State) (a : Nat) (v : Byte) : (s.writePix a v).powerOn = s.powerOn := by rfl
@[simp] theorem writePix_draws (s : State) (a : Nat) (v : Byte) : (s.writePix a v).draws = s.draws := by rfl
@[simp] theorem writePix_msgAt (s : State) (a : Nat) (v : Byte) : (s.writePix a v).msgAt = s.msgAt := by rfl
@[simp] theorem writePix_pwdAt (s : State) (a : Nat) (v : Byte) : (s.writePix a v).pwdAt = s.pwdAt := by rfl
@[simp] theorem writePix_bitsAt (s : State) (a : Nat) (v : Byte) : (s.writePix a v).bitsAt = s.bitsAt := by rfl
@[simp] theorem writePix_busy (s : State) (a : Nat) (v : Byte) : (s.writePix a v).busy = s.busy := by rfl
@[simp] theorem writePix_done (s : State) (a : Nat) (v : Byte) : (s.writePix a v).done = s.done := by rfl

/-! ### `writeBit` -/

@[simp] theorem writeBit_w (s : State) (a : Nat) (v : Bit) : (s.writeBit a v).w = s.w := by rfl
@[simp] theorem writeBit_h (s : State) (a : Nat) (v : Bit) : (s.writeBit a v).h = s.h := by rfl
@[simp] theorem writeBit_pixlen (s : State) (a : Nat) (v : Bit) : (s.writeBit a v).pixlen = s.pixlen := by rfl
@[simp] theorem writeBit_mlen (s : State) (a : Nat) (v : Bit) : (s.writeBit a v).mlen = s.mlen := by rfl
@[simp] theorem writeBit_plen (s : State) (a : Nat) (v : Bit) : (s.writeBit a v).plen = s.plen := by rfl
@[simp] theorem writeBit_idx (s : State) (a : Nat) (v : Bit) : (s.writeBit a v).idx = s.idx := by rfl
@[simp] theorem writeBit_bit (s : State) (a : Nat) (v : Bit) : (s.writeBit a v).bit = s.bit := by rfl
@[simp] theorem writeBit_blen (s : State) (a : Nat) (v : Bit) : (s.writeBit a v).blen = s.blen := by rfl
@[simp] theorem writeBit_pos (s : State) (a : Nat) (v : Bit) : (s.writeBit a v).pos = s.pos := by rfl
@[simp] theorem writeBit_cap (s : State) (a : Nat) (v : Bit) : (s.writeBit a v).cap = s.cap := by rfl
@[simp] theorem writeBit_key (s : State) (a : Nat) (v : Bit) : (s.writeBit a v).key = s.key := by rfl
@[simp] theorem writeBit_status (s : State) (a : Nat) (v : Bit) : (s.writeBit a v).status = s.status := by rfl
@[simp] theorem writeBit_progress (s : State) (a : Nat) (v : Bit) : (s.writeBit a v).progress = s.progress := by rfl
@[simp] theorem writeBit_pix (s : State) (a : Nat) (v : Bit) : (s.writeBit a v).pix = memWrite s.pix a (wbit (s.pixAt a) v) := by rfl
@[simp] theorem writeBit_msg (s : State) (a : Nat) (v : Bit) : (s.writeBit a v).msg = s.msg := by rfl
@[simp] theorem writeBit_pwd (s : State) (a : Nat) (v : Bit) : (s.writeBit a v).pwd = s.pwd := by rfl
@[simp] theorem writeBit_bits (s : State) (a : Nat) (v : Bit) : (s.writeBit a v).bits = s.bits := by rfl
@[simp] theorem writeBit_inFlight (s : State) (a : Nat) (v : Bit) : (s.writeBit a v).inFlight = s.inFlight := by rfl
@[simp] theorem writeBit_agenda (s : State) (a : Nat) (v : Bit) : (s.writeBit a v).agenda = s.agenda := by rfl
@[simp] theorem writeBit_hostData (s : State) (a : Nat) (v : Bit) : (s.writeBit a v).hostData = s.hostData := by rfl
@[simp] theorem writeBit_powerOn (s : State) (a : Nat) (v : Bit) : (s.writeBit a v).powerOn = s.powerOn := by rfl
@[simp] theorem writeBit_draws (s : State) (a : Nat) (v : Bit) : (s.writeBit a v).draws = s.draws := by rfl
@[simp] theorem writeBit_msgAt (s : State) (a : Nat) (v : Bit) : (s.writeBit a v).msgAt = s.msgAt := by rfl
@[simp] theorem writeBit_pwdAt (s : State) (a : Nat) (v : Bit) : (s.writeBit a v).pwdAt = s.pwdAt := by rfl
@[simp] theorem writeBit_bitsAt (s : State) (a : Nat) (v : Bit) : (s.writeBit a v).bitsAt = s.bitsAt := by rfl
@[simp] theorem writeBit_busy (s : State) (a : Nat) (v : Bit) : (s.writeBit a v).busy = s.busy := by rfl
@[simp] theorem writeBit_done (s : State) (a : Nat) (v : Bit) : (s.writeBit a v).done = s.done := by rfl

/-! ### `writeMsg` -/

@[simp] theorem writeMsg_w (s : State) (a : Nat) (v : List Byte) : (s.writeMsg a v).w = s.w := by rfl
@[simp] theorem writeMsg_h (s : State) (a : Nat) (v : List Byte) : (s.writeMsg a v).h = s.h := by rfl
@[simp] theorem writeMsg_pixlen (s : State) (a : Nat) (v : List Byte) : (s.writeMsg a v).pixlen = s.pixlen := by rfl
@[simp] theorem writeMsg_mlen (s : State) (a : Nat) (v : List Byte) : (s.writeMsg a v).mlen = s.mlen := by rfl
@[simp] theorem writeMsg_plen (s : State) (a : Nat) (v : List Byte) : (s.writeMsg a v).plen = s.plen := by rfl
@[simp] theorem writeMsg_idx (s : State) (a : Nat) (v : List Byte) : (s.writeMsg a v).idx = s.idx := by rfl
@[simp] theorem writeMsg_bit (s : State) (a : Nat) (v : List Byte) : (s.writeMsg a v).bit = s.bit := by rfl
@[simp] theorem writeMsg_blen (s : State) (a : Nat) (v : List Byte) : (s.writeMsg a v).blen = s.blen := by rfl
@[simp] theorem writeMsg_pos (s : State) (a : Nat) (v : List Byte) : (s.writeMsg a v).pos = s.pos := by rfl
@[simp] theorem writeMsg_cap (s : State) (a : Nat) (v : List Byte) : (s.writeMsg a v).cap = s.cap := by rfl
@[simp] theorem writeMsg_key (s : State) (a : Nat) (v : List Byte) : (s.writeMsg a v).key = s.key := by rfl
@[simp] theorem writeMsg_status (s : State) (a : Nat) (v : List Byte) : (s.writeMsg a v).status = s.status := by rfl
@[simp] theorem writeMsg_progress (s : State) (a : Nat) (v : List Byte) : (s.writeMsg a v).progress = s.progress := by rfl
@[simp] theorem writeMsg_pix (s : State) (a : Nat) (v : List Byte) : (s.writeMsg a v).pix = s.pix := by rfl
@[simp] theorem writeMsg_msg (s : State) (a : Nat) (v : List Byte) : (s.writeMsg a v).msg = memWriteSeq s.msg a v := by rfl
@[simp] theorem writeMsg_pwd (s : State) (a : Nat) (v : List Byte) : (s.writeMsg a v).pwd = s.pwd := by rfl
@[simp] theorem writeMsg_bits (s : State) (a : Nat) (v : List Byte) : (s.writeMsg a v).bits = s.bits := by rfl
@[simp] theorem writeMsg_inFlight (s : State) (a : Nat) (v : List Byte) : (s.writeMsg a v).inFlight = s.inFlight := by rfl
@[simp] theorem writeMsg_agenda (s : State) (a : Nat) (v : List Byte) : (s.writeMsg a v).agenda = s.agenda := by rfl
@[simp] theorem writeMsg_hostData (s : State) (a : Nat) (v : List Byte) : (s.writeMsg a v).hostData = s.hostData := by rfl
@[simp] theorem writeMsg_powerOn (s : State) (a : Nat) (v : List Byte) : (s.writeMsg a v).powerOn = s.powerOn := by rfl
@[simp] theorem writeMsg_draws (s : State) (a : Nat) (v : List Byte) : (s.writeMsg a v).draws = s.draws := by rfl
@[simp] theorem writeMsg_pixAt (s : State) (a : Nat) (v : List Byte) : (s.writeMsg a v).pixAt = s.pixAt := by rfl
@[simp] theorem writeMsg_pwdAt (s : State) (a : Nat) (v : List Byte) : (s.writeMsg a v).pwdAt = s.pwdAt := by rfl
@[simp] theorem writeMsg_bitsAt (s : State) (a : Nat) (v : List Byte) : (s.writeMsg a v).bitsAt = s.bitsAt := by rfl
@[simp] theorem writeMsg_busy (s : State) (a : Nat) (v : List Byte) : (s.writeMsg a v).busy = s.busy := by rfl
@[simp] theorem writeMsg_done (s : State) (a : Nat) (v : List Byte) : (s.writeMsg a v).done = s.done := by rfl

/-! ### `writePwd` -/

@[simp] theorem writePwd_w (s : State) (a : Nat) (v : CharCode) : (s.writePwd a v).w = s.w := by rfl
@[simp] theorem writePwd_h (s : State) (a : Nat) (v : CharCode) : (s.writePwd a v).h = s.h := by rfl
@[simp] theorem writePwd_pixlen (s : State) (a : Nat) (v : CharCode) : (s.writePwd a v).pixlen = s.pixlen := by rfl
@[simp] theorem writePwd_mlen (s : State) (a : Nat) (v : CharCode) : (s.writePwd a v).mlen = s.mlen := by rfl
@[simp] theorem writePwd_plen (s : State) (a : Nat) (v : CharCode) : (s.writePwd a v).plen = s.plen := by rfl
@[simp] theorem writePwd_idx (s : State) (a : Nat) (v : CharCode) : (s.writePwd a v).idx = s.idx := by rfl
@[simp] theorem writePwd_bit (s : State) (a : Nat) (v : CharCode) : (s.writePwd a v).bit = s.bit := by rfl
@[simp] theorem writePwd_blen (s : State) (a : Nat) (v : CharCode) : (s.writePwd a v).blen = s.blen := by rfl
@[simp] theorem writePwd_pos (s : State) (a : Nat) (v : CharCode) : (s.writePwd a v).pos = s.pos := by rfl
@[simp] theorem writePwd_cap (s : State) (a : Nat) (v : CharCode) : (s.writePwd a v).cap = s.cap := by rfl
@[simp] theorem writePwd_key (s : State) (a : Nat) (v : CharCode) : (s.writePwd a v).key = s.key := by rfl
@[simp] theorem writePwd_status (s : State) (a : Nat) (v : CharCode) : (s.writePwd a v).status = s.status := by rfl
@[simp] theorem writePwd_progress (s : State) (a : Nat) (v : CharCode) : (s.writePwd a v).progress = s.progress := by rfl
@[simp] theorem writePwd_pix (s : State) (a : Nat) (v : CharCode) : (s.writePwd a v).pix = s.pix := by rfl
@[simp] theorem writePwd_msg (s : State) (a : Nat) (v : CharCode) : (s.writePwd a v).msg = s.msg := by rfl
@[simp] theorem writePwd_pwd (s : State) (a : Nat) (v : CharCode) : (s.writePwd a v).pwd = memWrite s.pwd a v := by rfl
@[simp] theorem writePwd_bits (s : State) (a : Nat) (v : CharCode) : (s.writePwd a v).bits = s.bits := by rfl
@[simp] theorem writePwd_inFlight (s : State) (a : Nat) (v : CharCode) : (s.writePwd a v).inFlight = s.inFlight := by rfl
@[simp] theorem writePwd_agenda (s : State) (a : Nat) (v : CharCode) : (s.writePwd a v).agenda = s.agenda := by rfl
@[simp] theorem writePwd_hostData (s : State) (a : Nat) (v : CharCode) : (s.writePwd a v).hostData = s.hostData := by rfl
@[simp] theorem writePwd_powerOn (s : State) (a : Nat) (v : CharCode) : (s.writePwd a v).powerOn = s.powerOn := by rfl
@[simp] theorem writePwd_draws (s : State) (a : Nat) (v : CharCode) : (s.writePwd a v).draws = s.draws := by rfl
@[simp] theorem writePwd_pixAt (s : State) (a : Nat) (v : CharCode) : (s.writePwd a v).pixAt = s.pixAt := by rfl
@[simp] theorem writePwd_msgAt (s : State) (a : Nat) (v : CharCode) : (s.writePwd a v).msgAt = s.msgAt := by rfl
@[simp] theorem writePwd_bitsAt (s : State) (a : Nat) (v : CharCode) : (s.writePwd a v).bitsAt = s.bitsAt := by rfl
@[simp] theorem writePwd_busy (s : State) (a : Nat) (v : CharCode) : (s.writePwd a v).busy = s.busy := by rfl
@[simp] theorem writePwd_done (s : State) (a : Nat) (v : CharCode) : (s.writePwd a v).done = s.done := by rfl

/-! ### `writeBits` -/

@[simp] theorem writeBits_w (s : State) (a : Nat) (v : List Bit) : (s.writeBits a v).w = s.w := by rfl
@[simp] theorem writeBits_h (s : State) (a : Nat) (v : List Bit) : (s.writeBits a v).h = s.h := by rfl
@[simp] theorem writeBits_pixlen (s : State) (a : Nat) (v : List Bit) : (s.writeBits a v).pixlen = s.pixlen := by rfl
@[simp] theorem writeBits_mlen (s : State) (a : Nat) (v : List Bit) : (s.writeBits a v).mlen = s.mlen := by rfl
@[simp] theorem writeBits_plen (s : State) (a : Nat) (v : List Bit) : (s.writeBits a v).plen = s.plen := by rfl
@[simp] theorem writeBits_idx (s : State) (a : Nat) (v : List Bit) : (s.writeBits a v).idx = s.idx := by rfl
@[simp] theorem writeBits_bit (s : State) (a : Nat) (v : List Bit) : (s.writeBits a v).bit = s.bit := by rfl
@[simp] theorem writeBits_blen (s : State) (a : Nat) (v : List Bit) : (s.writeBits a v).blen = s.blen := by rfl
@[simp] theorem writeBits_pos (s : State) (a : Nat) (v : List Bit) : (s.writeBits a v).pos = s.pos := by rfl
@[simp] theorem writeBits_cap (s : State) (a : Nat) (v : List Bit) : (s.writeBits a v).cap = s.cap := by rfl
@[simp] theorem writeBits_key (s : State) (a : Nat) (v : List Bit) : (s.writeBits a v).key = s.key := by rfl
@[simp] theorem writeBits_status (s : State) (a : Nat) (v : List Bit) : (s.writeBits a v).status = s.status := by rfl
@[simp] theorem writeBits_progress (s : State) (a : Nat) (v : List Bit) : (s.writeBits a v).progress = s.progress := by rfl
@[simp] theorem writeBits_pix (s : State) (a : Nat) (v : List Bit) : (s.writeBits a v).pix = s.pix := by rfl
@[simp] theorem writeBits_msg (s : State) (a : Nat) (v : List Bit) : (s.writeBits a v).msg = s.msg := by rfl
@[simp] theorem writeBits_pwd (s : State) (a : Nat) (v : List Bit) : (s.writeBits a v).pwd = s.pwd := by rfl
@[simp] theorem writeBits_bits (s : State) (a : Nat) (v : List Bit) : (s.writeBits a v).bits = memWriteSeq s.bits a v := by rfl
@[simp] theorem writeBits_inFlight (s : State) (a : Nat) (v : List Bit) : (s.writeBits a v).inFlight = s.inFlight := by rfl
@[simp] theorem writeBits_agenda (s : State) (a : Nat) (v : List Bit) : (s.writeBits a v).agenda = s.agenda := by rfl
@[simp] theorem writeBits_hostData (s : State) (a : Nat) (v : List Bit) : (s.writeBits a v).hostData = s.hostData := by rfl
@[simp] theorem writeBits_powerOn (s : State) (a : Nat) (v : List Bit) : (s.writeBits a v).powerOn = s.powerOn := by rfl
@[simp] theorem writeBits_draws (s : State) (a : Nat) (v : List Bit) : (s.writeBits a v).draws = s.draws := by rfl
@[simp] theorem writeBits_pixAt (s : State) (a : Nat) (v : List Bit) : (s.writeBits a v).pixAt = s.pixAt := by rfl
@[simp] theorem writeBits_msgAt (s : State) (a : Nat) (v : List Bit) : (s.writeBits a v).msgAt = s.msgAt := by rfl
@[simp] theorem writeBits_pwdAt (s : State) (a : Nat) (v : List Bit) : (s.writeBits a v).pwdAt = s.pwdAt := by rfl
@[simp] theorem writeBits_busy (s : State) (a : Nat) (v : List Bit) : (s.writeBits a v).busy = s.busy := by rfl
@[simp] theorem writeBits_done (s : State) (a : Nat) (v : List Bit) : (s.writeBits a v).done = s.done := by rfl

/-! ### `advancePos` -/

@[simp] theorem advancePos_w (s : State) : s.advancePos.w = s.w := by rfl
@[simp] theorem advancePos_h (s : State) : s.advancePos.h = s.h := by rfl
@[simp] theorem advancePos_pixlen (s : State) : s.advancePos.pixlen = s.pixlen := by rfl
@[simp] theorem advancePos_mlen (s : State) : s.advancePos.mlen = s.mlen := by rfl
@[simp] theorem advancePos_plen (s : State) : s.advancePos.plen = s.plen := by rfl
@[simp] theorem advancePos_idx (s : State) : s.advancePos.idx = s.idx := by rfl
@[simp] theorem advancePos_bit (s : State) : s.advancePos.bit = s.bit := by rfl
@[simp] theorem advancePos_blen (s : State) : s.advancePos.blen = s.blen := by rfl
@[simp] theorem advancePos_pos (s : State) : s.advancePos.pos = BitVec.ofNat 36 (s.pos.toNat + s.blen.toNat) := by rfl
@[simp] theorem advancePos_cap (s : State) : s.advancePos.cap = s.cap := by rfl
@[simp] theorem advancePos_key (s : State) : s.advancePos.key = s.key := by rfl
@[simp] theorem advancePos_status (s : State) : s.advancePos.status = s.status := by rfl
@[simp] theorem advancePos_progress (s : State) : s.advancePos.progress = s.progress := by rfl
@[simp] theorem advancePos_pix (s : State) : s.advancePos.pix = s.pix := by rfl
@[simp] theorem advancePos_msg (s : State) : s.advancePos.msg = s.msg := by rfl
@[simp] theorem advancePos_pwd (s : State) : s.advancePos.pwd = s.pwd := by rfl
@[simp] theorem advancePos_bits (s : State) : s.advancePos.bits = s.bits := by rfl
@[simp] theorem advancePos_inFlight (s : State) : s.advancePos.inFlight = s.inFlight := by rfl
@[simp] theorem advancePos_agenda (s : State) : s.advancePos.agenda = s.agenda := by rfl
@[simp] theorem advancePos_hostData (s : State) : s.advancePos.hostData = s.hostData := by rfl
@[simp] theorem advancePos_powerOn (s : State) : s.advancePos.powerOn = s.powerOn := by rfl
@[simp] theorem advancePos_draws (s : State) : s.advancePos.draws = s.draws := by rfl
@[simp] theorem advancePos_pixAt (s : State) : s.advancePos.pixAt = s.pixAt := by rfl
@[simp] theorem advancePos_msgAt (s : State) : s.advancePos.msgAt = s.msgAt := by rfl
@[simp] theorem advancePos_pwdAt (s : State) : s.advancePos.pwdAt = s.pwdAt := by rfl
@[simp] theorem advancePos_bitsAt (s : State) : s.advancePos.bitsAt = s.bitsAt := by rfl
@[simp] theorem advancePos_busy (s : State) : s.advancePos.busy = s.busy := by rfl
@[simp] theorem advancePos_done (s : State) : s.advancePos.done = s.done := by rfl

/-! ### `issue` -/

@[simp] theorem issue_w (s : State) (v : CmdWord) : (s.issue v).w = s.w := by rfl
@[simp] theorem issue_h (s : State) (v : CmdWord) : (s.issue v).h = s.h := by rfl
@[simp] theorem issue_pixlen (s : State) (v : CmdWord) : (s.issue v).pixlen = s.pixlen := by rfl
@[simp] theorem issue_mlen (s : State) (v : CmdWord) : (s.issue v).mlen = s.mlen := by rfl
@[simp] theorem issue_plen (s : State) (v : CmdWord) : (s.issue v).plen = s.plen := by rfl
@[simp] theorem issue_idx (s : State) (v : CmdWord) : (s.issue v).idx = s.idx := by rfl
@[simp] theorem issue_bit (s : State) (v : CmdWord) : (s.issue v).bit = s.bit := by rfl
@[simp] theorem issue_blen (s : State) (v : CmdWord) : (s.issue v).blen = s.blen := by rfl
@[simp] theorem issue_pos (s : State) (v : CmdWord) : (s.issue v).pos = s.pos := by rfl
@[simp] theorem issue_cap (s : State) (v : CmdWord) : (s.issue v).cap = s.cap := by rfl
@[simp] theorem issue_key (s : State) (v : CmdWord) : (s.issue v).key = s.key := by rfl
@[simp] theorem issue_status (s : State) (v : CmdWord) : (s.issue v).status = statusBusy := by rfl
@[simp] theorem issue_progress (s : State) (v : CmdWord) : (s.issue v).progress = 0 := by rfl
@[simp] theorem issue_pix (s : State) (v : CmdWord) : (s.issue v).pix = s.pix := by rfl
@[simp] theorem issue_msg (s : State) (v : CmdWord) : (s.issue v).msg = s.msg := by rfl
@[simp] theorem issue_pwd (s : State) (v : CmdWord) : (s.issue v).pwd = s.pwd := by rfl
@[simp] theorem issue_bits (s : State) (v : CmdWord) : (s.issue v).bits = s.bits := by rfl
@[simp] theorem issue_inFlight (s : State) (v : CmdWord) : (s.issue v).inFlight = v := by rfl
@[simp] theorem issue_agenda (s : State) (v : CmdWord) : (s.issue v).agenda = s.agenda := by rfl
@[simp] theorem issue_hostData (s : State) (v : CmdWord) : (s.issue v).hostData = s.hostData := by rfl
@[simp] theorem issue_powerOn (s : State) (v : CmdWord) : (s.issue v).powerOn = s.powerOn := by rfl
@[simp] theorem issue_draws (s : State) (v : CmdWord) : (s.issue v).draws = s.draws := by rfl
@[simp] theorem issue_pixAt (s : State) (v : CmdWord) : (s.issue v).pixAt = s.pixAt := by rfl
@[simp] theorem issue_msgAt (s : State) (v : CmdWord) : (s.issue v).msgAt = s.msgAt := by rfl
@[simp] theorem issue_pwdAt (s : State) (v : CmdWord) : (s.issue v).pwdAt = s.pwdAt := by rfl
@[simp] theorem issue_bitsAt (s : State) (v : CmdWord) : (s.issue v).bitsAt = s.bitsAt := by rfl

/-! ### `succeed` -/

@[simp] theorem succeed_w (s : State) : s.succeed.w = s.w := by rfl
@[simp] theorem succeed_h (s : State) : s.succeed.h = s.h := by rfl
@[simp] theorem succeed_pixlen (s : State) : s.succeed.pixlen = s.pixlen := by rfl
@[simp] theorem succeed_mlen (s : State) : s.succeed.mlen = s.mlen := by rfl
@[simp] theorem succeed_plen (s : State) : s.succeed.plen = s.plen := by rfl
@[simp] theorem succeed_idx (s : State) : s.succeed.idx = s.idx := by rfl
@[simp] theorem succeed_bit (s : State) : s.succeed.bit = s.bit := by rfl
@[simp] theorem succeed_blen (s : State) : s.succeed.blen = s.blen := by rfl
@[simp] theorem succeed_pos (s : State) : s.succeed.pos = s.pos := by rfl
@[simp] theorem succeed_cap (s : State) : s.succeed.cap = s.cap := by rfl
@[simp] theorem succeed_key (s : State) : s.succeed.key = s.key := by rfl
@[simp] theorem succeed_status (s : State) : s.succeed.status = statusDone .ok := by rfl
@[simp] theorem succeed_progress (s : State) : s.succeed.progress = BitVec.ofNat 7 progressDone := by rfl
@[simp] theorem succeed_pix (s : State) : s.succeed.pix = s.pix := by rfl
@[simp] theorem succeed_msg (s : State) : s.succeed.msg = s.msg := by rfl
@[simp] theorem succeed_pwd (s : State) : s.succeed.pwd = s.pwd := by rfl
@[simp] theorem succeed_bits (s : State) : s.succeed.bits = s.bits := by rfl
@[simp] theorem succeed_inFlight (s : State) : s.succeed.inFlight = 0 := by rfl
@[simp] theorem succeed_agenda (s : State) : s.succeed.agenda = s.agenda := by rfl
@[simp] theorem succeed_hostData (s : State) : s.succeed.hostData = s.hostData := by rfl
@[simp] theorem succeed_powerOn (s : State) : s.succeed.powerOn = s.powerOn := by rfl
@[simp] theorem succeed_draws (s : State) : s.succeed.draws = s.draws := by rfl
@[simp] theorem succeed_pixAt (s : State) : s.succeed.pixAt = s.pixAt := by rfl
@[simp] theorem succeed_msgAt (s : State) : s.succeed.msgAt = s.msgAt := by rfl
@[simp] theorem succeed_pwdAt (s : State) : s.succeed.pwdAt = s.pwdAt := by rfl
@[simp] theorem succeed_bitsAt (s : State) : s.succeed.bitsAt = s.bitsAt := by rfl

/-! ### `raise` -/

@[simp] theorem raise_w (s : State) (c : Code) : (s.raise c).w = s.w := by rfl
@[simp] theorem raise_h (s : State) (c : Code) : (s.raise c).h = s.h := by rfl
@[simp] theorem raise_pixlen (s : State) (c : Code) : (s.raise c).pixlen = s.pixlen := by rfl
@[simp] theorem raise_mlen (s : State) (c : Code) : (s.raise c).mlen = s.mlen := by rfl
@[simp] theorem raise_plen (s : State) (c : Code) : (s.raise c).plen = s.plen := by rfl
@[simp] theorem raise_idx (s : State) (c : Code) : (s.raise c).idx = s.idx := by rfl
@[simp] theorem raise_bit (s : State) (c : Code) : (s.raise c).bit = s.bit := by rfl
@[simp] theorem raise_blen (s : State) (c : Code) : (s.raise c).blen = s.blen := by rfl
@[simp] theorem raise_pos (s : State) (c : Code) : (s.raise c).pos = s.pos := by rfl
@[simp] theorem raise_cap (s : State) (c : Code) : (s.raise c).cap = s.cap := by rfl
@[simp] theorem raise_key (s : State) (c : Code) : (s.raise c).key = s.key := by rfl
@[simp] theorem raise_status (s : State) (c : Code) : (s.raise c).status = statusDone c := by rfl
@[simp] theorem raise_progress (s : State) (c : Code) : (s.raise c).progress = progressFinal s := by rfl
@[simp] theorem raise_pix (s : State) (c : Code) : (s.raise c).pix = s.pix := by rfl
@[simp] theorem raise_msg (s : State) (c : Code) : (s.raise c).msg = s.msg := by rfl
@[simp] theorem raise_pwd (s : State) (c : Code) : (s.raise c).pwd = s.pwd := by rfl
@[simp] theorem raise_bits (s : State) (c : Code) : (s.raise c).bits = s.bits := by rfl
@[simp] theorem raise_inFlight (s : State) (c : Code) : (s.raise c).inFlight = 0 := by rfl
@[simp] theorem raise_agenda (s : State) (c : Code) : (s.raise c).agenda = s.agenda := by rfl
@[simp] theorem raise_hostData (s : State) (c : Code) : (s.raise c).hostData = s.hostData := by rfl
@[simp] theorem raise_powerOn (s : State) (c : Code) : (s.raise c).powerOn = s.powerOn := by rfl
@[simp] theorem raise_draws (s : State) (c : Code) : (s.raise c).draws = s.draws + 1 := by rfl
@[simp] theorem raise_pixAt (s : State) (c : Code) : (s.raise c).pixAt = s.pixAt := by rfl
@[simp] theorem raise_msgAt (s : State) (c : Code) : (s.raise c).msgAt = s.msgAt := by rfl
@[simp] theorem raise_pwdAt (s : State) (c : Code) : (s.raise c).pwdAt = s.pwdAt := by rfl
@[simp] theorem raise_bitsAt (s : State) (c : Code) : (s.raise c).bitsAt = s.bitsAt := by rfl

/-! ### `raiseProgress` -/

@[simp] theorem raiseProgress_w (s : State) : s.raiseProgress.w = s.w := by rfl
@[simp] theorem raiseProgress_h (s : State) : s.raiseProgress.h = s.h := by rfl
@[simp] theorem raiseProgress_pixlen (s : State) : s.raiseProgress.pixlen = s.pixlen := by rfl
@[simp] theorem raiseProgress_mlen (s : State) : s.raiseProgress.mlen = s.mlen := by rfl
@[simp] theorem raiseProgress_plen (s : State) : s.raiseProgress.plen = s.plen := by rfl
@[simp] theorem raiseProgress_idx (s : State) : s.raiseProgress.idx = s.idx := by rfl
@[simp] theorem raiseProgress_bit (s : State) : s.raiseProgress.bit = s.bit := by rfl
@[simp] theorem raiseProgress_blen (s : State) : s.raiseProgress.blen = s.blen := by rfl
@[simp] theorem raiseProgress_pos (s : State) : s.raiseProgress.pos = s.pos := by rfl
@[simp] theorem raiseProgress_cap (s : State) : s.raiseProgress.cap = s.cap := by rfl
@[simp] theorem raiseProgress_key (s : State) : s.raiseProgress.key = s.key := by rfl
@[simp] theorem raiseProgress_status (s : State) : s.raiseProgress.status = s.status := by rfl
@[simp] theorem raiseProgress_progress (s : State) : s.raiseProgress.progress = progressRaised s := by rfl
@[simp] theorem raiseProgress_pix (s : State) : s.raiseProgress.pix = s.pix := by rfl
@[simp] theorem raiseProgress_msg (s : State) : s.raiseProgress.msg = s.msg := by rfl
@[simp] theorem raiseProgress_pwd (s : State) : s.raiseProgress.pwd = s.pwd := by rfl
@[simp] theorem raiseProgress_bits (s : State) : s.raiseProgress.bits = s.bits := by rfl
@[simp] theorem raiseProgress_inFlight (s : State) : s.raiseProgress.inFlight = s.inFlight := by rfl
@[simp] theorem raiseProgress_agenda (s : State) : s.raiseProgress.agenda = s.agenda := by rfl
@[simp] theorem raiseProgress_hostData (s : State) : s.raiseProgress.hostData = s.hostData := by rfl
@[simp] theorem raiseProgress_powerOn (s : State) : s.raiseProgress.powerOn = s.powerOn := by rfl
@[simp] theorem raiseProgress_draws (s : State) : s.raiseProgress.draws = s.draws + 1 := by rfl
@[simp] theorem raiseProgress_pixAt (s : State) : s.raiseProgress.pixAt = s.pixAt := by rfl
@[simp] theorem raiseProgress_msgAt (s : State) : s.raiseProgress.msgAt = s.msgAt := by rfl
@[simp] theorem raiseProgress_pwdAt (s : State) : s.raiseProgress.pwdAt = s.pwdAt := by rfl
@[simp] theorem raiseProgress_bitsAt (s : State) : s.raiseProgress.bitsAt = s.bitsAt := by rfl
@[simp] theorem raiseProgress_busy (s : State) : s.raiseProgress.busy = s.busy := by rfl
@[simp] theorem raiseProgress_done (s : State) : s.raiseProgress.done = s.done := by rfl

/-! ### `scramble` -/

@[simp] theorem scramble_w (s : State) (ws : WriteSet) : (s.scramble ws).w = s.w := by rfl
@[simp] theorem scramble_h (s : State) (ws : WriteSet) : (s.scramble ws).h = s.h := by rfl
@[simp] theorem scramble_pixlen (s : State) (ws : WriteSet) : (s.scramble ws).pixlen = s.pixlen := by rfl
@[simp] theorem scramble_mlen (s : State) (ws : WriteSet) : (s.scramble ws).mlen = s.mlen := by rfl
@[simp] theorem scramble_plen (s : State) (ws : WriteSet) : (s.scramble ws).plen = s.plen := by rfl
@[simp] theorem scramble_idx (s : State) (ws : WriteSet) : (s.scramble ws).idx = s.idx := by rfl
@[simp] theorem scramble_bit (s : State) (ws : WriteSet) : (s.scramble ws).bit = s.bit := by rfl
@[simp] theorem scramble_blen (s : State) (ws : WriteSet) : (s.scramble ws).blen = s.blen := by rfl
@[simp] theorem scramble_pos (s : State) (ws : WriteSet) : (s.scramble ws).pos = s.pos := by rfl
@[simp] theorem scramble_cap (s : State) (ws : WriteSet) : (s.scramble ws).cap = s.cap := by rfl
@[simp] theorem scramble_key (s : State) (ws : WriteSet) : (s.scramble ws).key = s.key := by rfl
@[simp] theorem scramble_status (s : State) (ws : WriteSet) : (s.scramble ws).status = s.status := by rfl
@[simp] theorem scramble_progress (s : State) (ws : WriteSet) : (s.scramble ws).progress = s.progress := by rfl
@[simp] theorem scramble_pix (s : State) (ws : WriteSet) : (s.scramble ws).pix = memFill (Config.interruptedPix s.draws) ws.pix s.pix := by rfl
@[simp] theorem scramble_msg (s : State) (ws : WriteSet) : (s.scramble ws).msg = memFill (Config.interruptedMsg s.draws) ws.msg s.msg := by rfl
@[simp] theorem scramble_pwd (s : State) (ws : WriteSet) : (s.scramble ws).pwd = s.pwd := by rfl
@[simp] theorem scramble_bits (s : State) (ws : WriteSet) : (s.scramble ws).bits = memFill (Config.interruptedBits s.draws) ws.bits s.bits := by rfl
@[simp] theorem scramble_inFlight (s : State) (ws : WriteSet) : (s.scramble ws).inFlight = s.inFlight := by rfl
@[simp] theorem scramble_agenda (s : State) (ws : WriteSet) : (s.scramble ws).agenda = s.agenda := by rfl
@[simp] theorem scramble_hostData (s : State) (ws : WriteSet) : (s.scramble ws).hostData = s.hostData := by rfl
@[simp] theorem scramble_powerOn (s : State) (ws : WriteSet) : (s.scramble ws).powerOn = s.powerOn := by rfl
@[simp] theorem scramble_draws (s : State) (ws : WriteSet) : (s.scramble ws).draws = s.draws + 1 := by rfl
@[simp] theorem scramble_pwdAt (s : State) (ws : WriteSet) : (s.scramble ws).pwdAt = s.pwdAt := by rfl
@[simp] theorem scramble_busy (s : State) (ws : WriteSet) : (s.scramble ws).busy = s.busy := by rfl
@[simp] theorem scramble_done (s : State) (ws : WriteSet) : (s.scramble ws).done = s.done := by rfl

/-! ### `forgetMemories` -/

@[simp] theorem forgetMemories_w (s : State) : s.forgetMemories.w = s.w := by rfl
@[simp] theorem forgetMemories_h (s : State) : s.forgetMemories.h = s.h := by rfl
@[simp] theorem forgetMemories_pixlen (s : State) : s.forgetMemories.pixlen = s.pixlen := by rfl
@[simp] theorem forgetMemories_mlen (s : State) : s.forgetMemories.mlen = s.mlen := by rfl
@[simp] theorem forgetMemories_plen (s : State) : s.forgetMemories.plen = s.plen := by rfl
@[simp] theorem forgetMemories_idx (s : State) : s.forgetMemories.idx = s.idx := by rfl
@[simp] theorem forgetMemories_bit (s : State) : s.forgetMemories.bit = s.bit := by rfl
@[simp] theorem forgetMemories_blen (s : State) : s.forgetMemories.blen = s.blen := by rfl
@[simp] theorem forgetMemories_pos (s : State) : s.forgetMemories.pos = s.pos := by rfl
@[simp] theorem forgetMemories_cap (s : State) : s.forgetMemories.cap = s.cap := by rfl
@[simp] theorem forgetMemories_key (s : State) : s.forgetMemories.key = s.key := by rfl
@[simp] theorem forgetMemories_status (s : State) : s.forgetMemories.status = s.status := by rfl
@[simp] theorem forgetMemories_progress (s : State) : s.forgetMemories.progress = s.progress := by rfl
@[simp] theorem forgetMemories_pix (s : State) : s.forgetMemories.pix = [] := by rfl
@[simp] theorem forgetMemories_msg (s : State) : s.forgetMemories.msg = [] := by rfl
@[simp] theorem forgetMemories_pwd (s : State) : s.forgetMemories.pwd = [] := by rfl
@[simp] theorem forgetMemories_bits (s : State) : s.forgetMemories.bits = [] := by rfl
@[simp] theorem forgetMemories_inFlight (s : State) : s.forgetMemories.inFlight = s.inFlight := by rfl
@[simp] theorem forgetMemories_agenda (s : State) : s.forgetMemories.agenda = s.agenda := by rfl
@[simp] theorem forgetMemories_hostData (s : State) : s.forgetMemories.hostData = s.hostData := by rfl
@[simp] theorem forgetMemories_powerOn (s : State) : s.forgetMemories.powerOn = s.powerOn + 1 := by rfl
@[simp] theorem forgetMemories_draws (s : State) : s.forgetMemories.draws = s.draws := by rfl
@[simp] theorem forgetMemories_busy (s : State) : s.forgetMemories.busy = s.busy := by rfl
@[simp] theorem forgetMemories_done (s : State) : s.forgetMemories.done = s.done := by rfl

/-! ### `resetRegisters` -/

@[simp] theorem resetRegisters_w (s : State) : s.resetRegisters.w = 0 := by rfl
@[simp] theorem resetRegisters_h (s : State) : s.resetRegisters.h = 0 := by rfl
@[simp] theorem resetRegisters_pixlen (s : State) : s.resetRegisters.pixlen = 0 := by rfl
@[simp] theorem resetRegisters_mlen (s : State) : s.resetRegisters.mlen = 0 := by rfl
@[simp] theorem resetRegisters_plen (s : State) : s.resetRegisters.plen = 0 := by rfl
@[simp] theorem resetRegisters_idx (s : State) : s.resetRegisters.idx = 0 := by rfl
@[simp] theorem resetRegisters_bit (s : State) : s.resetRegisters.bit = false := by rfl
@[simp] theorem resetRegisters_blen (s : State) : s.resetRegisters.blen = 0 := by rfl
@[simp] theorem resetRegisters_pos (s : State) : s.resetRegisters.pos = 0 := by rfl
@[simp] theorem resetRegisters_cap (s : State) : s.resetRegisters.cap = 0 := by rfl
@[simp] theorem resetRegisters_key (s : State) : s.resetRegisters.key = 0 := by rfl
@[simp] theorem resetRegisters_status (s : State) : s.resetRegisters.status = 0 := by rfl
@[simp] theorem resetRegisters_progress (s : State) : s.resetRegisters.progress = 0 := by rfl
@[simp] theorem resetRegisters_pix (s : State) : s.resetRegisters.pix = s.pix := by rfl
@[simp] theorem resetRegisters_msg (s : State) : s.resetRegisters.msg = s.msg := by rfl
@[simp] theorem resetRegisters_pwd (s : State) : s.resetRegisters.pwd = s.pwd := by rfl
@[simp] theorem resetRegisters_bits (s : State) : s.resetRegisters.bits = s.bits := by rfl
@[simp] theorem resetRegisters_inFlight (s : State) : s.resetRegisters.inFlight = 0 := by rfl
@[simp] theorem resetRegisters_agenda (s : State) : s.resetRegisters.agenda = s.agenda := by rfl
@[simp] theorem resetRegisters_hostData (s : State) : s.resetRegisters.hostData = s.hostData := by rfl
@[simp] theorem resetRegisters_powerOn (s : State) : s.resetRegisters.powerOn = s.powerOn := by rfl
@[simp] theorem resetRegisters_draws (s : State) : s.resetRegisters.draws = s.draws := by rfl
@[simp] theorem resetRegisters_pixAt (s : State) : s.resetRegisters.pixAt = s.pixAt := by rfl
@[simp] theorem resetRegisters_msgAt (s : State) : s.resetRegisters.msgAt = s.msgAt := by rfl
@[simp] theorem resetRegisters_pwdAt (s : State) : s.resetRegisters.pwdAt = s.pwdAt := by rfl
@[simp] theorem resetRegisters_bitsAt (s : State) : s.resetRegisters.bitsAt = s.bitsAt := by rfl

end Sys2Proof.Machine.State
end

