-- ==== Sys2Proof/Laws/Stream.lean ====
section
/-!
SUPPORT. The cells after the memory operations of State, the stream map, and everything a stream write can do
(42_stream_engine R95 to R97, R100).
-/
namespace Sys2Proof.Machine

/-! ### Cells after one write -/

@[simp] theorem State.pixAt_writePix (s : State) (a b : Nat) (v : Byte) :
    (s.writePix a v).pixAt b = if b = a then v else s.pixAt b := by
  simp [State.pixAt]

@[simp] theorem State.pixAt_writeBit (s : State) (a b : Nat) (v : Bit) :
    (s.writeBit a v).pixAt b = if b = a then wbit (s.pixAt a) v else s.pixAt b := by
  simp [State.writeBit]

@[simp] theorem State.pwdAt_writePwd (s : State) (a b : Nat) (v : CharCode) :
    (s.writePwd a v).pwdAt b = if b = a then v else s.pwdAt b := by
  simp [State.pwdAt]

theorem State.msgAt_writeMsg_in (s : State) (base i : Nat) (vs : List Byte) (h : i < vs.length) :
    (s.writeMsg base vs).msgAt (base + i) = vs[i] := memRead_memWriteSeq_in _ _ _ _ _ h

theorem State.msgAt_writeMsg_zero (s : State) (i : Nat) (vs : List Byte) (h : i < vs.length) :
    (s.writeMsg 0 vs).msgAt i = vs[i] := by
  have := s.msgAt_writeMsg_in 0 i vs h
  rwa [Nat.zero_add] at this

theorem State.msgAt_writeMsg_out (s : State) (base b : Nat) (vs : List Byte) (h : b < base ∨ base + vs.length ≤ b) :
    (s.writeMsg base vs).msgAt b = s.msgAt b := memRead_memWriteSeq_out _ _ _ _ _ h

theorem State.bitsAt_writeBits_in (s : State) (base i : Nat) (vs : List Bit) (h : i < vs.length) :
    (s.writeBits base vs).bitsAt (base + i) = vs[i] := memRead_memWriteSeq_in _ _ _ _ _ h

theorem State.bitsAt_writeBits_zero (s : State) (i : Nat) (vs : List Bit) (h : i < vs.length) :
    (s.writeBits 0 vs).bitsAt i = vs[i] := by
  have := s.bitsAt_writeBits_in 0 i vs h
  rwa [Nat.zero_add] at this

theorem State.bitsAt_writeBits_out (s : State) (base b : Nat) (vs : List Bit) (h : b < base ∨ base + vs.length ≤ b) :
    (s.writeBits base vs).bitsAt b = s.bitsAt b := memRead_memWriteSeq_out _ _ _ _ _ h

/-! ### The operand sequences -/

@[simp] theorem State.length_message (s : State) : s.message.length = s.mlen.toNat := by simp [State.message]

@[simp] theorem State.length_password (s : State) : s.password.length = s.plen.toNat := by simp [State.password]

@[simp] theorem State.length_bitSeq (s : State) : s.bitSeq.length = s.blen.toNat := by simp [State.bitSeq]

theorem State.getElem_message (s : State) (i : Nat) (h : i < s.message.length) : s.message[i] = s.msgAt i := by
  simp [State.message]

theorem State.getElem_password (s : State) (i : Nat) (h : i < s.password.length) : s.password[i] = s.pwdAt i := by
  simp [State.password]

theorem State.getElem_bitSeq (s : State) (i : Nat) (h : i < s.bitSeq.length) : s.bitSeq[i] = s.bitsAt i := by
  simp [State.bitSeq]

@[simp] theorem State.length_readStream (s : State) (p m : Nat) : (s.readStream p m).length = m := by
  simp [State.readStream]

theorem State.getElem_readStream (s : State) (p m t : Nat) (h : t < (s.readStream p m).length) :
    (s.readStream p m)[t] = s.streamAt (p + t) := by
  simp [State.readStream]

theorem State.getD_readStream (s : State) (p m t : Nat) (h : t < m) :
    (s.readStream p m).getD t false = s.streamAt (p + t) := by
  simp [State.readStream, h]

/-! ### The stream map -/

/-- `sidx` is injective (42_stream_engine R96). -/
theorem sidx_inj {j k : Nat} (h : sidx j = sidx k) : j = k := by
  simp only [sidx, channels, carriersPerPixel] at h
  omega

/-- `sidx` yields no alpha sample (42_stream_engine R96). -/
theorem sidx_mod (k : Nat) : sidx k % 4 ≠ 3 := by
  simp only [sidx, channels, carriersPerPixel]
  omega

/-- The first `3p` positions lie in the first `p` pixels (42_stream_engine R96). -/
theorem sidx_lt_iff (k p : Nat) : sidx k < 4 * p ↔ k < 3 * p := by
  simp only [sidx, channels, carriersPerPixel]
  omega

theorem sidx_lt_samples (s : State) (k : Nat) (h : k < s.carriers) : sidx k < s.samples := by
  simp only [State.carriers, State.samples, channels, carriersPerPixel] at *
  exact (sidx_lt_iff _ _).2 h

/-! ### The write walk: what it leaves alone, what it writes -/

namespace State

@[simp] theorem writeStream_w (bs : List Bit) (s : State) (p : Nat) : (s.writeStream p bs).w = s.w := by
  induction bs generalizing s p <;> simp [writeStream, *]

@[simp] theorem writeStream_h (bs : List Bit) (s : State) (p : Nat) : (s.writeStream p bs).h = s.h := by
  induction bs generalizing s p <;> simp [writeStream, *]

@[simp] theorem writeStream_pixlen (bs : List Bit) (s : State) (p : Nat) : (s.writeStream p bs).pixlen = s.pixlen := by
  induction bs generalizing s p <;> simp [writeStream, *]

@[simp] theorem writeStream_mlen (bs : List Bit) (s : State) (p : Nat) : (s.writeStream p bs).mlen = s.mlen := by
  induction bs generalizing s p <;> simp [writeStream, *]

@[simp] theorem writeStream_plen (bs : List Bit) (s : State) (p : Nat) : (s.writeStream p bs).plen = s.plen := by
  induction bs generalizing s p <;> simp [writeStream, *]

@[simp] theorem writeStream_idx (bs : List Bit) (s : State) (p : Nat) : (s.writeStream p bs).idx = s.idx := by
  induction bs generalizing s p <;> simp [writeStream, *]

@[simp] theorem writeStream_bit (bs : List Bit) (s : State) (p : Nat) : (s.writeStream p bs).bit = s.bit := by
  induction bs generalizing s p <;> simp [writeStream, *]

@[simp] theorem writeStream_blen (bs : List Bit) (s : State) (p : Nat) : (s.writeStream p bs).blen = s.blen := by
  induction bs generalizing s p <;> simp [writeStream, *]

@[simp] theorem writeStream_pos (bs : List Bit) (s : State) (p : Nat) : (s.writeStream p bs).pos = s.pos := by
  induction bs generalizing s p <;> simp [writeStream, *]

@[simp] theorem writeStream_cap (bs : List Bit) (s : State) (p : Nat) : (s.writeStream p bs).cap = s.cap := by
  induction bs generalizing s p <;> simp [writeStream, *]

@[simp] theorem writeStream_key (bs : List Bit) (s : State) (p : Nat) : (s.writeStream p bs).key = s.key := by
  induction bs generalizing s p <;> simp [writeStream, *]

@[simp] theorem writeStream_status (bs : List Bit) (s : State) (p : Nat) : (s.writeStream p bs).status = s.status := by
  induction bs generalizing s p <;> simp [writeStream, *]

@[simp] theorem writeStream_progress (bs : List Bit) (s : State) (p : Nat) : (s.writeStream p bs).progress = s.progress := by
  induction bs generalizing s p <;> simp [writeStream, *]

@[simp] theorem writeStream_msg (bs : List Bit) (s : State) (p : Nat) : (s.writeStream p bs).msg = s.msg := by
  induction bs generalizing s p <;> simp [writeStream, *]

@[simp] theorem writeStream_pwd (bs : List Bit) (s : State) (p : Nat) : (s.writeStream p bs).pwd = s.pwd := by
  induction bs generalizing s p <;> simp [writeStream, *]

@[simp] theorem writeStream_bits (bs : List Bit) (s : State) (p : Nat) : (s.writeStream p bs).bits = s.bits := by
  induction bs generalizing s p <;> simp [writeStream, *]

@[simp] theorem writeStream_inFlight (bs : List Bit) (s : State) (p : Nat) : (s.writeStream p bs).inFlight = s.inFlight := by
  induction bs generalizing s p <;> simp [writeStream, *]

@[simp] theorem writeStream_agenda (bs : List Bit) (s : State) (p : Nat) : (s.writeStream p bs).agenda = s.agenda := by
  induction bs generalizing s p <;> simp [writeStream, *]

@[simp] theorem writeStream_hostData (bs : List Bit) (s : State) (p : Nat) : (s.writeStream p bs).hostData = s.hostData := by
  induction bs generalizing s p <;> simp [writeStream, *]

@[simp] theorem writeStream_powerOn (bs : List Bit) (s : State) (p : Nat) : (s.writeStream p bs).powerOn = s.powerOn := by
  induction bs generalizing s p <;> simp [writeStream, *]

@[simp] theorem writeStream_draws (bs : List Bit) (s : State) (p : Nat) : (s.writeStream p bs).draws = s.draws := by
  induction bs generalizing s p <;> simp [writeStream, *]

@[simp] theorem writeStream_msgAt (bs : List Bit) (s : State) (p : Nat) : (s.writeStream p bs).msgAt = s.msgAt := by
  induction bs generalizing s p <;> simp [writeStream, *]

@[simp] theorem writeStream_pwdAt (bs : List Bit) (s : State) (p : Nat) : (s.writeStream p bs).pwdAt = s.pwdAt := by
  induction bs generalizing s p <;> simp [writeStream, *]

@[simp] theorem writeStream_bitsAt (bs : List Bit) (s : State) (p : Nat) : (s.writeStream p bs).bitsAt = s.bitsAt := by
  induction bs generalizing s p <;> simp [writeStream, *]

end State

/-- A sample outside the written range keeps all 8 bits (42_stream_engine R100). -/
theorem State.pixAt_writeStream_out (bs : List Bit) (s : State) (p a : Nat) (h : ∀ t, t < bs.length → a ≠ sidx (p + t)) :
    (s.writeStream p bs).pixAt a = s.pixAt a := by
  induction bs generalizing s p with
  | nil => rfl
  | cons b bs ih =>
    have h0 : a ≠ sidx p := h 0 (by simp)
    have hrest : ∀ t, t < bs.length → a ≠ sidx (p + 1 + t) := fun t ht => by
      have := h (t + 1) (by simpa using ht)
      rwa [show p + 1 + t = p + (t + 1) by omega]
    rw [State.writeStream, ih _ _ hrest, State.pixAt_writeBit, if_neg h0]

/-- The sample at position `p + t` takes bit `t` and keeps bits 7 to 1 (42_stream_engine R97). -/
theorem State.pixAt_writeStream_in (bs : List Bit) (s : State) (p t : Nat) (h : t < bs.length) :
    (s.writeStream p bs).pixAt (sidx (p + t)) = wbit (s.pixAt (sidx (p + t))) bs[t] := by
  induction bs generalizing s p t with
  | nil => simp at h
  | cons b bs ih =>
    rw [State.writeStream]
    match t with
    | 0 =>
      rw [State.pixAt_writeStream_out _ _ _ _ (fun u hu e => by have := sidx_inj e; omega)]
      simp
    | t + 1 =>
      have ht : t < bs.length := by simpa using h
      have hne : sidx (p + 1 + t) ≠ sidx p := fun e => by have := sidx_inj e; omega
      rw [show p + (t + 1) = p + 1 + t by omega, ih _ _ _ ht, State.pixAt_writeBit, if_neg hne]
      simp

/-- Reading back the written range gives the written bits (42_stream_engine R100). -/
theorem State.streamAt_writeStream_in (bs : List Bit) (s : State) (p t : Nat) (h : t < bs.length) :
    (s.writeStream p bs).streamAt (p + t) = bs[t] := by
  rw [State.streamAt, State.pixAt_writeStream_in _ _ _ _ h, rbit_wbit]

/-- The stream outside the written range reads as before (42_stream_engine R100). -/
theorem State.streamAt_writeStream_out (bs : List Bit) (s : State) (p k : Nat) (h : k < p ∨ p + bs.length ≤ k) :
    (s.writeStream p bs).streamAt k = s.streamAt k := by
  rw [State.streamAt, State.pixAt_writeStream_out _ _ _ _ (fun t ht e => by have := sidx_inj e; omega)]
  rfl

/-- The write walk keeps the canonical form of `PIX`. -/
theorem State.wf_writeStream (bs : List Bit) (s : State) (p : Nat) (h : Memory.wf s.pix = true) :
    Memory.wf (s.writeStream p bs).pix = true := by
  induction bs generalizing s p with
  | nil => exact h
  | cons b bs ih => exact ih _ _ (wf_memWrite _ _ h)

/-- The write walk stays below any bound all its samples stay below. -/
theorem State.within_writeStream {n : Nat} (bs : List Bit) (s : State) (p : Nat)
    (hb : ∀ t, t < bs.length → sidx (p + t) < n) (h : Memory.within n s.pix = true) :
    Memory.within n (s.writeStream p bs).pix = true := by
  induction bs generalizing s p with
  | nil => exact h
  | cons b bs ih =>
    refine ih _ _ (fun t ht => ?_) (within_memWrite _ (hb 0 (by simp)) h)
    rw [show p + 1 + t = p + (t + 1) by omega]
    exact hb (t + 1) (by simpa using ht)

end Sys2Proof.Machine
end

