-- ==== Sys2Proof/Laws/Ops.lean ====
section
/-!
SUPPORT. The shared operations of a command's life (10_state R26 to R28, 60_exceptions R150), said once: what the status words
are, what a completion leaves, and every command as its checks and its effect.
-/
namespace Sys2Proof.Machine

/-! ### The status words (10_state R27; 95_test_vectors V11) -/

theorem statusBusy_eq : statusBusy = 0x01#8 := by decide
theorem statusDone_ok : statusDone .ok = 0x02#8 := by decide
theorem statusDone_capacityExceeded : statusDone .capacityExceeded = 0x12#8 := by decide
theorem statusDone_notFound : statusDone .notFound = 0x22#8 := by decide
theorem statusDone_invalidInput : statusDone .invalidInput = 0x32#8 := by decide
theorem statusDone_outOfRange : statusDone .outOfRange = 0x42#8 := by decide
theorem statusDone_invalidCommand : statusDone .invalidCommand = 0x52#8 := by decide

theorem statusDone_inj {c d : Code} (h : statusDone c = statusDone d) : c = d := by
  revert h
  cases c <;> cases d <;> decide

@[simp] theorem busy_issue (s : State) (v : CmdWord) : (s.issue v).busy = true := by
  show statusBusy.getLsbD 0 = true
  decide

@[simp] theorem done_issue (s : State) (v : CmdWord) : (s.issue v).done = false := by
  show statusBusy.getLsbD 1 = false
  decide

theorem getLsbD_statusDone (c : Code) : (statusDone c).getLsbD 0 = false ∧ (statusDone c).getLsbD 1 = true := by
  cases c <;> decide

@[simp] theorem busy_succeed (s : State) : s.succeed.busy = false := (getLsbD_statusDone .ok).1
@[simp] theorem done_succeed (s : State) : s.succeed.done = true := (getLsbD_statusDone .ok).2
@[simp] theorem busy_raise (s : State) (c : Code) : (s.raise c).busy = false := (getLsbD_statusDone c).1
@[simp] theorem done_raise (s : State) (c : Code) : (s.raise c).done = true := (getLsbD_statusDone c).2

/-! ### `PROGRESS` (10_state R28) -/

theorem toNat_boundedDraw (lo hi draw : Nat) (hhi : hi ≤ 100) (hlo : lo ≤ hi) :
    (BitVec.ofNat 7 (boundedDraw lo hi draw)).toNat = boundedDraw lo hi draw := by
  rw [BitVec.toNat_ofNat]
  apply Nat.mod_eq_of_lt
  unfold boundedDraw
  omega

/-- The final `PROGRESS` of a command that does not end `OK` lies between the last value and 100 (10_state R28 (d)). -/
theorem progressFinal_bounds (s : State) (h : s.progress.toNat ≤ 100) :
    s.progress.toNat ≤ (progressFinal s).toNat ∧ (progressFinal s).toNat ≤ 100 := by
  unfold progressFinal progressDone
  rw [toNat_boundedDraw _ _ _ (Nat.le_refl _) h]
  unfold boundedDraw
  omega

/-- While a command runs `PROGRESS` does not decrease and does not exceed 99 (10_state R28 (b)). -/
theorem progressRaised_bounds (s : State) (h : s.progress.toNat ≤ 99) :
    s.progress.toNat ≤ (progressRaised s).toNat ∧ (progressRaised s).toNat ≤ 99 := by
  unfold progressRaised progressBusyMax
  rw [toNat_boundedDraw _ _ _ (by omega) h]
  unfold boundedDraw
  omega

/-! ### A completion is an `OK` or a raised outcome -/

@[simp] theorem conclude_ok (s : State) (f : State → State) : s.conclude .ok f = (f s).succeed := rfl

theorem conclude_raise (s : State) {c : Code} (f : State → State) (h : c ≠ .ok) : s.conclude c f = s.raise c := by
  cases c
  · exact absurd rfl h
  all_goals rfl

/-- The checks of a command, the first failing one first (60_exceptions R148). -/
def checkOf : Instr → State → Code
  | .capacity, _ => .ok
  | .pack, _ => .ok
  | .unpack, s => unpackCheck s
  | .wrbit, s => indexCheck s
  | .rdbit, s => indexCheck s
  | .pwhash, _ => .ok
  | .xmask, _ => .ok
  | .embed, s => streamCheck s
  | .extract, s => streamCheck s
  | .encode, s => encodeCheck s
  | .decode, s => decodeCheck s

/-- What a command writes when its checks pass. -/
def effectOf : Instr → State → State
  | .capacity => capacityEffect
  | .pack => packEffect
  | .unpack => unpackEffect
  | .wrbit => wrbitEffect
  | .rdbit => rdbitEffect
  | .pwhash => pwhashEffect
  | .xmask => xmaskEffect
  | .embed => embedEffect
  | .extract => extractEffect
  | .encode => encodeEffect
  | .decode => decodeEffect

/-- Every command is its checks and its effect, and completes (10_state R26). -/
theorem exec_eq_conclude (i : Instr) (s : State) : exec i s = .next (s.conclude (checkOf i s) (effectOf i)) := by
  cases i <;> rfl

theorem exec_ok {i : Instr} {s : State} (h : checkOf i s = .ok) : exec i s = .next (effectOf i s).succeed := by
  rw [exec_eq_conclude, h, conclude_ok]

theorem exec_raise {i : Instr} {s : State} {c : Code} (h : checkOf i s = c) (hc : c ≠ .ok) :
    exec i s = .next (s.raise c) := by
  rw [exec_eq_conclude, h, conclude_raise s _ hc]

/-- Everything a command can do: its effect and an `OK` completion, or a raised outcome. -/
theorem exec_cases {i : Instr} {s t : State} (h : exec i s = .next t) :
    (checkOf i s = .ok ∧ t = (effectOf i s).succeed) ∨ (checkOf i s ≠ .ok ∧ t = s.raise (checkOf i s)) := by
  by_cases hc : checkOf i s = .ok
  · rw [exec_ok hc] at h
    cases h
    exact .inl ⟨hc, rfl⟩
  · rw [exec_raise rfl hc] at h
    cases h
    exact .inr ⟨hc, rfl⟩

/-! ### When the checks pass -/

theorem shapeOk_iff (s : State) : s.ShapeOk ↔ s.pixlen.toNat = 4 * (s.w.toNat * s.h.toNat) := Iff.rfl

theorem carriers_eq (s : State) : s.carriers = 3 * (s.w.toNat * s.h.toNat) := rfl

/-- `capacity` without the clamp written out: natural subtraction clamps (40_capacity R80). -/
theorem capacity_eq (w h : Nat) : capacity w h = (3 * (w * h) - 64) / 8 := by
  have e : ((w : Int) * (h : Int) * ((carriersPerPixel : Nat) : Int)) - ((reserveBits : Nat) : Int) =
      ((3 * (w * h) : Nat) : Int) - 64 := by
    simp only [carriersPerPixel, reserveBits]
    push_cast
    ring
  show (if _ < 0 then 0 else (_ / 8 : Int).toNat) = _
  simp only [e]
  split <;> omega

theorem pixels_lt (s : State) : s.w.toNat * s.h.toNat < 2 ^ 32 :=
  Nat.lt_of_le_of_lt (Nat.mul_le_mul (Nat.le_of_lt_succ s.w.isLt) (Nat.le_of_lt_succ s.h.isLt)) (by decide)

theorem indexCheck_ok {s : State} : indexCheck s = .ok ↔ s.idx.toNat < s.pixlen.toNat := by
  unfold indexCheck
  split <;> simp <;> omega

theorem unpackCheck_ok {s : State} : unpackCheck s = .ok ↔ ceilDiv8 s.blen.toNat ≤ 2 ^ 32 - 1 := by
  unfold unpackCheck
  split <;> simp <;> omega

theorem streamCheck_ok {s : State} : streamCheck s = .ok ↔ s.ShapeOk ∧ s.pos.toNat + s.blen.toNat ≤ s.carriers := by
  unfold streamCheck
  split_ifs <;> simp <;> omega

theorem encodeCheck_ok {s : State} :
    encodeCheck s = .ok ↔
      s.ShapeOk ∧ s.mlen.toNat ≤ capacity s.w.toNat s.h.toNat ∧ 64 + 8 * s.mlen.toNat ≤ s.carriers := by
  unfold encodeCheck reserveBits
  split_ifs <;> simp <;> omega

/-- The decoded message has exactly the declared length (44_frame_codec R126). -/
@[simp] theorem length_decodedMessage (s : State) : (decodedMessage s).length = declaredLength s := by
  simp only [decodedMessage, length_maskWith, length_bitsToBytes, State.length_readStream, ceilDiv8]
  omega

theorem decodeCheck_ok {s : State} :
    decodeCheck s = .ok ↔
      s.ShapeOk ∧ 1 ≤ declaredLength s ∧ declaredLength s ≤ 1000000 ∧ 32 + 8 * declaredLength s ≤ s.carriers := by
  unfold decodeCheck headerBits maxDeclared
  rw [length_decodedMessage]
  split_ifs <;> simp <;> omega

/-! ### The pixel image fits the index space -/

theorem carriers_lt (s : State) : s.carriers < 2 ^ 34 := by
  have := pixels_lt s
  rw [carriers_eq]
  omega

theorem sidx_lt_bigCells (s : State) (k : Nat) (h : k < s.carriers) : sidx k < bigCells := by
  have h1 := sidx_lt_samples s k h
  have h2 := pixels_lt s
  simp only [State.samples, State.pixels, channels] at h1
  simp only [bigCells]
  omega

end Sys2Proof.Machine
end

