-- ==== Sys2Proof/Laws/Codec.lean ====
section
/-!
SUPPORT. When each check of a command fails with which outcome (60_exceptions R140, R148), what the two completions leave in
the terms of Safety, and what stands at each place of an encoded and a decoded message.
-/
namespace Sys2Proof.Machine

/-! ### The failing checks -/

theorem indexCheck_outOfRange {s : State} : indexCheck s = .outOfRange ↔ s.pixlen.toNat ≤ s.idx.toNat := by
  unfold indexCheck
  split_ifs <;> simp <;> omega

theorem unpackCheck_outOfRange {s : State} : unpackCheck s = .outOfRange ↔ 2 ^ 32 - 1 < ceilDiv8 s.blen.toNat := by
  unfold unpackCheck
  split_ifs <;> simp <;> omega

theorem streamCheck_invalidInput {s : State} : streamCheck s = .invalidInput ↔ ¬ s.ShapeOk := by
  unfold streamCheck
  split_ifs <;> simp <;> omega

theorem streamCheck_outOfRange {s : State} :
    streamCheck s = .outOfRange ↔ s.ShapeOk ∧ s.carriers < s.pos.toNat + s.blen.toNat := by
  unfold streamCheck
  split_ifs <;> simp <;> omega

theorem encodeCheck_invalidInput {s : State} : encodeCheck s = .invalidInput ↔ ¬ s.ShapeOk := by
  unfold encodeCheck
  split_ifs <;> simp <;> omega

theorem encodeCheck_capacityExceeded {s : State} :
    encodeCheck s = .capacityExceeded ↔ s.ShapeOk ∧ capacity s.w.toNat s.h.toNat < s.mlen.toNat := by
  unfold encodeCheck
  split_ifs <;> simp <;> omega

theorem encodeCheck_outOfRange {s : State} :
    encodeCheck s = .outOfRange ↔
      s.ShapeOk ∧ s.mlen.toNat ≤ capacity s.w.toNat s.h.toNat ∧ s.carriers < 64 + 8 * s.mlen.toNat := by
  unfold encodeCheck reserveBits
  split_ifs <;> simp <;> omega

theorem decodeCheck_invalidInput {s : State} : decodeCheck s = .invalidInput ↔ ¬ s.ShapeOk := by
  unfold decodeCheck
  split_ifs <;> simp <;> omega

theorem decodeCheck_notFound {s : State} :
    decodeCheck s = .notFound ↔
      s.ShapeOk ∧ (s.carriers < 32 ∨ declaredLength s = 0 ∨ 1000000 < declaredLength s) := by
  unfold decodeCheck headerBits maxDeclared
  rw [length_decodedMessage]
  split_ifs <;> simp <;> omega

theorem decodeCheck_outOfRange {s : State} :
    decodeCheck s = .outOfRange ↔
      s.ShapeOk ∧ 1 ≤ declaredLength s ∧ declaredLength s ≤ 1000000 ∧ 32 ≤ s.carriers ∧
        s.carriers < 32 + 8 * declaredLength s := by
  unfold decodeCheck headerBits maxDeclared
  rw [length_decodedMessage]
  split_ifs <;> simp <;> omega

/-! ### The two completions -/

theorem endsOk_succeed (s : State) : s.succeed.EndsOk := ⟨statusDone_ok, rfl, rfl⟩

theorem onlyOutcome_raise (s : State) (c : Code) (h : s.progress.toNat ≤ 100) : s.OnlyOutcome (s.raise c) (statusDone c) := by
  refine ⟨rfl, (progressFinal_bounds s h).1, (progressFinal_bounds s h).2, ?_⟩
  simp [State.SameOperands, State.SameHostRegs, State.SameModelFields]

/-- The `STATUS` word a command leaves is that of its checks. -/
theorem status_of_exec {i : Instr} {s t : State} (h : exec i s = .next t) : t.status = statusDone (checkOf i s) := by
  rcases exec_cases h with ⟨hc, rfl⟩ | ⟨_, rfl⟩
  · rw [hc, State.succeed_status]
  · rw [State.raise_status]

/-! ### The encoded message -/

@[simp] theorem length_encodeBody (s : State) : (encodeBody s).length = s.mlen.toNat := by simp [encodeBody]

theorem getElem_encodeBody (s : State) (i : Nat) (h : i < (encodeBody s).length) :
    (encodeBody s)[i] = s.msgAt i ^^^ s.maskAt i := by
  simp only [encodeBody, getElem_maskWith, State.length_password, State.getElem_message, State.maskAt, maskByte, maskMod]
  split <;> simp

/-- The frame ENCODE writes is the frame of 30_encoding R60, bit for bit. -/
theorem getElem_frameBits_eq_frameBit (s : State) (k : Nat) (h : k < (frameBits s.mlen (encodeBody s)).length) :
    (frameBits s.mlen (encodeBody s))[k] = s.frameBit k := by
  unfold State.frameBit
  split_ifs with h1 h2
  · rw [getElem_frameBits_header _ _ _ _ h1]
  · rw [getElem_frameBits_payload _ _ _ _ (by omega) (by simpa using h2), getElem_encodeBody]
  · rw [getElem_frameBits_terminator _ _ _ _ (by simpa using h2)]

/-! ### The decoded message -/

/-- The declared length is the number the first 32 stream bits spell (30_encoding R67). -/
theorem declaredLength_eq {s : State} {d : Len} (h : s.Declares d) : declaredLength s = d.toNat := by
  refine headerValue_eq _ d fun j hj => ?_
  rw [State.getD_readStream _ _ _ _ (by simpa [headerBits] using hj), Nat.zero_add, h j hj]

theorem byteAt_readStream (s : State) (p m i j : Nat) (hj : j < 8) (hm : 8 * i + j < m) :
    (byteAt (s.readStream p m) i).getLsbD (7 - j) = s.streamAt (p + (8 * i + j)) := by
  rw [getLsbD_byteAt _ _ _ hj, paddedBit_eq_getElem _ _ (by simpa using hm), State.getElem_readStream]

/-- Bit `7 - j` of decoded byte `i`: the stream bit, XORed with the mask's (44_frame_codec R122 steps 3 to 5). -/
theorem getLsbD_decodedMessage (s : State) (i j : Nat) (hi : i < (decodedMessage s).length) (hj : j ≤ 7) :
    ((decodedMessage s)[i]).getLsbD (7 - j) = (s.streamAt (32 + 8 * i + j) ^^ (s.maskAt i).getLsbD (7 - j)) := by
  have hi' : i < declaredLength s := by simpa using hi
  have hb := byteAt_readStream s headerBits (8 * declaredLength s) i j (by omega) (by omega)
  rw [show headerBits + (8 * i + j) = 32 + 8 * i + j by simp only [headerBits]; omega] at hb
  simp only [decodedMessage, getElem_maskWith, State.length_password, getElem_bitsToBytes, State.maskAt]
  split
  · rw [BitVec.getLsbD_xor, hb]
    rfl
  · rw [hb]
    simp

end Sys2Proof.Machine
end

