-- ==== Sys2Proof/Laws/Invariant.lean ====
section
/-!
SUPPORT. Every operation that writes memory keeps the four spaces in canonical form and within their cells, and host accesses
leave the status registers alone.
-/
namespace Sys2Proof.Machine

/-! ### Commands -/

/-- The effect of a command whose checks pass keeps the memories well formed. -/
theorem effect_memInv {i : Instr} {s : State} (hc : checkOf i s = .ok) (h : s.MemInv) : (effectOf i s).MemInv := by
  obtain ⟨⟨a1, a2⟩, ⟨b1, b2⟩, ⟨c1, c2⟩, ⟨d1, d2⟩⟩ := h
  have hm := s.mlen.isLt
  have hbl := s.blen.isLt
  cases i with
  | capacity => exact ⟨⟨a1, a2⟩, ⟨b1, b2⟩, ⟨c1, c2⟩, ⟨d1, d2⟩⟩
  | rdbit => exact ⟨⟨a1, a2⟩, ⟨b1, b2⟩, ⟨c1, c2⟩, ⟨d1, d2⟩⟩
  | pwhash => exact ⟨⟨a1, a2⟩, ⟨b1, b2⟩, ⟨c1, c2⟩, ⟨d1, d2⟩⟩
  | pack =>
    exact ⟨⟨a1, a2⟩, ⟨b1, b2⟩, ⟨c1, c2⟩, wf_memWriteSeq _ _ d1,
      within_memWriteSeq _ (by simp [bigCells]; omega) d2⟩
  | unpack =>
    have h1 := unpackCheck_ok.1 hc
    exact ⟨⟨a1, a2⟩, ⟨wf_memWriteSeq _ _ b1, within_memWriteSeq _ (by simp [msgCells]; omega) b2⟩, ⟨c1, c2⟩, d1, d2⟩
  | wrbit =>
    have h1 := indexCheck_ok.1 hc
    have h2 := s.pixlen.isLt
    exact ⟨⟨wf_memWrite _ _ a1, within_memWrite _ (by simp only [bigCells]; omega) a2⟩, ⟨b1, b2⟩, ⟨c1, c2⟩, ⟨d1, d2⟩⟩
  | xmask =>
    exact ⟨⟨a1, a2⟩, ⟨wf_memWriteSeq _ _ b1, within_memWriteSeq _ (by simp [msgCells]; omega) b2⟩, ⟨c1, c2⟩, d1, d2⟩
  | embed =>
    have h1 := (streamCheck_ok.1 hc).2
    simp only [effectOf, embedEffect, State.MemInv, State.advancePos_pix, State.advancePos_msg, State.advancePos_pwd,
      State.advancePos_bits, State.writeStream_msg, State.writeStream_pwd, State.writeStream_bits]
    refine ⟨⟨State.wf_writeStream _ _ _ a1, State.within_writeStream _ _ _
      (fun t ht => sidx_lt_bigCells s _ ?_) a2⟩, ⟨b1, b2⟩, ⟨c1, c2⟩, ⟨d1, d2⟩⟩
    simp at ht; omega
  | extract =>
    exact ⟨⟨a1, a2⟩, ⟨b1, b2⟩, ⟨c1, c2⟩, wf_memWriteSeq _ _ d1,
      within_memWriteSeq _ (by simp [bigCells]; omega) d2⟩
  | encode =>
    have h1 := (encodeCheck_ok.1 hc).2.2
    simp only [effectOf, encodeEffect, State.MemInv, State.setPos_pix, State.setPos_msg, State.setPos_pwd,
      State.setPos_bits, State.writeStream_msg, State.writeStream_pwd, State.writeStream_bits]
    refine ⟨⟨State.wf_writeStream _ _ _ a1, State.within_writeStream _ _ _
      (fun t ht => sidx_lt_bigCells s _ ?_) a2⟩, ⟨b1, b2⟩, ⟨c1, c2⟩, ⟨d1, d2⟩⟩
    simp at ht; omega
  | decode =>
    have h1 := (decodeCheck_ok.1 hc).2
    simp only [effectOf, decodeEffect, State.MemInv, State.setPos_pix, State.setPos_msg, State.setPos_pwd,
      State.setPos_bits, State.setMlen_pix, State.setMlen_msg, State.setMlen_pwd, State.setMlen_bits, State.writeMsg_pix,
      State.writeMsg_msg, State.writeMsg_pwd, State.writeMsg_bits]
    exact ⟨⟨a1, a2⟩, ⟨wf_memWriteSeq _ _ b1, within_memWriteSeq _ (by simp [msgCells]; omega) b2⟩, ⟨c1, c2⟩, d1, d2⟩

/-! ### Reset -/

/-- Every cell of a command's write set exists. -/
theorem writeSet_bound (i : Instr) (s : State) :
    (∀ a ∈ (writeSet i s).pix, a < bigCells) ∧ (∀ a ∈ (writeSet i s).msg, a < msgCells) ∧
    (∀ a ∈ (writeSet i s).bits, a < bigCells) := by
  have hm := s.mlen.isLt
  have hbl := s.blen.isLt
  cases i <;> simp only [writeSet, writesIfOk]
  case capacity => simp
  case rdbit => simp
  case pwhash => simp
  case pack => simp [bigCells]; omega
  case xmask => simp [msgCells]; omega
  case unpack => split_ifs with h <;> simp [msgCells]; have := unpackCheck_ok.1 h; omega
  case wrbit =>
    split_ifs with h <;> simp [bigCells]; have := indexCheck_ok.1 h; have := s.pixlen.isLt; omega
  case embed =>
    split_ifs with h <;> simp
    intro t ht; exact sidx_lt_bigCells s _ (by have := (streamCheck_ok.1 h).2; omega)
  case extract => split_ifs with h <;> simp [bigCells]; omega
  case encode =>
    split_ifs with h <;> simp
    intro t ht; exact sidx_lt_bigCells s _ (by have := (encodeCheck_ok.1 h).2.2; simp only [reserveBits] at ht; omega)
  case decode => split_ifs with h <;> simp [msgCells]; have := (decodeCheck_ok.1 h).2; omega

/-- What a reset does to the memories while a command runs. -/
theorem resetMemories_running {s : State} (hb : s.busy = true) : s.resetMemories = s.scramble (inFlightWrites s) := by
  simp [State.resetMemories, hb]

/-- What a reset does to the memories of an idle engine. -/
theorem resetMemories_idle {s : State} (hb : s.busy = false) : s.resetMemories = s.forgetMemories := by
  simp [State.resetMemories, hb]

theorem inFlightWrites_ok {s : State} {i : Instr} (h : decodeWord s.inFlight = .ok i) :
    inFlightWrites s = writeSet i s := by
  simp [inFlightWrites, h]

theorem inFlightWrites_reserved {s : State} {e : Reject} (h : decodeWord s.inFlight = .error e) :
    inFlightWrites s = ⟨[], [], []⟩ := by
  simp [inFlightWrites, h]

/-- Every cell of the write set of the command in flight exists. -/
theorem inFlightWrites_bound (s : State) :
    (∀ a ∈ (inFlightWrites s).pix, a < bigCells) ∧ (∀ a ∈ (inFlightWrites s).msg, a < msgCells) ∧
    (∀ a ∈ (inFlightWrites s).bits, a < bigCells) := by
  cases h : decodeWord s.inFlight with
  | ok i => rw [inFlightWrites_ok h]; exact writeSet_bound i s
  | error e => rw [inFlightWrites_reserved h]; simp

/-- A reset keeps the memories well formed, whatever it strikes. -/
theorem applyReset_memInv {s : State} (h : s.MemInv) : s.applyReset.MemInv := by
  obtain ⟨⟨a1, a2⟩, ⟨b1, b2⟩, c, ⟨d1, d2⟩⟩ := h
  cases hb : s.busy with
  | false =>
    rw [State.applyReset, resetMemories_idle hb]
    exact ⟨⟨rfl, rfl⟩, ⟨rfl, rfl⟩, ⟨rfl, rfl⟩, rfl, rfl⟩
  | true =>
    have hws := inFlightWrites_bound s
    rw [State.applyReset, resetMemories_running hb]
    exact ⟨⟨wf_memFill _ _ a1, within_memFill _ _ hws.1 a2⟩, ⟨wf_memFill _ _ b1, within_memFill _ _ hws.2.1 b2⟩, c,
      ⟨wf_memFill _ _ d1, within_memFill _ _ hws.2.2 d2⟩⟩

/-! ### Host accesses -/

theorem portWrite_memInv {s : State} (n v : Nat) (h : s.MemInv) : (s.portWrite n v).MemInv := by
  unfold State.portWrite
  split <;> first | exact h | (split <;> exact h)

theorem cellWrite_memInv {s : State} {sp : Space} {a : Nat} (v : Nat) (ha : a < spaceCells sp) (h : s.MemInv) :
    (s.cellWrite sp a v).MemInv := by
  obtain ⟨⟨a1, a2⟩, ⟨b1, b2⟩, ⟨c1, c2⟩, ⟨d1, d2⟩⟩ := h
  cases sp with
  | pix => exact ⟨⟨wf_memWrite _ _ a1, within_memWrite _ ha a2⟩, ⟨b1, b2⟩, ⟨c1, c2⟩, ⟨d1, d2⟩⟩
  | msg => exact ⟨⟨a1, a2⟩, ⟨wf_memWrite _ _ b1, within_memWrite _ ha b2⟩, ⟨c1, c2⟩, ⟨d1, d2⟩⟩
  | pwd => exact ⟨⟨a1, a2⟩, ⟨b1, b2⟩, ⟨wf_memWrite _ _ c1, within_memWrite _ ha c2⟩, ⟨d1, d2⟩⟩
  | bits => exact ⟨⟨a1, a2⟩, ⟨b1, b2⟩, ⟨c1, c2⟩, ⟨wf_memWrite _ _ d1, within_memWrite _ ha d2⟩⟩

/-- A host register write other than a `CMD` write leaves the life of the command alone. -/
theorem portWrite_keepsStatus (s : State) (n v : Nat) (hn : n ≠ 16) :
    (s.portWrite n v).status = s.status ∧ (s.portWrite n v).progress = s.progress ∧
    (s.portWrite n v).inFlight = s.inFlight := by
  unfold State.portWrite
  split <;> simp_all

/-- A host cell write leaves the life of the command alone. -/
theorem cellWrite_keepsStatus (s : State) (sp : Space) (a v : Nat) :
    (s.cellWrite sp a v).status = s.status ∧ (s.cellWrite sp a v).progress = s.progress ∧
    (s.cellWrite sp a v).inFlight = s.inFlight := by
  cases sp <;> simp [State.cellWrite]

end Sys2Proof.Machine
end

