-- ==== Sys2Proof/Laws/PerInstr.lean ====
section
/-!
SUPPORT. Statements about every instruction as syntax, one lemma per constructor: the round trip of encoder and decoder
(30_encoding R71).
-/
namespace Sys2Proof.Laws.RoundTrip

/-- The instruction is well formed, its word is a well-formed command word, and the decoder reads it back. -/
def Statement (i : Instr) : Prop := i.wf = true ∧ cmdWordWf (encode i) = true ∧ decodeWord (encode i) = .ok i

theorem capacity : Statement .capacity := ⟨rfl, rfl, rfl⟩
theorem pack : Statement .pack := ⟨rfl, rfl, rfl⟩
theorem unpack : Statement .unpack := ⟨rfl, rfl, rfl⟩
theorem wrbit : Statement .wrbit := ⟨rfl, rfl, rfl⟩
theorem rdbit : Statement .rdbit := ⟨rfl, rfl, rfl⟩
theorem pwhash : Statement .pwhash := ⟨rfl, rfl, rfl⟩
theorem xmask : Statement .xmask := ⟨rfl, rfl, rfl⟩
theorem embed : Statement .embed := ⟨rfl, rfl, rfl⟩
theorem extract : Statement .extract := ⟨rfl, rfl, rfl⟩
theorem encode : Statement .encode := ⟨rfl, rfl, rfl⟩
theorem decode : Statement .decode := ⟨rfl, rfl, rfl⟩

end Sys2Proof.Laws.RoundTrip
end

