-- ==== Sys2Proof/Laws/Step.lean ====
section
/-!
SUPPORT. One step of the machine, said once: which turn it takes, and how steps make a run.
-/
namespace Sys2Proof.Machine

/-- With nothing scheduled the engine alone moves. -/
theorem step_nil {s : State} (h : s.agenda = []) : step s = completeTurn s := by
  simp [step, h]

/-- The next turn of the agenda is taken at the state without it. -/
theorem step_cons {s : State} {t : Turn} {rest : List Turn} (h : s.agenda = t :: rest) :
    step s = takeTurn t (s.setAgenda rest) := by
  simp [step, h]

/-- An idle engine with nothing scheduled waits (70_reset R160). -/
theorem step_idle {s : State} (ha : s.agenda = []) (hb : s.busy = false) : step s = .next s := by
  rw [step_nil ha, completeTurn, hb]
  rfl

/-- A run whose first step goes on is the rest of the run. -/
theorem run_of_step_next (M : Host.Core) (k : Nat) {s t : M.State} (h : M.step s = .next t) :
    M.run (k + 1) s = M.run k t := by
  simp [Host.Core.run, h]

/-- The command in flight always completes: with its own outcome, or with `InvalidCommand` for a reserved word. -/
theorem runInFlight_cases (s : State) :
    (∃ i, decodeWord s.inFlight = .ok i ∧ runInFlight s = .next (s.conclude (checkOf i s) (effectOf i))) ∨
    (∃ e, decodeWord s.inFlight = .error e ∧ runInFlight s = .next (s.raise .invalidCommand)) := by
  unfold runInFlight
  cases h : decodeWord s.inFlight with
  | ok i => exact .inl ⟨i, rfl, exec_eq_conclude i s⟩
  | error e => exact .inr ⟨e, rfl, rfl⟩

end Sys2Proof.Machine
end

