-- ==== Sys2Proof/Tests/Slice0.lean ====
section
/-!
SUPPORT. Tests: well-formedness refuses ill-formed terms; every command word written out bit by bit decodes; single commands
on the vectors of 95_test_vectors.md (named at each test); and for every statement with hypotheses a witness that meets them.
-/
namespace Sys2Proof.Tests

open Sys2Proof Sys2Proof.Machine

/-! ### Small states -/

/-- The values `vs` in cells 0, 1, 2, ... -/
def cells {α : Type} (vs : List α) : Memory α := vs.zipIdx.map fun p => (p.2, p.1)

/-- An engine with registers set for a `w` by `h` image, its buffer not loaded. -/
def shaped (w h : Nat) : State :=
  ((State.reset.setW (BitVec.ofNat 16 w)).setH (BitVec.ofNat 16 h)).setPixlen (BitVec.ofNat 36 (4 * (w * h)))

/-- An engine with a `w` by `h` image loaded. -/
def loaded (w h : Nat) (samples : List Byte) : State := { shaped w h with pix := cells samples }

/-- The grey cover of 95_test_vectors with the header `d` in the first 32 stream positions and `rest` in the other carriers
(95_test_vectors V10). -/
def headerImage (w h : Nat) (d : Len) (rest : Byte) : State :=
  loaded w h ((List.range (4 * (w * h))).map fun i =>
    if i % 4 = 3 then 0xFF#8
    else if 3 * (i / 4) + i % 4 < 32 then (if d.getLsbD (31 - (3 * (i / 4) + i % 4)) then 0x81#8 else 0x80#8)
    else rest)

/-- The message `m` loaded, with its length. -/
def withMsg (s : State) (m : List Byte) : State := { s with msg := cells m, mlen := BitVec.ofNat 32 m.length }

/-- The password `p` loaded, with its length. -/
def withPwd (s : State) (p : List CharCode) : State := { s with pwd := cells p, plen := BitVec.ofNat 16 p.length }

/-- The bits `b` loaded, with their count. -/
def withBits (s : State) (b : List Bit) : State := { s with bits := cells b, blen := BitVec.ofNat 36 b.length }

/-- What `f` sees in the next state; `none` where the machine stops. -/
def seen {α : Type} (f : State → α) : Host.Outcome State Fault Refusal → Option α
  | .next t => some (f t)
  | .fault _ => none
  | .refused _ => none

/-! ### Well-formedness refuses ill-formed terms (30_encoding R65, R72; 10_state R21, R30 to R33) -/

theorem test_wf_refuses_zero_word : cmdWordWf 0x00#8 = false := by decide
theorem test_wf_refuses_opc_above_eleven : cmdWordWf 0x0C#8 = false := by decide
theorem test_wf_refuses_high_nibble : cmdWordWf 0x1A#8 = false := by decide
theorem test_wf_accepts_decode_word : cmdWordWf 0x0B#8 = true := by decide
theorem test_wf_refuses_wide_register_value : hostActionWf (.writeReg 6 2) = false := by decide
theorem test_wf_refuses_wide_cell_value : hostActionWf (.writeCell .pix 0 256) = false := by decide
theorem test_wf_refuses_written_cell_outside : hostActionWf (.writeCell .pwd 65536 0) = false := by decide
theorem test_wf_refuses_read_cell_outside : hostActionWf (.readCell .msg (2 ^ 32)) = false := by decide

/-! ### Decoding, each word written out from the CMD8 format and the map of R71 -/

theorem test_decode_capacity : decodeTableWord 8 0b00000001 = some .capacity := by decide
theorem test_decode_pack : decodeTableWord 8 0b00000010 = some .pack := by decide
theorem test_decode_unpack : decodeTableWord 8 0b00000011 = some .unpack := by decide
theorem test_decode_wrbit : decodeTableWord 8 0b00000100 = some .wrbit := by decide
theorem test_decode_rdbit : decodeTableWord 8 0b00000101 = some .rdbit := by decide
theorem test_decode_pwhash : decodeTableWord 8 0b00000110 = some .pwhash := by decide
theorem test_decode_xmask : decodeTableWord 8 0b00000111 = some .xmask := by decide
theorem test_decode_embed : decodeTableWord 8 0b00001000 = some .embed := by decide
theorem test_decode_extract : decodeTableWord 8 0b00001001 = some .extract := by decide
theorem test_decode_encode : decodeTableWord 8 0b00001010 = some .encode := by decide
theorem test_decode_decode : decodeTableWord 8 0b00001011 = some .decode := by decide
theorem test_decode_rejects_reserved :
    decodeWord 0b00001111#8 = .error (.reservedOpc 15) ∧ decodeWord 0b11111111#8 = .error .zeroFieldSet ∧
    decodeBytes [] = .error .noByte := by decide

/-! ### Single commands on the vectors of 95_test_vectors.md -/

/-- V1: 9 by 3. -/
theorem test_capacity_small : seen (fun t => t.cap.toNat) (exec .capacity (shaped 9 3)) = some 2 := by decide

/-- V1: the clamp at 63 carrier samples, and the greatest value. -/
theorem test_capacity_edges :
    seen (fun t => t.cap.toNat) (exec .capacity (shaped 7 3)) = some 0 ∧
    seen (fun t => t.cap.toNat) (exec .capacity (shaped 65535 65535)) = some 1610563576 := by decide

/-- V2: `MSG = 80 01`. -/
theorem test_pack_msb_first :
    seen (fun t => (t.blen, t.bits)) (exec .pack (withMsg State.reset [0x80, 0x01])) =
      some (16#36, cells [true, false, false, false, false, false, false, false,
        false, false, false, false, false, false, false, true]) := by decide

/-- V2: one full group and one bit. -/
theorem test_unpack_pads_right :
    seen (fun t => (t.mlen, t.msg))
      (exec .unpack (withBits State.reset [false, true, true, false, true, false, false, false, true])) =
      some (2#32, cells [0x68, 0x80]) := by decide

/-- V2: `BLEN = 34 359 738 361`. -/
theorem test_unpack_out_of_range :
    seen (fun t => (t.status, t.mlen, t.msg)) (exec .unpack (State.reset.setBlen 34359738361)) =
      some (0x42#8, 0#32, []) := by decide

/-- V3: an alpha sample is written all the same. -/
theorem test_wrbit_alpha :
    seen (fun t => (t.status, t.pix)) (exec .wrbit ((loaded 2 1 [0, 0, 0, 0x7F, 0, 0, 0, 0]).setIdx 3)) =
      some (0x02#8, cells [0, 0, 0, 0x7E, 0, 0, 0, 0]) := by decide

/-- V3: `IDX = PIXLEN`. -/
theorem test_wrbit_out_of_range :
    seen (fun t => (t.status, t.pix)) (exec .wrbit (((shaped 2 1).setIdx 8).setBit true)) = some (0x42#8, []) := by decide

/-- V3: sample `69`. -/
theorem test_rdbit_odd_sample :
    seen (fun t => t.bit) (exec .rdbit ((loaded 2 1 [0, 0, 0, 0, 0x69, 0, 0, 0]).setIdx 4)) = some true := by decide

/-- V3: `BIT` unchanged. -/
theorem test_rdbit_out_of_range :
    seen (fun t => (t.status, t.bit)) (exec .rdbit (((shaped 2 1).setIdx 8).setBit true)) = some (0x42#8, true) := by decide

/-- V5: the last step of "secret" wraps to a negative number. -/
theorem test_pwhash_wraps :
    seen (fun t => t.key.toNat) (exec .pwhash (withPwd State.reset [115, 101, 99, 114, 101, 116])) = some 906277200 := by
  decide

/-- V5: the key `2^31`. -/
theorem test_pwhash_most_negative :
    seen (fun t => t.key.toNat) (exec .pwhash (withPwd State.reset [2, 13, 0, 9, 30, 12, 2])) = some 2147483648 := by
  decide

/-- V6: the offset wraps at 256. -/
theorem test_xmask_offset_wraps :
    seen (fun t => t.msg) (exec .xmask ((withMsg State.reset [0, 0, 0]).setKey 255)) = some (cells [0xFF, 0x00, 0x01]) := by
  decide

/-- V6: the key of "secret" on "hi". -/
theorem test_xmask_large_key :
    seen (fun t => t.msg) (exec .xmask ((withMsg State.reset [0x68, 0x69]).setKey 906277200)) =
      some (cells [0x38, 0x38]) := by decide

/-- V4: the walk starts inside a pixel and crosses the alpha sample 3. -/
theorem test_embed_crosses_alpha :
    seen (fun t => (t.pos, t.pix)) (exec .embed (withBits ((loaded 2 1 [0, 0, 0, 0, 0, 0, 0, 0]).setPos 2) [true, true])) =
      some (4#36, cells [0, 0, 1, 0, 1, 0, 0, 0]) := by decide

/-- V4: the shape is checked before the range. -/
theorem test_embed_shape_first :
    seen (fun t => (t.status, t.pos)) (exec .embed (withBits (((shaped 2 1).setPixlen 7).setPos 9) [true])) =
      some (0x32#8, 9#36) := by decide

/-- V4: samples 1, 2, 4, 5. -/
theorem test_extract_skips_alpha :
    seen (fun t => (t.pos, t.bits)) (exec .extract (((loaded 2 1 [1, 0, 1, 1, 0, 1, 0, 1]).setPos 1).setBlen 4)) =
      some (5#36, cells [false, true, false, true]) := by decide

/-- V4: `4 + 3 > 6`. -/
theorem test_extract_out_of_range :
    seen (fun t => (t.status, t.pos, t.bits)) (exec .extract (((shaped 2 1).setPos 4).setBlen 3)) =
      some (0x42#8, 4#36, []) := by decide

/-- The 9 by 3 cover of P2. -/
def coverP2 : List Byte := (List.range 108).map fun i => BitVec.ofNat 8 ((37 * i + 11) % 256)

/-- The result P2 prints. -/
def resultP2 : List Byte :=
  [
    0x0A#8, 0x30#8, 0x54#8, 0x7A#8, 0x9E#8, 0xC4#8, 0xE8#8, 0x0E#8, 0x32#8, 0x58#8, 0x7C#8, 0xA2#8, 0xC6#8, 0xEC#8, 0x10#8, 0x36#8, 0x5A#8, 0x80#8,
    0xA4#8, 0xCA#8, 0xEE#8, 0x14#8, 0x38#8, 0x5E#8, 0x82#8, 0xA8#8, 0xCC#8, 0xF2#8, 0x16#8, 0x3C#8, 0x60#8, 0x86#8, 0xAA#8, 0xD0#8, 0xF4#8, 0x1A#8,
    0x3E#8, 0x64#8, 0x88#8, 0xAE#8, 0xD3#8, 0xF8#8, 0x1C#8, 0x42#8, 0x67#8, 0x8D#8, 0xB0#8, 0xD6#8, 0xFB#8, 0x20#8, 0x44#8, 0x6A#8, 0x8E#8, 0xB4#8,
    0xD9#8, 0xFE#8, 0x23#8, 0x48#8, 0x6D#8, 0x92#8, 0xB6#8, 0xDC#8, 0x01#8, 0x26#8, 0x4A#8, 0x70#8, 0x94#8, 0xBA#8, 0xDE#8, 0x04#8, 0x28#8, 0x4E#8,
    0x72#8, 0x98#8, 0xBC#8, 0xE2#8, 0x06#8, 0x2C#8, 0x50#8, 0x76#8, 0x9A#8, 0xC0#8, 0xE4#8, 0x0A#8, 0x2E#8, 0x54#8, 0x78#8, 0x9E#8, 0xC2#8, 0xE8#8,
    0x0C#8, 0x32#8, 0x56#8, 0x7C#8, 0xA0#8, 0xC6#8, 0xEA#8, 0x10#8, 0x34#8, 0x5A#8, 0x7E#8, 0xA4#8, 0xC8#8, 0xEE#8, 0x12#8, 0x38#8, 0x5D#8, 0x82#8]

/-- P2: "hi" into the 9 by 3 image. -/
theorem test_encode_program2 :
    seen (fun t => (t.status, t.pos, t.pix)) (exec .encode (withMsg (loaded 9 3 coverP2) [0x68, 0x69])) =
      some (0x02#8, 80#36, cells resultP2) := by decide +kernel

/-- V9: 8 by 3, two bytes. -/
theorem test_encode_capacity_exceeded :
    seen (fun t => (t.status, t.pos, t.pix)) (exec .encode (withMsg (shaped 8 3) [0x68, 0x69])) =
      some (0x12#8, 0#36, []) := by decide

/-- P2: the message comes back. -/
theorem test_decode_program2 :
    seen (fun t => (t.status, t.mlen, t.pos, t.msg)) (exec .decode (loaded 9 3 resultP2)) =
      some (0x02#8, 2#32, 48#36, cells [0x68, 0x69]) := by decide +kernel

/-- V10 row 12: no terminator in the buffer, all bits after the header 1. -/
theorem test_decode_no_terminator :
    seen (fun t => (t.mlen, t.pos, t.msg)) (exec .decode (headerImage 2 7 1 0x81)) =
      some (1#32, 40#36, cells [0xFF]) := by decide +kernel

/-- P6, V11: a reserved word ends `InvalidCommand`. -/
theorem test_step_reserved_word :
    seen (fun t => t.status) (step (State.reset.withFetchWord 8 0x1A)) = some 0x52#8 := by decide

/-- R161, R162: a reset while PACK runs gives the cells PACK was writing a value that nothing fixes, and keeps `MSG`. -/
theorem test_reset_during_pack :
    seen (fun t => (t.mlen, t.busy, t.msg, t.bits.map Prod.fst))
      (hostAct .reset ((withMsg State.reset [0x80]).issue 0x02)) =
      some (0#32, false, cells [0x80], [0, 1, 2, 3, 4, 5, 6, 7]) := by decide

/-- R161, U7: a reset of an idle engine leaves no cell known. -/
theorem test_reset_while_idle :
    seen (fun t => (t.mlen, t.status, t.msg, t.powerOn)) (hostAct .reset (withMsg State.reset [0x80])) =
      some (0#32, 0x00#8, [], 1) := by decide

/-! ### Witnesses: concrete states and operands that meet the hypotheses of each statement -/

theorem witness_StepRunsDecodedCommand_alone :
    (State.reset.issue 0x01).busy = true ∧ decodeWord (State.reset.issue 0x01).inFlight = .ok .capacity ∧
    (State.reset.issue 0x01).agenda = [] := by decide

theorem witness_StepRunsDecodedCommand_scheduled :
    ((State.reset.issue 0x0B).setAgenda [.complete, .progress]).busy = true ∧
    decodeWord ((State.reset.issue 0x0B).setAgenda [.complete, .progress]).inFlight = .ok .decode ∧
    ((State.reset.issue 0x0B).setAgenda [.complete, .progress]).agenda = .complete :: [.progress] := by decide

theorem witness_ReservedWordEndsInvalidCommand :
    State.reset.busy = false ∧ ∀ v ∈ [0, 12, 255], v < 256 ∧ (v = 0 ∨ 12 ≤ v) := by decide

theorem witness_CmdWriteIssuesCommand : State.reset.busy = false ∧ 255 < 256 := by decide

theorem witness_CmdWriteWhileBusyIsDropped : (State.reset.issue 0x01).busy = true ∧ 255 < 256 := by decide

theorem witness_OutcomeStaysUntilNextIssue :
    ∃ t, State.reset.busy = false ∧ HostAction.writeReg 0 5 ≠ .reset ∧
      (∀ v, HostAction.writeReg 0 5 ≠ .writeReg 16 v) ∧ hostAct (.writeReg 0 5) State.reset = .next t :=
  ⟨_, by decide, by decide, fun v h => absurd (HostAction.writeReg.inj h).1 (by decide), rfl⟩

/-- An idle engine with a `PROGRESS` turn scheduled after an outcome. -/
theorem witness_OutcomeStaysUntilNextIssue_step :
    ∃ t, ((State.reset.raise .outOfRange).setAgenda [.progress]).busy = false ∧
      ((State.reset.raise .outOfRange).setAgenda [.progress]).agenda.head? ≠ some (.host .reset) ∧
      (∀ v, ((State.reset.raise .outOfRange).setAgenda [.progress]).agenda.head? ≠ some (.host (.writeReg 16 v))) ∧
      step ((State.reset.raise .outOfRange).setAgenda [.progress]) = .next t :=
  ⟨_, by decide, by decide, fun v h => Turn.noConfusion (Option.some.inj h), rfl⟩

theorem witness_BusyReachesDoneWithoutHost :
    ((State.reset.issue 0x0A).setAgenda [.progress, .progress]).busy = true ∧
    ((State.reset.issue 0x0A).setAgenda [.progress, .progress]).agenda = List.replicate 2 .progress := by decide

theorem witness_ProgressRisesWhileBusy :
    (State.reset.issue 0x01).busy = true ∧ (State.reset.issue 0x01).progress.toNat ≤ 99 := by decide

theorem witness_FinalProgressObeysLaws_ok :
    ∃ t, State.reset.progress.toNat ≤ 100 ∧ exec .capacity State.reset = .next t ∧ t.status = 0x02#8 :=
  ⟨_, by decide, rfl, by decide⟩

theorem witness_FinalProgressObeysLaws_notOk :
    ∃ t, State.reset.progress.toNat ≤ 100 ∧ exec .wrbit State.reset = .next t ∧ t.status ≠ 0x02#8 :=
  ⟨_, by decide, rfl, by decide⟩

theorem witness_FailedCommandChangesNothing :
    ∃ t, State.reset.progress.toNat ≤ 100 ∧ exec .decode State.reset = .next t ∧ t.status ≠ 0x02#8 :=
  ⟨_, by decide, rfl, by decide⟩

theorem witness_FailedCommandChangesNothing_completion :
    ∃ t, (State.reset.issue 0x1A).busy = true ∧ (State.reset.issue 0x1A).progress.toNat ≤ 100 ∧
      completeTurn (State.reset.issue 0x1A) = .next t ∧ t.status ≠ 0x02#8 :=
  ⟨_, by decide, by decide, rfl, by decide⟩

theorem witness_RegistersWrittenOnlyByListedCommands : ∃ t, exec .pack State.reset = .next t := ⟨_, rfl⟩

theorem witness_SpacesWrittenOnlyByListedCommands : ∃ t, exec .embed State.reset = .next t := ⟨_, rfl⟩

theorem witness_CommandWritesOnlyItsWriteSet :
    ∃ t, exec .wrbit ((loaded 2 1 [0, 0, 0, 0, 0, 0, 0, 0]).setIdx 5) = .next t ∧
      4 ∉ (writeSet .wrbit ((loaded 2 1 [0, 0, 0, 0, 0, 0, 0, 0]).setIdx 5)).pix ∧
      0 ∉ (writeSet .wrbit ((loaded 2 1 [0, 0, 0, 0, 0, 0, 0, 0]).setIdx 5)).msg ∧
      0 ∉ (writeSet .wrbit ((loaded 2 1 [0, 0, 0, 0, 0, 0, 0, 0]).setIdx 5)).bits :=
  ⟨_, rfl, by decide, by decide, by decide⟩

theorem witness_HostWritesAndReadsOperandRegister :
    State.reset.busy = false ∧ ∀ p ∈ [(0, 65535, 16), (6, 1, 1), (8, 2 ^ 36 - 1, 36), (10, 2 ^ 32 - 1, 32)],
      p.1 ≤ 10 ∧ p.1 ≠ 9 ∧ portWidth p.1 = some p.2.2 ∧ p.2.1 < 2 ^ p.2.2 := by decide

/-- The first value too wide, for an operand register, `CAP`, `CMD` and `PROGRESS`. -/
theorem witness_HostWritesAndReadsOperandRegister_tooWide :
    State.reset.busy = false ∧ ∀ p ∈ [(6, 2, 1), (8, 2 ^ 36, 36), (9, 2 ^ 32, 32), (16, 256, 8), (18, 128, 7)],
      portWidth p.1 = some p.2.2 ∧ 2 ^ p.2.2 ≤ p.2.1 := by decide

theorem witness_HostReadReturnsEachRegister : (State.reset.setCap 29).busy = false := by decide

/-- Absent numbers at both ends, `CMD`, and the first values too wide, while a command runs. -/
theorem witness_OtherRegistersWhileBusy :
    (State.reset.issue 0x01).busy = true ∧ (∀ n ∈ [11, 15, 19], (11 ≤ n ∧ n ≤ 15) ∨ 19 ≤ n) ∧
    ((11 ≤ 16 ∧ 16 ≤ 16) ∨ 19 ≤ 16) ∧ 255 < 2 ^ 8 ∧ 127 < 2 ^ 7 ∧
    ∀ p ∈ [(16, 256, 8), (17, 256, 8), (18, 128, 7)], 11 ≤ p.1 ∧ portWidth p.1 = some p.2.2 ∧ 2 ^ p.2.2 ≤ p.2.1 := by decide

theorem witness_ReadOnlyAndAbsentRegistersIgnoreWrites :
    State.reset.busy = false ∧ 100 < 2 ^ 7 ∧ ∀ n ∈ [11, 15, 19], (11 ≤ n ∧ n ≤ 15) ∨ 19 ≤ n := by decide

theorem witness_HostWritesAndReadsCell :
    State.reset.busy = false ∧ ∀ p ∈ [(Space.pix, 2 ^ 36 - 1, 255), (.msg, 2 ^ 32 - 1, 255), (.pwd, 65535, 65535), (.bits, 0, 1)],
      p.2.1 < spaceCells p.1 ∧ p.2.2 < 2 ^ cellWidth p.1 := by decide

/-- The first value too wide and the first index outside, in each space. -/
theorem witness_HostWritesAndReadsCell_stops :
    State.reset.busy = false ∧
    (∀ p ∈ [(Space.pix, 2 ^ 36 - 1, 256), (.msg, 0, 256), (.pwd, 65535, 65536), (.bits, 0, 2)],
      p.2.1 < spaceCells p.1 ∧ 2 ^ cellWidth p.1 ≤ p.2.2) ∧
    ∀ p ∈ [(Space.pix, 2 ^ 36), (.msg, 2 ^ 32), (.pwd, 65536), (.bits, 2 ^ 36)], spaceCells p.1 ≤ p.2 := by decide

theorem witness_HostAccessWhileBusyIsRefused : (State.reset.issue 0x0A).busy = true ∧ 10 ≤ 10 := by decide

theorem witness_ResetKeepsCellsOutsideWriteSet_reserved :
    (State.reset.issue 0x1A).busy = true ∧ decodeWord (State.reset.issue 0x1A).inFlight = .error .zeroFieldSet := by decide

/-- Two idle engines with other registers and another message. -/
theorem witness_IdleResetForgetsMemories :
    (withMsg State.reset [0x80]).busy = false ∧ (State.reset.setKey 7).busy = false ∧
    (withMsg State.reset [0x80]).SameModelFields (State.reset.setKey 7) ∧
    (State.reset.setKey 7).draws = (withMsg State.reset [0x80]).draws := by decide

theorem witness_ResetKeepsCellsOutsideWriteSet_running :
    ((withMsg State.reset [0x80]).issue 0x02).busy = true ∧
    decodeWord ((withMsg State.reset [0x80]).issue 0x02).inFlight = .ok .pack ∧
    8 ∉ (writeSet .pack ((withMsg State.reset [0x80]).issue 0x02)).bits ∧
    0 ∉ (writeSet .pack ((withMsg State.reset [0x80]).issue 0x02)).pix := by decide

/-- The last byte count that fits `MLEN`. -/
theorem witness_UnpackCollectsBits_ok :
    ((State.reset.setBlen 34359738360).blen.toNat + 7) / 8 ≤ 2 ^ 32 - 1 := by decide

/-- The first that does not. -/
theorem witness_UnpackCollectsBits_outOfRange :
    (State.reset.setBlen 34359738361).progress.toNat ≤ 100 ∧
    2 ^ 32 - 1 < ((State.reset.setBlen 34359738361).blen.toNat + 7) / 8 := by decide

theorem witness_WrbitWritesOneSample_ok : ((shaped 2 1).setIdx 7).idx.toNat < ((shaped 2 1).setIdx 7).pixlen.toNat := by
  decide

theorem witness_WrbitWritesOneSample_outOfRange :
    ((shaped 2 1).setIdx 8).progress.toNat ≤ 100 ∧ ((shaped 2 1).setIdx 8).pixlen.toNat ≤ ((shaped 2 1).setIdx 8).idx.toNat := by
  decide

theorem witness_RdbitReadsOneSample_ok : ((shaped 2 1).setIdx 0).idx.toNat < ((shaped 2 1).setIdx 0).pixlen.toNat := by
  decide

theorem witness_RdbitReadsOneSample_outOfRange :
    State.reset.progress.toNat ≤ 100 ∧ State.reset.pixlen.toNat ≤ State.reset.idx.toNat := by decide

/-- `PIXLEN` one too small: the premises of the `InvalidInput` clauses of EMBED, EXTRACT, ENCODE and DECODE. -/
theorem witness_shapeMismatch :
    ((shaped 2 1).setPixlen 7).progress.toNat ≤ 100 ∧
    ((shaped 2 1).setPixlen 7).pixlen.toNat ≠
      4 * (((shaped 2 1).setPixlen 7).w.toNat * ((shaped 2 1).setPixlen 7).h.toNat) := by decide

/-- `POS + BLEN = N + 1`: the `OutOfRange` clauses of EMBED and EXTRACT. -/
theorem witness_streamOutOfRange (s : State) (hs : s = ((shaped 2 1).setPos 5).setBlen 2) :
    s.progress.toNat ≤ 100 ∧ s.pixlen.toNat = 4 * (s.w.toNat * s.h.toNat) ∧
    3 * (s.w.toNat * s.h.toNat) < s.pos.toNat + s.blen.toNat := by subst hs; decide

/-- `POS + BLEN = N`: the `OK` clauses of EMBED and EXTRACT, and EmbedThenExtractReturnsBits. -/
theorem witness_streamFits (s : State) (hs : s = ((shaped 2 1).setPos 4).setBlen 2) :
    s.pixlen.toNat = 4 * (s.w.toNat * s.h.toNat) ∧
    s.pos.toNat + s.blen.toNat ≤ 3 * (s.w.toNat * s.h.toNat) := by subst hs; decide

/-- V9: 8 by 3, `MLEN = capacity + 1`. -/
theorem witness_EncodeWritesFrame_capacityExceeded (s : State) (hs : s = (shaped 8 3).setMlen 2) :
    s.progress.toNat ≤ 100 ∧ s.pixlen.toNat = 4 * (s.w.toNat * s.h.toNat) ∧
    capacity s.w.toNat s.h.toNat < s.mlen.toNat := by subst hs; decide

/-- V9: 7 by 3, the empty message. -/
theorem witness_EncodeWritesFrame_outOfRange (s : State) (hs : s = shaped 7 3) :
    s.progress.toNat ≤ 100 ∧ s.pixlen.toNat = 4 * (s.w.toNat * s.h.toNat) ∧
    s.mlen.toNat ≤ capacity s.w.toNat s.h.toNat ∧ 3 * (s.w.toNat * s.h.toNat) < 64 + 8 * s.mlen.toNat := by
  subst hs; decide

/-- V9: 8 by 3, one byte fills the stream exactly. -/
theorem witness_EncodeWritesFrame_ok (s : State) (hs : s = (shaped 8 3).setMlen 1) :
    s.pixlen.toNat = 4 * (s.w.toNat * s.h.toNat) ∧ s.mlen.toNat ≤ capacity s.w.toNat s.h.toNat ∧
    64 + 8 * s.mlen.toNat ≤ 3 * (s.w.toNat * s.h.toNat) := by subst hs; decide

/-- V10 row 9: 27 carrier samples. -/
theorem witness_DecodeReadsFrame_noHeader (s : State) (hs : s = shaped 3 3) :
    s.progress.toNat ≤ 100 ∧ s.pixlen.toNat = 4 * (s.w.toNat * s.h.toNat) ∧ 3 * (s.w.toNat * s.h.toNat) < 32 := by
  subst hs; decide

/-- A header image declares what was put there (V10). -/
theorem declares_headerImage :
    (headerImage 11 1 0 0x80).Declares 0 ∧ (headerImage 11 1 1000001 0x80).Declares 1000001 ∧
    (headerImage 11 1 1 0x80).Declares 1 ∧ (headerImage 11 1 1000000 0x80).Declares 1000000 ∧
    (headerImage 2 7 1 0x80).Declares 1 := by
  unfold State.Declares
  decide +kernel

/-- V10 rows 1 and 6. -/
theorem witness_DecodeReadsFrame_gate :
    (headerImage 11 1 0 0x80).progress.toNat ≤ 100 ∧
    (headerImage 11 1 0 0x80).pixlen.toNat = 4 * ((headerImage 11 1 0 0x80).w.toNat * (headerImage 11 1 0 0x80).h.toNat) ∧
    32 ≤ 3 * ((headerImage 11 1 0 0x80).w.toNat * (headerImage 11 1 0 0x80).h.toNat) ∧
    (headerImage 11 1 0 0x80).Declares 0 ∧ (0#32).toNat = 0 ∧
    (headerImage 11 1 1000001 0x80).Declares 1000001 ∧ 1000000 < (1000001#32).toNat :=
  ⟨by decide, by decide, by decide, declares_headerImage.1, by decide, declares_headerImage.2.1, by decide⟩

/-- V10 rows 10 and 5. -/
theorem witness_DecodeReadsFrame_outOfRange (s : State) (hs : s = headerImage 11 1 1 0x80) :
    s.progress.toNat ≤ 100 ∧ s.pixlen.toNat = 4 * (s.w.toNat * s.h.toNat) ∧ 32 ≤ 3 * (s.w.toNat * s.h.toNat) ∧
    s.Declares 1 ∧ 1 ≤ (1#32).toNat ∧ (1000000#32).toNat ≤ 1000000 ∧
    3 * (s.w.toNat * s.h.toNat) < 32 + 8 * (1#32).toNat ∧ (headerImage 11 1 1000000 0x80).Declares 1000000 := by
  subst hs
  exact ⟨by decide, by decide, by decide, declares_headerImage.2.2.1, by decide, by decide, by decide,
    declares_headerImage.2.2.2.1⟩

/-- V10 row 11; also DecodeEqualsExtractThenUnpack, with no password. -/
theorem witness_DecodeReadsFrame_ok (s : State) (hs : s = headerImage 2 7 1 0x80) :
    s.pixlen.toNat = 4 * (s.w.toNat * s.h.toNat) ∧ s.Declares 1 ∧ 1 ≤ (1#32).toNat ∧ (1#32).toNat ≤ 1000000 ∧
    32 + 8 * (1#32).toNat ≤ 3 * (s.w.toNat * s.h.toNat) ∧ s.plen = 0#16 := by
  subst hs
  exact ⟨by decide, declares_headerImage.2.2.2.2, by decide, by decide, by decide, by decide⟩

theorem witness_InvalidInputExactlyOnShapeMismatch_any : ∃ t, exec .extract ((shaped 2 1).setPixlen 7) = .next t := ⟨_, rfl⟩

theorem witness_InvalidInputExactlyOnShapeMismatch_empty :
    ((State.reset.setH 5).setMlen 1).w = 0#16 ∧ ((State.reset.setH 5).setMlen 1).pixlen = 0#36 ∧
    ((State.reset.setH 5).setMlen 1).mlen ≠ 0#32 ∧
    State.reset.w = 0#16 ∧ State.reset.pixlen = 0#36 ∧ State.reset.mlen = 0#32 := by decide

theorem witness_CapacityExceededExactlyWhenTooLong : ∃ t, exec .encode ((shaped 8 3).setMlen 2) = .next t := ⟨_, rfl⟩

/-- V1 and 40_capacity R80 at the edges: 21, 22, 23 and 24 pixels. -/
theorem witness_CapacityFacts :
    capacity 23 1 = 0 ∧ capacity 24 1 = 1 ∧ 3 * 7 = 7 * 3 ∧ 64 ≤ 3 * 22 * 1 ∧ 3 * (21 * 1) < 64 ∧ 64 ≤ 3 * (22 * 1) := by
  decide

/-- V9: 7 by 3, the empty message. -/
theorem witness_FrameFitsExactlyUpToCapacity (s : State) (hs : s = shaped 7 3) :
    s.pixlen.toNat = 4 * (s.w.toNat * s.h.toNat) ∧ 3 * (s.w.toNat * s.h.toNat) < 64 ∧ s.mlen = 0#32 := by
  subst hs; decide

theorem witness_PackingAndUnpackingAreInverse : (List.replicate 16 true).length % 8 = 0 := by decide

/-- V4: sample 41 is pixel 10 Green, position 31. -/
theorem witness_StreamMapProperties : 30 < 31 ∧ 41 % 4 ≠ 3 ∧ sidx 31 = 41 := by decide

/-- A write of two bits at position 2: an alpha sample, and positions on both sides of the range. -/
theorem witness_StreamWritePreservesImage :
    3 % 4 = 3 ∧ 1 ≤ 1 ∧ 1 < 2 ∧ 2 + [true, true].length ≤ 4 := by decide

/-- V6: two keys congruent modulo 256, and a multiple of 256. -/
theorem witness_OnlyLowKeyByteMatters :
    906277200 % 256 = 96336 % 256 ∧ [0x48#8, 0x65#8] ≠ [] ∧ 1 < [0x48#8, 0x65#8].length ∧ 2147483648 % 256 = 0 := by decide

theorem witness_OnlyPixelCountMatters :
    ∃ t, (6#16).toNat * (4#16).toNat = ((shaped 8 3).setMlen 1).w.toNat * ((shaped 8 3).setMlen 1).h.toNat ∧
      exec .encode ((shaped 8 3).setMlen 1) = .next t := ⟨_, by decide, rfl⟩

theorem witness_CodecIgnoresKeyCapAndBits :
    (Instr.encode = .encode ∨ Instr.encode = .decode) ∧ ∃ t, exec .encode ((shaped 8 3).setMlen 1) = .next t :=
  ⟨by decide, _, rfl⟩

theorem witness_WriteBitThenReadBit : ((shaped 2 1).setIdx 7).idx.toNat < ((shaped 2 1).setIdx 7).pixlen.toNat := by decide

/-- Two buffers with the same header and different samples after it (V10 rows 11 and 12). -/
theorem witness_DecodeOutcomeDependsOnHeaderOnly_header :
    (headerImage 2 7 1 0x81).w = (headerImage 2 7 1 0x80).w ∧ (headerImage 2 7 1 0x81).h = (headerImage 2 7 1 0x80).h ∧
    (headerImage 2 7 1 0x81).pixlen = (headerImage 2 7 1 0x80).pixlen ∧
    (∀ k, k < 32 → (headerImage 2 7 1 0x81).streamAt k = (headerImage 2 7 1 0x80).streamAt k) ∧
    (∃ t, exec .decode (headerImage 2 7 1 0x80) = .next t) ∧ ∃ v, exec .decode (headerImage 2 7 1 0x81) = .next v :=
  ⟨by decide, by decide, by decide, by decide +kernel, ⟨_, rfl⟩, _, rfl⟩

/-- V10 row 1 in a small image. -/
theorem witness_DecodeOutcomeDependsOnHeaderOnly_zero :
    (headerImage 2 7 0 0x80).pixlen.toNat = 4 * ((headerImage 2 7 0 0x80).w.toNat * (headerImage 2 7 0 0x80).h.toNat) ∧
    ∀ k, k < 3 * ((headerImage 2 7 0 0x80).w.toNat * (headerImage 2 7 0 0x80).h.toNat) →
      (headerImage 2 7 0 0x80).streamAt k = false := ⟨by decide, by decide +kernel⟩

/-- One byte in the 8 by 3 image, without and with a password. -/
def sender (p : List CharCode) : State := withPwd (withMsg (loaded 8 3 (List.replicate 96 0x80)) [0x68]) p

/-- An engine `s` with another message length, key and password. -/
def rescribbled (s : State) (q : List CharCode) : State := withPwd ((s.setMlen 0).setKey 7) q

theorem rescribbled_encoded (s : State) (q : List CharCode) :
    (rescribbled (effectOf .encode s).succeed q).w = s.w ∧ (rescribbled (effectOf .encode s).succeed q).h = s.h ∧
    (rescribbled (effectOf .encode s).succeed q).pixlen = s.pixlen := by
  simp [rescribbled, withPwd, effectOf, encodeEffect]

theorem rescribbled_samePix (s : State) (q : List CharCode) : s.SamePix (rescribbled s q) := fun _ => rfl

/-- The engine after the encode, with another message length, key and password. -/
def receiver (p q : List CharCode) : State := rescribbled (effectOf .encode (sender p)).succeed q

theorem witness_EncodeThenDecodeReturnsMessage :
    (sender [97]).pixlen.toNat = 4 * ((sender [97]).w.toNat * (sender [97]).h.toNat) ∧ 1 ≤ (sender [97]).mlen.toNat ∧
    (sender [97]).mlen.toNat ≤ 1000000 ∧
    (sender [97]).mlen.toNat ≤ capacity (sender [97]).w.toNat (sender [97]).h.toNat ∧
    (receiver [97] [97]).w = (sender [97]).w ∧ (receiver [97] [97]).h = (sender [97]).h ∧
    (receiver [97] [97]).pixlen = (sender [97]).pixlen ∧ (receiver [97] [97]).plen = (sender [97]).plen ∧
    (∀ a, a < (sender [97]).plen.toNat → (receiver [97] [97]).pwdAt a = (sender [97]).pwdAt a) ∧
    ∃ t, exec .encode (sender [97]) = .next t ∧ t.SamePix (receiver [97] [97]) :=
  ⟨by decide, by decide, by decide, by decide, (rescribbled_encoded _ _).1, (rescribbled_encoded _ _).2.1,
    (rescribbled_encoded _ _).2.2, rfl, by decide +kernel, _, exec_ok (encodeCheck_ok.2 (by decide)), rescribbled_samePix _ _⟩

/-- The password clauses of WrongPasswordGarblesSilently: two passwords, one on either side only. -/
theorem witness_WrongPasswordGarblesSilently :
    (sender [97]).plen ≠ 0#16 ∧ (receiver [97] [98]).plen ≠ 0#16 ∧ (receiver [97] []).plen = 0#16 ∧
    (sender []).plen = 0#16 ∧ (receiver [] [98]).plen ≠ 0#16 ∧
    (receiver [97] [98]).w = (sender [97]).w ∧ (receiver [97] [98]).h = (sender [97]).h ∧
    (receiver [97] [98]).pixlen = (sender [97]).pixlen ∧
    ∃ t, exec .encode (sender [97]) = .next t ∧ t.SamePix (receiver [97] [98]) :=
  ⟨by decide, (by decide : (1#16) ≠ 0#16), rfl, by decide, (by decide : (1#16) ≠ 0#16), (rescribbled_encoded _ _).1,
    (rescribbled_encoded _ _).2.1, (rescribbled_encoded _ _).2.2, _, exec_ok (encodeCheck_ok.2 (by decide)), rescribbled_samePix _ _⟩

/-- The second engine of P2, for one byte in the 8 by 3 image. -/
def byHand : State :=
  withMsg (loaded 8 3 (List.replicate 96 0x80)) [0x00, 0x00, 0x00, 0x01, 0x68, 0x00, 0x00, 0x00, 0x00]

theorem witness_EncodeEqualsPackThenEmbed :
    (sender []).pixlen.toNat = 4 * ((sender []).w.toNat * (sender []).h.toNat) ∧
    (sender []).mlen.toNat ≤ capacity (sender []).w.toNat (sender []).h.toNat ∧
    64 + 8 * (sender []).mlen.toNat ≤ 3 * ((sender []).w.toNat * (sender []).h.toNat) ∧
    byHand.w = (sender []).w ∧ byHand.h = (sender []).h ∧ byHand.pixlen = (sender []).pixlen ∧ (sender []).SamePix byHand ∧
    byHand.pos = 0#36 ∧ byHand.mlen.toNat = (sender []).mlen.toNat + 8 ∧
    (∀ i (h : i < (frameBytes (sender []).mlen (encodeBody (sender []))).length),
      byHand.msgAt i = (frameBytes (sender []).mlen (encodeBody (sender [])))[i]) :=
  ⟨by decide, by decide, by decide, by decide, by decide, by decide, fun _ => rfl, by decide, by decide, by decide +kernel⟩

theorem witness_EveryStepKeepsInvariant :
    (State.reset.issue 0x01).Inv ∧ ∃ t, step (State.reset.issue 0x01) = .next t := ⟨by decide, _, rfl⟩

end Sys2Proof.Tests
end

/-!
PROOFS of the family 10_state: what a host access, a turn of the engine and a command can do to the registers, the cells and
the life of a command, each said once; then the invariant, turn by turn; then the obligations, assembled from these lemmas.
-/
namespace Sys2Proof.Machine

section
/-! ### What a host access answers -/

variable {s t : State} {n v : Nat} {sp : Space} {a : Nat}

theorem fitsPort_eq {k : Nat} (h : portWidth n = some k) : fitsPort n v = decide (v < 2 ^ k) := by
  simp [fitsPort, h]

/-- The host reaches register `n` when no command runs, and at any time when it is no operand register (70_reset R166). -/
theorem reachable_iff : (s.busy && isOperandReg n) = false ↔ s.busy = false ∨ 10 < n := by
  cases s.busy <;> simp [isOperandReg]

theorem hostAct_writeReg_fits (hr : s.busy = false ∨ 10 < n) (hf : fitsPort n v = true) :
    hostAct (.writeReg n v) s = .next (s.portWrite n v) := by
  simp [hostAct, reachable_iff.2 hr, hf]

theorem hostAct_writeReg_wide {k : Nat} (hr : s.busy = false ∨ 10 < n) (hk : portWidth n = some k) (hv : 2 ^ k ≤ v) :
    hostAct (.writeReg n v) s = .refused .hostValueTooWide := by
  simp [hostAct, reachable_iff.2 hr, fitsPort_eq hk, Nat.not_lt.2 hv]

theorem hostAct_readReg (hr : s.busy = false ∨ 10 < n) : hostAct (.readReg n) s = .next (s.setHostData (s.portRead n)) := by
  simp [hostAct, reachable_iff.2 hr]

theorem hostAct_writeCell_fits (hb : s.busy = false) (ha : a < spaceCells sp) (hv : v < 2 ^ cellWidth sp) :
    hostAct (.writeCell sp a v) s = .next (s.cellWrite sp a v) := by
  simp [hostAct, hb, Nat.not_le.2 ha, Nat.not_le.2 hv]

theorem hostAct_writeCell_wide (hb : s.busy = false) (ha : a < spaceCells sp) (hv : 2 ^ cellWidth sp ≤ v) :
    hostAct (.writeCell sp a v) s = .refused .hostValueTooWide := by
  simp [hostAct, hb, Nat.not_le.2 ha, hv]

theorem hostAct_writeCell_outside (hb : s.busy = false) (ha : spaceCells sp ≤ a) :
    hostAct (.writeCell sp a v) s = .fault (.noSuchCell sp a) := by
  simp [hostAct, hb, ha]

theorem hostAct_readCell (hb : s.busy = false) (ha : a < spaceCells sp) :
    hostAct (.readCell sp a) s = .next (s.setHostData (s.cellRead sp a)) := by
  simp [hostAct, hb, Nat.not_le.2 ha]

theorem hostAct_readCell_outside (hb : s.busy = false) (ha : spaceCells sp ≤ a) :
    hostAct (.readCell sp a) s = .fault (.noSuchCell sp a) := by
  simp [hostAct, hb, ha]

/-- Everything a host action that answers a next state can do, with the guards it passed. -/
theorem hostAct_cases {act : HostAction} (h : hostAct act s = .next t) :
    (∃ n v, act = .writeReg n v ∧ (s.busy = false ∨ 10 < n) ∧ fitsPort n v = true ∧ t = s.portWrite n v) ∨
    (∃ n, act = .readReg n ∧ (s.busy = false ∨ 10 < n) ∧ t = s.setHostData (s.portRead n)) ∨
    (∃ sp a v, act = .writeCell sp a v ∧ s.busy = false ∧ a < spaceCells sp ∧ v < 2 ^ cellWidth sp ∧
      t = s.cellWrite sp a v) ∨
    (∃ sp a, act = .readCell sp a ∧ s.busy = false ∧ a < spaceCells sp ∧ t = s.setHostData (s.cellRead sp a)) ∨
    (act = .reset ∧ t = s.applyReset) := by
  cases act with
  | writeReg n v =>
    simp only [hostAct] at h
    split_ifs at h with hr hf
    cases h
    exact .inl ⟨n, v, rfl, reachable_iff.1 (by simpa using hr), hf, rfl⟩
  | readReg n =>
    simp only [hostAct] at h
    split_ifs at h with hr
    cases h
    exact .inr (.inl ⟨n, rfl, reachable_iff.1 (by simpa using hr), rfl⟩)
  | writeCell sp a v =>
    simp only [hostAct] at h
    split_ifs at h with hb ha hv
    cases h
    exact .inr (.inr (.inl ⟨sp, a, v, rfl, by simpa using hb, Nat.not_le.1 ha, Nat.not_le.1 hv, rfl⟩))
  | readCell sp a =>
    simp only [hostAct] at h
    split_ifs at h with hb ha
    cases h
    exact .inr (.inr (.inr (.inl ⟨sp, a, rfl, by simpa using hb, Nat.not_le.1 ha, rfl⟩)))
  | reset =>
    cases h
    exact .inr (.inr (.inr (.inr ⟨rfl, rfl⟩)))

end

/-! ### The engine's own turns -/

theorem completeTurn_idle {s : State} (hb : s.busy = false) : completeTurn s = .next s := by
  simp [completeTurn, hb]

theorem completeTurn_busy {s : State} (hb : s.busy = true) : completeTurn s = runInFlight s := by
  simp [completeTurn, hb]

theorem runInFlight_ok {s : State} {i : Instr} (h : decodeWord s.inFlight = .ok i) : runInFlight s = exec i s := by
  simp [runInFlight, h]

theorem progressTurn_idle {s : State} (hb : s.busy = false) : progressTurn s = .next s := by
  simp [progressTurn, hb]

theorem progressTurn_busy {s : State} (hb : s.busy = true) : progressTurn s = .next s.raiseProgress := by
  simp [progressTurn, hb]

/-! ### `CMD` writes and `PROGRESS` raises (10_state R26, R28) -/

theorem portWrite_cmd_idle {s : State} (v : Nat) (hb : s.busy = false) : s.portWrite 16 v = s.issue (BitVec.ofNat 8 v) := by
  simp [State.portWrite, hb]

theorem portWrite_cmd_busy {s : State} (v : Nat) (hb : s.busy = true) : s.portWrite 16 v = s := by
  simp [State.portWrite, hb]

/-- A change of the status registers, the word in flight and the draw counter touches no operand register and no cell. -/
theorem onlyStatus_update (s : State) (status : BitVec 8) (progress : BitVec 7) (w : CmdWord) (draws : Nat) :
    s.OnlyStatus { s with status := status, progress := progress, inFlight := w, draws := draws } :=
  ⟨⟨⟨rfl, rfl, rfl, rfl, rfl⟩, rfl, rfl, rfl, rfl, rfl, rfl⟩, fun _ => rfl, fun _ => rfl, fun _ => rfl, fun _ => rfl,
    rfl, rfl, rfl⟩

theorem onlyStatus_issue (s : State) (w : CmdWord) : s.OnlyStatus (s.issue w) :=
  onlyStatus_update s statusBusy 0 w s.draws

theorem onlyStatus_raiseProgress (s : State) : s.OnlyStatus s.raiseProgress :=
  onlyStatus_update s s.status (progressRaised s) s.inFlight (s.draws + 1)

/-! ### Register ports -/

/-- A read of register `m` does not see a write of another register, unless it issues a command. -/
theorem portRead_portWrite_other {s : State} {n m : Nat} (v : Nat) (hn : n ≠ 16) (hm : m ≠ n) :
    (s.portWrite n v).portRead m = s.portRead m := by
  unfold State.portWrite
  split
  all_goals
    unfold State.portRead
    split <;> simp_all

/-- Each writable operand register takes a fitting value whole (10_state R10, R21). -/
theorem portRead_portWrite_same {s : State} {n v : Nat} (hn : n ≤ 10) (h9 : n ≠ 9) (hf : fitsPort n v = true) :
    (s.portWrite n v).portRead n = v := by
  match n, hn, h9, hf with
  | 0, _, _, hf => exact Nat.mod_eq_of_lt (of_decide_eq_true hf)
  | 1, _, _, hf => exact Nat.mod_eq_of_lt (of_decide_eq_true hf)
  | 2, _, _, hf => exact Nat.mod_eq_of_lt (of_decide_eq_true hf)
  | 3, _, _, hf => exact Nat.mod_eq_of_lt (of_decide_eq_true hf)
  | 4, _, _, hf => exact Nat.mod_eq_of_lt (of_decide_eq_true hf)
  | 5, _, _, hf => exact Nat.mod_eq_of_lt (of_decide_eq_true hf)
  | 6, _, _, hf =>
    have hv : v < 2 := of_decide_eq_true hf
    have hbit : v = 0 ∨ v = 1 := by omega
    rcases hbit with rfl | rfl <;> rfl
  | 7, _, _, hf => exact Nat.mod_eq_of_lt (of_decide_eq_true hf)
  | 8, _, _, hf => exact Nat.mod_eq_of_lt (of_decide_eq_true hf)
  | 9, _, h9, _ => exact absurd rfl h9
  | 10, _, _, hf => exact Nat.mod_eq_of_lt (of_decide_eq_true hf)
  | n + 11, hn, _, _ => exact absurd hn (by omega)

theorem portWrite_keepsCells {s : State} {n : Nat} (v : Nat) (hn : n ≠ 16) :
    s.SamePix (s.portWrite n v) ∧ s.SameMsg (s.portWrite n v) ∧ s.SamePwd (s.portWrite n v) ∧
    s.SameBits (s.portWrite n v) := by
  unfold State.portWrite State.SamePix State.SameMsg State.SamePwd State.SameBits
  split <;> simp_all

theorem busy_portWrite {s : State} {n : Nat} (v : Nat) (hn : n ≠ 16) : (s.portWrite n v).busy = s.busy := by
  rw [State.busy, (portWrite_keepsStatus s n v hn).1, State.busy]

@[simp] theorem portRead_setHostData (s : State) (v m : Nat) : (s.setHostData v).portRead m = s.portRead m := by rfl

/-! ### Numbers that name no register (10_state R21, R25) -/

theorem portWidth_absent {n : Nat} (h : (11 ≤ n ∧ n ≤ 15) ∨ 19 ≤ n) : portWidth n = none := by
  unfold portWidth
  split <;> simp_all

theorem portWrite_absent {n : Nat} (s : State) (v : Nat) (h : (11 ≤ n ∧ n ≤ 15) ∨ 19 ≤ n) : s.portWrite n v = s := by
  unfold State.portWrite
  split <;> simp_all

/-- `CMD` and the numbers that name no register read 0. -/
theorem portRead_absent {n : Nat} (s : State) (h : (11 ≤ n ∧ n ≤ 16) ∨ 19 ≤ n) : s.portRead n = 0 := by
  unfold State.portRead
  split <;> simp_all

theorem fitsPort_absent {n : Nat} (v : Nat) (h : (11 ≤ n ∧ n ≤ 15) ∨ 19 ≤ n) : fitsPort n v = true := by
  simp [fitsPort, portWidth_absent h]

/-! ### Cell ports -/

theorem msgAt_writeMsg_one (s : State) (a b : Nat) (v : Byte) :
    (s.writeMsg a [v]).msgAt b = if b = a then v else s.msgAt b := by
  simp [State.msgAt, memWriteSeq]

theorem bitsAt_writeBits_one (s : State) (a b : Nat) (v : Bit) :
    (s.writeBits a [v]).bitsAt b = if b = a then v else s.bitsAt b := by
  simp [State.bitsAt, memWriteSeq]

/-- A cell takes a fitting value whole (10_state R30 to R33). -/
theorem cellRead_cellWrite_same {sp : Space} {v : Nat} (s : State) (a : Nat) (hv : v < 2 ^ cellWidth sp) :
    (s.cellWrite sp a v).cellRead sp a = v := by
  cases sp with
  | pix => simpa [State.cellRead, State.cellWrite, cellWidth] using hv
  | msg => simpa [State.cellRead, State.cellWrite, msgAt_writeMsg_one, cellWidth] using hv
  | pwd => simpa [State.cellRead, State.cellWrite, cellWidth] using hv
  | bits =>
    have hv' : v = 0 ∨ v = 1 := by simp [cellWidth] at hv; omega
    rcases hv' with rfl | rfl <;> simp [State.cellRead, State.cellWrite, bitsAt_writeBits_one]

/-- No cell of another space, and no other cell of the same space, sees a cell write. -/
theorem cellRead_cellWrite_other {sp sp' : Space} {a b : Nat} (s : State) (v : Nat) (h : sp' ≠ sp ∨ b ≠ a) :
    (s.cellWrite sp a v).cellRead sp' b = s.cellRead sp' b := by
  by_cases hsp : sp' = sp
  · subst hsp
    have hb : b ≠ a := h.resolve_left (fun hne => hne rfl)
    cases sp' <;> simp [State.cellRead, State.cellWrite, msgAt_writeMsg_one, bitsAt_writeBits_one, hb]
  · cases sp with
    | pix => cases sp' with
      | pix => exact absurd rfl hsp
      | _ => rfl
    | msg => cases sp' with
      | msg => exact absurd rfl hsp
      | _ => rfl
    | pwd => cases sp' with
      | pwd => exact absurd rfl hsp
      | _ => rfl
    | bits => cases sp' with
      | bits => exact absurd rfl hsp
      | _ => rfl

theorem portRead_cellWrite (s : State) (sp : Space) (a v n : Nat) : (s.cellWrite sp a v).portRead n = s.portRead n := by
  cases sp <;> rfl

theorem busy_cellWrite (s : State) (sp : Space) (a v : Nat) : (s.cellWrite sp a v).busy = s.busy := by
  cases sp <;> rfl

/-! ### What each effect is, command by command -/

@[simp] theorem effectOf_capacity (s : State) :
    effectOf .capacity s = s.setCap (BitVec.ofNat 32 (capacity s.w.toNat s.h.toNat)) := by rfl
@[simp] theorem effectOf_pack (s : State) :
    effectOf .pack s = (s.writeBits 0 (bytesToBits s.message)).setBlen (BitVec.ofNat 36 (8 * s.mlen.toNat)) := by rfl
@[simp] theorem effectOf_unpack (s : State) :
    effectOf .unpack s =
      (s.writeMsg 0 (bitsToBytes s.bitSeq)).setMlen (BitVec.ofNat 32 (ceilDiv8 s.blen.toNat)) := by rfl
@[simp] theorem effectOf_wrbit (s : State) : effectOf .wrbit s = s.writeBit s.idx.toNat s.bit := by rfl
@[simp] theorem effectOf_rdbit (s : State) : effectOf .rdbit s = s.setBit (rbit (s.pixAt s.idx.toNat)) := by rfl
@[simp] theorem effectOf_pwhash (s : State) :
    effectOf .pwhash s = s.setKey (BitVec.ofNat 32 (passwordHash s.password)) := by rfl
@[simp] theorem effectOf_xmask (s : State) :
    effectOf .xmask s = s.writeMsg 0 (maskSeq s.key.toNat s.message) := by rfl
@[simp] theorem effectOf_embed (s : State) :
    effectOf .embed s = (s.writeStream s.pos.toNat s.bitSeq).advancePos := by rfl
@[simp] theorem effectOf_extract (s : State) :
    effectOf .extract s = (s.writeBits 0 (s.readStream s.pos.toNat s.blen.toNat)).advancePos := by rfl
@[simp] theorem effectOf_encode (s : State) :
    effectOf .encode s =
      (s.writeStream 0 (frameBits s.mlen (encodeBody s))).setPos (BitVec.ofNat 36 (reserveBits + 8 * s.mlen.toNat)) := by rfl
@[simp] theorem effectOf_decode (s : State) :
    effectOf .decode s =
      ((s.writeMsg 0 (decodedMessage s)).setMlen (BitVec.ofNat 32 (declaredLength s))).setPos
        (BitVec.ofNat 36 (headerBits + 8 * declaredLength s)) := by rfl

/-! ### What each effect keeps (10_state R10, R30 to R33) -/

section
variable {i : Instr} (s : State)

theorem effectOf_sameHostRegs : s.SameHostRegs (effectOf i s) := by
  cases i <;> simp [State.SameHostRegs]

theorem effectOf_mlen (hu : i ≠ .unpack) (hd : i ≠ .decode) : (effectOf i s).mlen = s.mlen := by
  cases i with
  | unpack => exact absurd rfl hu
  | decode => exact absurd rfl hd
  | _ => simp

theorem effectOf_bit (hr : i ≠ .rdbit) : (effectOf i s).bit = s.bit := by
  cases i with
  | rdbit => exact absurd rfl hr
  | _ => simp

theorem effectOf_blen (hp : i ≠ .pack) : (effectOf i s).blen = s.blen := by
  cases i with
  | pack => exact absurd rfl hp
  | _ => simp

theorem effectOf_pos (hm : i ≠ .embed) (hx : i ≠ .extract) (he : i ≠ .encode) (hd : i ≠ .decode) :
    (effectOf i s).pos = s.pos := by
  cases i with
  | embed => exact absurd rfl hm
  | extract => exact absurd rfl hx
  | encode => exact absurd rfl he
  | decode => exact absurd rfl hd
  | _ => simp

theorem effectOf_cap (hc : i ≠ .capacity) : (effectOf i s).cap = s.cap := by
  cases i with
  | capacity => exact absurd rfl hc
  | _ => simp

theorem effectOf_key (hp : i ≠ .pwhash) : (effectOf i s).key = s.key := by
  cases i with
  | pwhash => exact absurd rfl hp
  | _ => simp

theorem effectOf_pwdAt : (effectOf i s).pwdAt = s.pwdAt := by
  cases i <;> simp

theorem effectOf_pixAt (hw : i ≠ .wrbit) (hm : i ≠ .embed) (he : i ≠ .encode) : (effectOf i s).pixAt = s.pixAt := by
  cases i with
  | wrbit => exact absurd rfl hw
  | embed => exact absurd rfl hm
  | encode => exact absurd rfl he
  | _ => simp

theorem effectOf_msgAt (hu : i ≠ .unpack) (hx : i ≠ .xmask) (hd : i ≠ .decode) : (effectOf i s).msgAt = s.msgAt := by
  cases i with
  | unpack => exact absurd rfl hu
  | xmask => exact absurd rfl hx
  | decode => exact absurd rfl hd
  | _ => simp

theorem effectOf_bitsAt (hp : i ≠ .pack) (hx : i ≠ .extract) : (effectOf i s).bitsAt = s.bitsAt := by
  cases i with
  | pack => exact absurd rfl hp
  | extract => exact absurd rfl hx
  | _ => simp

end

/-- A view of the state that both completions and the command's effect keep, the command keeps. -/
theorem exec_keeps {β : Type} (view : State → β) {i : Instr} {s t : State} (h : exec i s = .next t)
    (hok : ∀ u : State, view u.succeed = view u) (hraise : ∀ (u : State) (c : Code), view (u.raise c) = view u)
    (heffect : view (effectOf i s) = view s) : view t = view s := by
  rcases exec_cases h with ⟨-, rfl⟩ | ⟨-, rfl⟩
  · rw [hok, heffect]
  · exact hraise s _

/-! ### The codec and the registers it does not touch -/

/-- `s` with other contents in `KEY`, `CAP`, `BLEN` and some cells of `BITS`. -/
def State.withScratch (s : State) (key cap : Len) (blen : Big) (base : Nat) (bs : List Bit) : State :=
  (((s.setKey key).setCap cap).setBlen blen).writeBits base bs

section
variable (s : State) (key cap : Len) (blen : Big) (base : Nat) (bs : List Bit)

theorem writeStream_withScratch (p : Nat) (vs : List Bit) :
    (s.withScratch key cap blen base bs).writeStream p vs = (s.writeStream p vs).withScratch key cap blen base bs := by
  induction vs generalizing s p with
  | nil => rfl
  | cons v vs ih => exact ih (s.writeBit (sidx p) v) (p + 1)

@[simp] theorem withScratch_w : (s.withScratch key cap blen base bs).w = s.w := by rfl
@[simp] theorem withScratch_h : (s.withScratch key cap blen base bs).h = s.h := by rfl
@[simp] theorem withScratch_pixlen : (s.withScratch key cap blen base bs).pixlen = s.pixlen := by rfl
@[simp] theorem withScratch_mlen : (s.withScratch key cap blen base bs).mlen = s.mlen := by rfl
@[simp] theorem withScratch_plen : (s.withScratch key cap blen base bs).plen = s.plen := by rfl
@[simp] theorem withScratch_pixAt : (s.withScratch key cap blen base bs).pixAt = s.pixAt := by rfl
@[simp] theorem withScratch_msgAt : (s.withScratch key cap blen base bs).msgAt = s.msgAt := by rfl
@[simp] theorem withScratch_pwdAt : (s.withScratch key cap blen base bs).pwdAt = s.pwdAt := by rfl

theorem readStream_withScratch (p m : Nat) :
    (s.withScratch key cap blen base bs).readStream p m = s.readStream p m := by
  simp [State.readStream, State.streamAt]

theorem message_withScratch : (s.withScratch key cap blen base bs).message = s.message := by
  simp [State.message]

theorem password_withScratch : (s.withScratch key cap blen base bs).password = s.password := by
  simp [State.password]

theorem samples_withScratch : (s.withScratch key cap blen base bs).samples = s.samples := by
  simp [State.samples, State.pixels]

theorem carriers_withScratch : (s.withScratch key cap blen base bs).carriers = s.carriers := by
  simp [State.carriers, State.pixels]

theorem encodeBody_withScratch : encodeBody (s.withScratch key cap blen base bs) = encodeBody s := by
  rw [encodeBody, password_withScratch, message_withScratch, encodeBody]

theorem declaredLength_withScratch : declaredLength (s.withScratch key cap blen base bs) = declaredLength s := by
  rw [declaredLength, readStream_withScratch, declaredLength]

theorem decodedMessage_withScratch : decodedMessage (s.withScratch key cap blen base bs) = decodedMessage s := by
  rw [decodedMessage, declaredLength_withScratch, readStream_withScratch, password_withScratch, decodedMessage]

theorem encodeCheck_withScratch : encodeCheck (s.withScratch key cap blen base bs) = encodeCheck s := by
  simp only [encodeCheck, State.ShapeOk, samples_withScratch, carriers_withScratch, withScratch_w, withScratch_h,
    withScratch_pixlen, withScratch_mlen]

theorem decodeCheck_withScratch : decodeCheck (s.withScratch key cap blen base bs) = decodeCheck s := by
  simp only [decodeCheck, State.ShapeOk, samples_withScratch, carriers_withScratch, declaredLength_withScratch,
    decodedMessage_withScratch, withScratch_pixlen]

theorem setPos_withScratch (v : Big) :
    (s.withScratch key cap blen base bs).setPos v = (s.setPos v).withScratch key cap blen base bs := by rfl

theorem setMlen_withScratch (v : Len) :
    (s.withScratch key cap blen base bs).setMlen v = (s.setMlen v).withScratch key cap blen base bs := by rfl

theorem writeMsg_withScratch (a : Nat) (vs : List Byte) :
    (s.withScratch key cap blen base bs).writeMsg a vs = (s.writeMsg a vs).withScratch key cap blen base bs := by rfl

theorem succeed_withScratch :
    (s.withScratch key cap blen base bs).succeed = s.succeed.withScratch key cap blen base bs := by rfl

theorem raise_withScratch (c : Code) :
    (s.withScratch key cap blen base bs).raise c = (s.raise c).withScratch key cap blen base bs := by rfl

theorem encodeEffect_withScratch :
    encodeEffect (s.withScratch key cap blen base bs) = (encodeEffect s).withScratch key cap blen base bs := by
  rw [encodeEffect, encodeBody_withScratch, withScratch_mlen, writeStream_withScratch, setPos_withScratch, encodeEffect]

theorem decodeEffect_withScratch :
    decodeEffect (s.withScratch key cap blen base bs) = (decodeEffect s).withScratch key cap blen base bs := by
  rw [decodeEffect, declaredLength_withScratch, decodedMessage_withScratch, writeMsg_withScratch, setMlen_withScratch,
    setPos_withScratch, decodeEffect]

/-- A command whose checks and effect do not see the scratch state completes alike with any. -/
theorem exec_withScratch {i : Instr} {s t : State}
    (hc : checkOf i (s.withScratch key cap blen base bs) = checkOf i s)
    (he : effectOf i (s.withScratch key cap blen base bs) = (effectOf i s).withScratch key cap blen base bs)
    (h : exec i s = .next t) :
    exec i (s.withScratch key cap blen base bs) = .next (t.withScratch key cap blen base bs) := by
  rcases exec_cases h with ⟨hok, rfl⟩ | ⟨hne, rfl⟩
  · rw [exec_ok (hc.trans hok), he, succeed_withScratch]
  · rw [exec_raise hc hne, raise_withScratch]

end

/-! ### The life of a command under other host actions (10_state R28 (e)) -/

/-- A host action other than a `CMD` write and the reset leaves the life of the command alone. -/
theorem hostAct_keepsStatus {act : HostAction} {s t : State} (hreset : act ≠ .reset) (hcmd : ∀ v, act ≠ .writeReg 16 v)
    (h : hostAct act s = .next t) : t.status = s.status ∧ t.progress = s.progress ∧ t.inFlight = s.inFlight := by
  rcases hostAct_cases h with ⟨n, v, rfl, -, -, rfl⟩ | ⟨n, -, -, rfl⟩ | ⟨sp, a, v, -, -, -, -, rfl⟩ | ⟨sp, a, -, -, -, rfl⟩ |
    ⟨rfl, -⟩
  · exact portWrite_keepsStatus s n v fun hn => hcmd v (hn ▸ rfl)
  · exact ⟨rfl, rfl, rfl⟩
  · exact cellWrite_keepsStatus s sp a v
  · exact ⟨rfl, rfl, rfl⟩
  · exact absurd rfl hreset

/-- A turn of an idle engine other than a `CMD` write and the reset leaves the life of the command alone. -/
theorem takeTurn_keepsStatus {turn : Turn} {s t : State} (hb : s.busy = false) (hreset : turn ≠ .host .reset)
    (hcmd : ∀ v, turn ≠ .host (.writeReg 16 v)) (h : takeTurn turn s = .next t) :
    t.status = s.status ∧ t.progress = s.progress ∧ t.inFlight = s.inFlight := by
  cases turn with
  | host act => exact hostAct_keepsStatus (fun e => hreset (e ▸ rfl)) (fun v e => hcmd v (e ▸ rfl)) h
  | progress =>
    cases (progressTurn_idle hb).symm.trans h
    exact ⟨rfl, rfl, rfl⟩
  | complete =>
    cases (completeTurn_idle hb).symm.trans h
    exact ⟨rfl, rfl, rfl⟩

/-! ### The invariant, operation by operation -/

theorem statusLegal_statusDone {s : State} {c : Code} (h : s.status = statusDone c) : s.statusLegal = true := by
  cases c <;> simp [State.statusLegal, h]

/-- The invariant reads the status registers, the word in flight and the memories only. -/
theorem inv_of_sameStatus {s t : State} (h : s.Inv)
    (hst : t.status = s.status ∧ t.progress = s.progress ∧ t.inFlight = s.inFlight) (hm : t.MemInv) : t.Inv := by
  obtain ⟨hlegal, hmax, hrun, hok, hidle, -⟩ := h
  obtain ⟨hs, hp, hf⟩ := hst
  have hb : t.busy = s.busy := by simp [State.busy, hs]
  have hl : t.statusLegal = s.statusLegal := by simp [State.statusLegal, hs]
  exact ⟨hl ▸ hlegal, hp ▸ hmax, hb ▸ hp ▸ hrun, hs ▸ hp ▸ hok, hb ▸ hf ▸ hidle, hm⟩

theorem inv_issue {s : State} (w : CmdWord) (hm : s.MemInv) : (s.issue w).Inv := by
  refine ⟨by simp [State.statusLegal], by simp, by simp, fun h => ?_, by simp, hm⟩
  exact absurd h (by rw [State.issue_status]; decide)

theorem inv_succeed {s : State} (hm : s.MemInv) : s.succeed.Inv :=
  ⟨statusLegal_statusDone s.succeed_status, by simp [progressDone], fun h => by simp at h, fun _ => rfl, fun _ => rfl, hm⟩

/-- A raised outcome is not `OK`, so its final `PROGRESS` need only stay at most 100 (10_state R28 (d)). -/
theorem inv_raise {s : State} {c : Code} (hc : c ≠ .ok) (hp : s.progress.toNat ≤ 100) (hm : s.MemInv) :
    (s.raise c).Inv :=
  ⟨statusLegal_statusDone (s.raise_status c), (progressFinal_bounds s hp).2, fun h => by simp at h,
    fun h => absurd (statusDone_inj h) hc, fun _ => rfl, hm⟩

theorem inv_raiseProgress {s : State} (hb : s.busy = true) (h : s.Inv) : s.raiseProgress.Inv := by
  obtain ⟨hlegal, -, hrun, -, hidle, hm⟩ := h
  have hp := (progressRaised_bounds s (hrun hb)).2
  refine ⟨hlegal, Nat.le_trans hp (by decide), fun _ => hp, fun hok => ?_, hidle, hm⟩
  have hb' : s.busy = false := by
    rw [State.busy, show s.status = statusDone .ok from hok]
    exact (getLsbD_statusDone .ok).1
  rw [hb] at hb'
  cases hb'

theorem inv_applyReset {s : State} (h : s.MemInv) : s.applyReset.Inv :=
  ⟨by simp [State.applyReset, State.statusLegal], by simp [State.applyReset], fun _ => by simp [State.applyReset],
    fun hok => absurd hok (by rw [State.applyReset, State.resetRegisters_status]; decide), fun _ => rfl, applyReset_memInv h⟩

/-! ### The invariant, turn by turn -/

theorem exec_keeps_inv {i : Instr} {s t : State} (hs : s.Inv) (h : exec i s = .next t) : t.Inv := by
  obtain ⟨-, hp, -, -, -, hm⟩ := hs
  rcases exec_cases h with ⟨hc, rfl⟩ | ⟨hc, rfl⟩
  · exact inv_succeed (effect_memInv hc hm)
  · exact inv_raise hc hp hm

theorem completeTurn_keeps_inv {s t : State} (hs : s.Inv) (h : completeTurn s = .next t) : t.Inv := by
  cases hb : s.busy with
  | false =>
    rw [completeTurn_idle hb] at h
    cases h
    exact hs
  | true =>
    rw [completeTurn_busy hb] at h
    rcases runInFlight_cases s with ⟨i, -, hi⟩ | ⟨e, -, he⟩
    · exact exec_keeps_inv hs ((exec_eq_conclude i s).trans (hi ▸ h))
    · obtain ⟨-, hp, -, -, -, hm⟩ := hs
      rw [he] at h
      cases h
      exact inv_raise (by decide) hp hm

theorem progressTurn_keeps_inv {s t : State} (hs : s.Inv) (h : progressTurn s = .next t) : t.Inv := by
  cases hb : s.busy with
  | false =>
    rw [progressTurn_idle hb] at h
    cases h
    exact hs
  | true =>
    rw [progressTurn_busy hb] at h
    cases h
    exact inv_raiseProgress hb hs

theorem portWrite_keeps_inv {s : State} (n v : Nat) (hs : s.Inv) : (s.portWrite n v).Inv := by
  obtain ⟨-, -, -, -, -, hm⟩ := id hs
  by_cases hn : n = 16
  · subst hn
    cases hb : s.busy with
    | false => rw [portWrite_cmd_idle v hb]; exact inv_issue _ hm
    | true => rw [portWrite_cmd_busy v hb]; exact hs
  · exact inv_of_sameStatus hs (portWrite_keepsStatus s n v hn) (portWrite_memInv n v hm)

theorem hostAct_keeps_inv {act : HostAction} {s t : State} (hs : s.Inv) (h : hostAct act s = .next t) : t.Inv := by
  obtain ⟨-, -, -, -, -, hm⟩ := id hs
  rcases hostAct_cases h with ⟨n, v, -, -, -, rfl⟩ | ⟨n, -, -, rfl⟩ | ⟨sp, a, v, -, -, ha, -, rfl⟩ | ⟨sp, a, -, -, -, rfl⟩ |
    ⟨-, rfl⟩
  · exact portWrite_keeps_inv n v hs
  · exact hs
  · exact inv_of_sameStatus hs (cellWrite_keepsStatus s sp a v) (cellWrite_memInv v ha hm)
  · exact hs
  · exact inv_applyReset hm

theorem takeTurn_keeps_inv {turn : Turn} {s t : State} (hs : s.Inv) (h : takeTurn turn s = .next t) : t.Inv := by
  cases turn with
  | host act => exact hostAct_keeps_inv hs h
  | progress => exact progressTurn_keeps_inv hs h
  | complete => exact completeTurn_keeps_inv hs h

/-! ### The obligations, the tier 3 statement first -/

/-- Settles O57: the next turn of the agenda keeps the invariant, and so does the engine when no turn is left. -/
theorem everyStepKeepsInvariant : Obligations.EveryStepKeepsInvariant := by
  unfold Obligations.EveryStepKeepsInvariant
  intro s t hs h
  cases ha : s.agenda with
  | nil => exact completeTurn_keeps_inv hs (step_nil ha ▸ h)
  | cons turn rest =>
    have hs' : (s.setAgenda rest).Inv := hs
    exact takeTurn_keeps_inv hs' (step_cons ha ▸ h)

/-- Settles O7: by the next turn of the agenda, which is neither a `CMD` write nor the reset. -/
theorem outcomeStaysUntilNextIssue : Obligations.OutcomeStaysUntilNextIssue := by
  unfold Obligations.OutcomeStaysUntilNextIssue
  refine ⟨fun s t hb hreset hcmd h => ?_, fun s t act _ hreset hcmd h => hostAct_keepsStatus hreset hcmd h,
    fun s hb => ⟨progressTurn_idle hb, completeTurn_idle hb⟩⟩
  cases ha : s.agenda with
  | nil =>
    cases (step_idle ha hb).symm.trans h
    exact ⟨rfl, rfl, rfl⟩
  | cons turn rest =>
    simp only [ha, List.head?_cons, ne_eq, Option.some.injEq] at hreset hcmd
    exact takeTurn_keepsStatus (s := s.setAgenda rest) hb hreset hcmd (step_cons ha ▸ h)

/-- Settles O10: an `OK` completion sets 100, and no raised outcome has the status word of `OK`. -/
theorem finalProgressObeysLaws : Obligations.FinalProgressObeysLaws := by
  unfold Obligations.FinalProgressObeysLaws
  intro i s t hp h
  rcases exec_cases h with ⟨-, rfl⟩ | ⟨hc, rfl⟩
  · obtain ⟨hstatus, hprogress, -⟩ := endsOk_succeed (effectOf i s)
    exact ⟨fun _ => hprogress, fun hne => absurd hstatus hne⟩
  · have hne : (s.raise (checkOf i s)).status ≠ 0x02#8 := fun e => hc (statusDone_inj (e.trans statusDone_ok.symm))
    exact ⟨fun e => absurd e hne, fun _ => progressFinal_bounds s hp⟩

/-- Settles O13: register by register, since neither completion writes an operand register. -/
theorem registersWrittenOnlyByListedCommands : Obligations.RegistersWrittenOnlyByListedCommands := by
  unfold Obligations.RegistersWrittenOnlyByListedCommands
  intro i s t h
  obtain ⟨hw, hh, hpixlen, hplen, hidx⟩ := effectOf_sameHostRegs (i := i) s
  refine ⟨⟨?_, ?_, ?_, ?_, ?_⟩, fun hu hd => ?_, fun hr => ?_, fun hp => ?_, fun hm hx he hd => ?_, fun hc => ?_, fun hp => ?_⟩
  · exact exec_keeps State.w h (fun _ => rfl) (fun _ _ => rfl) hw
  · exact exec_keeps State.h h (fun _ => rfl) (fun _ _ => rfl) hh
  · exact exec_keeps State.pixlen h (fun _ => rfl) (fun _ _ => rfl) hpixlen
  · exact exec_keeps State.plen h (fun _ => rfl) (fun _ _ => rfl) hplen
  · exact exec_keeps State.idx h (fun _ => rfl) (fun _ _ => rfl) hidx
  · exact exec_keeps State.mlen h (fun _ => rfl) (fun _ _ => rfl) (effectOf_mlen s hu hd)
  · exact exec_keeps State.bit h (fun _ => rfl) (fun _ _ => rfl) (effectOf_bit s hr)
  · exact exec_keeps State.blen h (fun _ => rfl) (fun _ _ => rfl) (effectOf_blen s hp)
  · exact exec_keeps State.pos h (fun _ => rfl) (fun _ _ => rfl) (effectOf_pos s hm hx he hd)
  · exact exec_keeps State.cap h (fun _ => rfl) (fun _ _ => rfl) (effectOf_cap s hc)
  · exact exec_keeps State.key h (fun _ => rfl) (fun _ _ => rfl) (effectOf_key s hp)

/-- Settles O14: space by space, since neither completion writes a cell. -/
theorem spacesWrittenOnlyByListedCommands : Obligations.SpacesWrittenOnlyByListedCommands := by
  unfold Obligations.SpacesWrittenOnlyByListedCommands
  intro i s t h
  refine ⟨congrFun ?_, fun hw hm he => congrFun ?_, fun hu hx hd => congrFun ?_, fun hp hx => congrFun ?_⟩
  · exact exec_keeps State.pwdAt h (fun _ => rfl) (fun _ _ => rfl) (effectOf_pwdAt s)
  · exact exec_keeps State.pixAt h (fun _ => rfl) (fun _ _ => rfl) (effectOf_pixAt s hw hm he)
  · exact exec_keeps State.msgAt h (fun _ => rfl) (fun _ _ => rfl) (effectOf_msgAt s hu hx hd)
  · exact exec_keeps State.bitsAt h (fun _ => rfl) (fun _ _ => rfl) (effectOf_bitsAt s hp hx)

/-- Settles O16: the port widths by evaluation, the rest by the rules of the register ports. -/
theorem hostWritesAndReadsOperandRegister : Obligations.HostWritesAndReadsOperandRegister := by
  unfold Obligations.HostWritesAndReadsOperandRegister
  refine ⟨by decide, fun s n v k hb hn h9 hk hv => ?_, fun s n v k hb hk hv => hostAct_writeReg_wide (.inl hb) hk hv⟩
  have hf : fitsPort n v = true := by rw [fitsPort_eq hk, decide_eq_true hv]
  have hcmd : n ≠ 16 := by omega
  have hb' : (s.portWrite n v).busy = false := (busy_portWrite v hcmd).trans hb
  obtain ⟨hpix, hmsg, hpwd, hbits⟩ := portWrite_keepsCells (s := s) v hcmd
  exact ⟨s.portWrite n v, _, hostAct_writeReg_fits (.inl hb) hf, fun m hm => portRead_portWrite_other v hcmd hm,
    hpix, hmsg, hpwd, hbits, hostAct_readReg (.inl hb'), portRead_portWrite_same hn h9 hf, portRead_setHostData _ _⟩

/-- Settles O18: the rules of the cell ports. -/
theorem hostWritesAndReadsCell : Obligations.HostWritesAndReadsCell := by
  unfold Obligations.HostWritesAndReadsCell
  refine ⟨fun s sp a v hb ha hv => ?_, fun s sp a v hb ha hv => hostAct_writeCell_wide hb ha hv,
    fun s sp a v hb ha => ⟨hostAct_writeCell_outside hb ha, hostAct_readCell_outside hb ha⟩⟩
  have hb' : (s.cellWrite sp a v).busy = false := (busy_cellWrite s sp a v).trans hb
  refine ⟨s.cellWrite sp a v, hostAct_writeCell_fits hb ha hv, fun sp' b h => cellRead_cellWrite_other s v h,
    portRead_cellWrite s sp a v, ?_⟩
  rw [hostAct_readCell hb' ha, cellRead_cellWrite_same s a hv, State.setHostData]

/-- Settles O46: neither the checks nor the effect of the codec see the scratch state. -/
theorem codecIgnoresKeyCapAndBits : Obligations.CodecIgnoresKeyCapAndBits := by
  unfold Obligations.CodecIgnoresKeyCapAndBits
  intro i s t key cap blen base bs hi h
  rcases hi with rfl | rfl
  · exact exec_withScratch key cap blen base bs (encodeCheck_withScratch s key cap blen base bs)
      (encodeEffect_withScratch s key cap blen base bs) h
  · exact exec_withScratch key cap blen base bs (decodeCheck_withScratch s key cap blen base bs)
      (decodeEffect_withScratch s key cap blen base bs) h

/-- Settles O3: both agendas bring the engine to its completion turn. -/
theorem stepRunsDecodedCommand : Obligations.StepRunsDecodedCommand := by
  unfold Obligations.StepRunsDecodedCommand
  intro s i hb hd
  refine ⟨fun ha => ?_, fun rest ha => ?_⟩
  · rw [step_nil ha, completeTurn_busy hb, runInFlight_ok hd]
  · rw [step_cons ha, takeTurn, completeTurn_busy (s := s.setAgenda rest) hb, runInFlight_ok (s := s.setAgenda rest) hd]

/-- Settles O5: a fitting `CMD` write of an idle engine is the issue. -/
theorem cmdWriteIssuesCommand : Obligations.CmdWriteIssuesCommand := by
  unfold Obligations.CmdWriteIssuesCommand
  intro s v hb hv
  have hf : fitsPort 16 v = true := decide_eq_true hv
  refine ⟨s.issue (BitVec.ofNat 8 v), ?_, busy_issue s _, done_issue s _, ?_, statusBusy_eq, rfl, Nat.mod_eq_of_lt hv,
    onlyStatus_issue s _⟩
  · rw [hostAct_writeReg_fits (.inl hb) hf, portWrite_cmd_idle v hb]
  · rw [State.code, State.issue_status]
    decide

/-- Settles O6: a fitting `CMD` write of a busy engine is dropped. -/
theorem cmdWriteWhileBusyIsDropped : Obligations.CmdWriteWhileBusyIsDropped := by
  unfold Obligations.CmdWriteWhileBusyIsDropped
  intro s v hb hv
  have hf : fitsPort 16 v = true := decide_eq_true hv
  rw [hostAct_writeReg_fits (.inr (by decide)) hf, portWrite_cmd_busy v hb]

/-- Settles O9: the turn is `raiseProgress`, whose draw is bounded. -/
theorem progressRisesWhileBusy : Obligations.ProgressRisesWhileBusy := by
  unfold Obligations.ProgressRisesWhileBusy
  intro s hb hp
  obtain ⟨hlow, hhigh⟩ := progressRaised_bounds s hp
  exact ⟨s.raiseProgress, progressTurn_busy hb, hlow, hhigh, rfl, rfl, onlyStatus_raiseProgress s⟩

/-- Settles O17: the rules of the register ports at the numbers a write does not change. -/
theorem readOnlyAndAbsentRegistersIgnoreWrites : Obligations.ReadOnlyAndAbsentRegistersIgnoreWrites := by
  unfold Obligations.ReadOnlyAndAbsentRegistersIgnoreWrites
  intro s v hb
  refine ⟨fun hv => ?_, fun hv => ?_, fun hv => ?_, fun n hn => ?_, fun n hn => ?_⟩
  · exact hostAct_writeReg_fits (.inl hb) (decide_eq_true hv)
  · exact hostAct_writeReg_fits (.inl hb) (decide_eq_true hv)
  · exact hostAct_writeReg_fits (.inl hb) (decide_eq_true hv)
  · rw [hostAct_writeReg_fits (.inl hb) (fitsPort_absent v hn), portWrite_absent s v hn]
  · rw [hostAct_readReg (.inl hb), portRead_absent s hn, State.setHostData]

/-- Settles O59: a read of a register the host reaches returns `portRead`. -/
theorem hostReadReturnsEachRegister : Obligations.HostReadReturnsEachRegister := by
  unfold Obligations.HostReadReturnsEachRegister
  intro s hb
  have hread (n : Nat) : hostAct (.readReg n) s = .next { s with hostData := s.portRead n } := hostAct_readReg (.inl hb)
  have hbit : s.bit.toNat = if s.bit then 1 else 0 := by cases s.bit <;> rfl
  exact ⟨hread 0, hread 1, hread 2, hread 3, hread 4, hread 5, hbit ▸ hread 6, hread 7, hread 8, hread 9, hread 10, hread 17,
    hread 18⟩

/-- Settles O60: registers beyond the operand registers are in the host's reach while a command runs. -/
theorem otherRegistersWhileBusy : Obligations.OtherRegistersWhileBusy := by
  unfold Obligations.OtherRegistersWhileBusy
  intro s _
  refine ⟨fun n hn => ?_, fun n v hn => ?_, fun v hv => ?_, fun v hv => ?_, fun n v k hn hk hv => ?_⟩
  · rw [hostAct_readReg (.inr (by omega)), portRead_absent s hn, State.setHostData]
  · rw [hostAct_writeReg_fits (.inr (by omega)) (fitsPort_absent v hn), portWrite_absent s v hn]
  · exact hostAct_writeReg_fits (.inr (by decide)) (decide_eq_true hv)
  · exact hostAct_writeReg_fits (.inr (by decide)) (decide_eq_true hv)
  · exact hostAct_writeReg_wide (.inr (by omega)) hk hv

end Sys2Proof.Machine


/-!
PROOFS of the family 30_encoding: the encoder is the decoder's inverse on the words it accepts (R65, R71, R72).
-/
namespace Sys2Proof

/-- The decoder reads every command's word back. -/
theorem decodeWord_encode (i : Instr) : decodeWord (encode i) = .ok i := by
  have h : Laws.RoundTrip.Statement i := by
    cases i with
    | capacity => exact Laws.RoundTrip.capacity
    | pack => exact Laws.RoundTrip.pack
    | unpack => exact Laws.RoundTrip.unpack
    | wrbit => exact Laws.RoundTrip.wrbit
    | rdbit => exact Laws.RoundTrip.rdbit
    | pwhash => exact Laws.RoundTrip.pwhash
    | xmask => exact Laws.RoundTrip.xmask
    | embed => exact Laws.RoundTrip.embed
    | extract => exact Laws.RoundTrip.extract
    | encode => exact Laws.RoundTrip.encode
    | decode => exact Laws.RoundTrip.decode
  obtain ⟨-, -, hd⟩ := h
  exact hd

/-- A word whose zero field is clear is its `OPC` field. -/
theorem opcField_toNat {v : CmdWord} (hz : v.extractLsb' 4 4 = 0#4) : (v.extractLsb' 0 4).toNat = v.toNat := by
  have hhigh : v.toNat / 2 ^ 4 % 2 ^ 4 = 0 := by
    simpa [BitVec.extractLsb'_toNat, Nat.shiftRight_eq_div_pow] using congrArg BitVec.toNat hz
  have hv : v.toNat < 2 ^ 8 := v.isLt
  rw [BitVec.extractLsb'_toNat, Nat.shiftRight_zero]
  omega

/-- A word the decoder accepts is the word of the command it answers: bits 7:4 are clear, and `OPC` is the number of a row. -/
theorem eq_encode_of_decodeWord {v : CmdWord} {i : Instr} (h : decodeWord v = .ok i) : v = encode i := by
  by_cases hz : v.extractLsb' 4 4 = 0#4
  · rw [decodeWord, if_neg (not_not_intro hz), opcField_toNat hz] at h
    split at h <;> cases h <;> exact BitVec.eq_of_toNat_eq ‹_›
  · rw [decodeWord, if_pos hz] at h
    cases h

theorem decodeWord_eq_ok_iff {v : CmdWord} {i : Instr} : decodeWord v = .ok i ↔ v = encode i :=
  ⟨eq_encode_of_decodeWord, fun h => h ▸ decodeWord_encode i⟩

/-- The table's decoder reads every command's word as an 8-bit word. -/
theorem decodeTableWord_encode (i : Instr) : decodeTableWord 8 (encode i).toNat = some i := by
  have hd : decodeBytes [BitVec.ofNat 8 (encode i).toNat] = .ok (i, []) := by
    rw [BitVec.ofNat_toNat, BitVec.setWidth_eq, decodeBytes, decodeWord_encode]
    rfl
  rw [decodeTableWord, if_pos ⟨rfl, (encode i).isLt⟩, hd]

/-- Settles O1: the codes by evaluation, the decoder by its inverse `encode`. -/
theorem commandWordsDecodeAndEncode : Obligations.CommandWordsDecodeAndEncode := by
  unfold Obligations.CommandWordsDecodeAndEncode
  exact ⟨rfl, fun _ _ => decodeWord_eq_ok_iff⟩

/-- Settles O2: the accepted words are those of their commands; the rejected ones are evaluated. -/
theorem writtenOutWordsDecode : Obligations.WrittenOutWordsDecode := by
  unfold Obligations.WrittenOutWordsDecode
  exact ⟨decodeTableWord_encode .capacity, decodeTableWord_encode .wrbit, decodeTableWord_encode .xmask,
    decodeTableWord_encode .embed, decodeTableWord_encode .encode, decodeTableWord_encode .decode, rfl, rfl, rfl⟩

end Sys2Proof


/-!
PROOFS of the family 40_capacity: the capacity with its clamp written out, that it fits `CAP` (R80), and CAPACITY (R81).
-/
namespace Sys2Proof.Machine

/-- `capacity` with its clamp written out (40_capacity R80, 90_conflicts C5). -/
theorem capacity_eq_ite (w h : Nat) :
    capacity w h = if 3 * (w * h) < 64 then 0 else (3 * (w * h) - 64) / 8 := by
  rw [capacity_eq]
  split <;> omega

/-- The capacity of any `W` by `H` fits the 32 bits of `CAP`: there are fewer than `2 ^ 32` pixels, at 3 bits each. -/
theorem capacity_lt (s : State) : capacity s.w.toNat s.h.toNat < 2 ^ 32 := by
  have hpixels := pixels_lt s
  rw [capacity_eq]
  omega

theorem toNat_cap_effectOf_capacity (s : State) :
    (effectOf .capacity s).cap.toNat = capacity s.w.toNat s.h.toNat := by
  rw [effectOf_capacity, State.setCap_cap, BitVec.toNat_ofNat, Nat.mod_eq_of_lt (capacity_lt s)]

/-- Settles O23: CAPACITY has no checks, and its effect writes `CAP` alone. -/
theorem capacityComputesCap : Obligations.CapacityComputesCap := by
  unfold Obligations.CapacityComputesCap
  refine ⟨decodeWord_encode .capacity, fun s =>
    ⟨(effectOf .capacity s).succeed, exec_ok rfl, endsOk_succeed _, ?cap, effectOf_sameHostRegs s,
      effectOf_mlen s nofun nofun, effectOf_bit s nofun, effectOf_blen s nofun, effectOf_pos s nofun nofun nofun nofun,
      effectOf_key s nofun, congrFun (effectOf_pixAt s nofun nofun nofun), congrFun (effectOf_msgAt s nofun nofun nofun),
      congrFun (effectOf_pwdAt s), congrFun (effectOf_bitsAt s nofun nofun), rfl, rfl, rfl⟩⟩
  case cap => rw [State.succeed_cap, toNat_cap_effectOf_capacity, capacity_eq_ite]

end Sys2Proof.Machine


/-!
PROOFS of the family 41_bit_packer: the laws of the bit write and read (R88, R89, R94), packing and unpacking as inverses
(R85 to R87), what PACK, UNPACK, WRBIT and RDBIT leave in each cell and register, and the obligations from these lemmas
(R90 to R94).
-/
namespace Sys2Proof.Machine

/-! ### The bit write and the bit read -/

theorem wbit_eq_or (s : Byte) (b : Bit) : wbit s b = ((s &&& 0xFE#8) ||| (if b then 1#8 else 0#8)) := by
  cases b <;> rfl

theorem rbit_eq_decide (s : Byte) : rbit s = decide (s &&& 1#8 = 1#8) := by rfl

/-- The last write wins (41_bit_packer R94). -/
theorem wbit_wbit (s : Byte) (a b : Bit) : wbit (wbit s a) b = wbit s b := by
  refine BitVec.eq_of_getLsbD_eq fun j _ => ?_
  cases j with
  | zero => rw [← rbit_eq_getLsbD, ← rbit_eq_getLsbD, rbit_wbit, rbit_wbit]
  | succ j => rw [getLsbD_wbit _ _ _ j.succ_pos, getLsbD_wbit _ _ _ j.succ_pos, getLsbD_wbit _ _ _ j.succ_pos]

/-- Shifting the least significant bit out hides a bit write. -/
theorem ushiftRight_wbit (s : Byte) (b : Bit) : wbit s b >>> 1 = s >>> 1 := by
  refine BitVec.eq_of_getLsbD_eq fun j _ => ?_
  rw [BitVec.getLsbD_ushiftRight, BitVec.getLsbD_ushiftRight, getLsbD_wbit _ _ _ (by omega)]

theorem toNat_wbit_div_two (s : Byte) (b : Bit) : (wbit s b).toNat / 2 = s.toNat / 2 := by
  simpa [Nat.shiftRight_eq_div_pow] using congrArg BitVec.toNat (ushiftRight_wbit s b)

/-! ### Packing and unpacking are inverse -/

theorem ceilDiv8_mul (n : Nat) : ceilDiv8 (8 * n) = n := by
  rw [ceilDiv8]
  omega

theorem bitsToBytes_bytesToBits (b : List Byte) : bitsToBytes (bytesToBits b) = b := by
  have hlen : (bitsToBytes (bytesToBits b)).length = b.length := by
    rw [length_bitsToBytes, length_bytesToBits, ceilDiv8_mul]
  refine List.ext_getElem hlen fun i _ hi => byte_ext_msb fun j hj => ?_
  have ht : 8 * i + j < (bytesToBits b).length := by
    rw [length_bytesToBits]
    omega
  have hdiv : (8 * i + j) / 8 = i := by omega
  have hmod : (8 * i + j) % 8 = j := by omega
  rw [getElem_bitsToBytes, getLsbD_byteAt _ _ _ hj, paddedBit_eq_getElem _ _ ht, getElem_bytesToBits]
  simp only [hdiv, hmod]

/-- Unpacked and packed again, a sequence reads as before, and 0 beyond its end. -/
theorem getElem_bytesToBits_bitsToBytes (s : List Bit) (t : Nat) (h : t < (bytesToBits (bitsToBytes s)).length) :
    (bytesToBits (bitsToBytes s))[t] = paddedBit s t := by
  rw [getElem_bytesToBits, getElem_bitsToBytes, getLsbD_byteAt _ _ _ (Nat.mod_lt t (by decide)), Nat.div_add_mod]

theorem bytesToBits_bitsToBytes (s : List Bit) :
    bytesToBits (bitsToBytes s) = s ++ List.replicate ((8 - s.length % 8) % 8) false := by
  have hlen : (bytesToBits (bitsToBytes s)).length = (s ++ List.replicate ((8 - s.length % 8) % 8) false).length := by
    rw [length_bytesToBits, length_bitsToBytes, List.length_append, List.length_replicate, ceilDiv8]
    omega
  refine List.ext_getElem hlen fun t ht _ => ?_
  rw [getElem_bytesToBits_bitsToBytes s t ht]
  by_cases hs : t < s.length
  · rw [paddedBit_eq_getElem s t hs, List.getElem_append_left hs]
  · have hs : s.length ≤ t := Nat.le_of_not_lt hs
    rw [paddedBit_eq_false s t hs, List.getElem_append_right hs, List.getElem_replicate]

theorem bytesToBits_bitsToBytes_of_whole (s : List Bit) (h : s.length % 8 = 0) : bytesToBits (bitsToBytes s) = s := by
  rw [bytesToBits_bitsToBytes, h, List.replicate_zero, List.append_nil]

/-! ### What PACK leaves -/

/-- `8 * MLEN` fits the 36 bits of `BLEN`. -/
theorem toNat_blen_effectOf_pack (s : State) : (effectOf .pack s).blen.toNat = 8 * s.mlen.toNat := by
  have hmlen : s.mlen.toNat < 2 ^ 32 := s.mlen.isLt
  rw [effectOf_pack, State.setBlen_blen, BitVec.toNat_ofNat, Nat.mod_eq_of_lt (by omega)]

theorem bitsAt_effectOf_pack (s : State) (k : Nat) (h : k < (bytesToBits s.message).length) :
    (effectOf .pack s).bitsAt k = (bytesToBits s.message)[k] := by
  rw [effectOf_pack, State.setBlen_bitsAt, State.bitsAt_writeBits_zero s k _ h]

/-- Bit `8i + j` is bit `7 - j` of byte `i` (41_bit_packer R85). -/
theorem bitsAt_effectOf_pack_byte (s : State) {i j : Nat} (hi : i < s.mlen.toNat) (hj : j ≤ 7) :
    (effectOf .pack s).bitsAt (8 * i + j) = (s.msgAt i).getLsbD (7 - j) := by
  have ht : 8 * i + j < (bytesToBits s.message).length := by
    rw [length_bytesToBits, State.length_message]
    omega
  have hdiv : (8 * i + j) / 8 = i := by omega
  have hmod : (8 * i + j) % 8 = j := by omega
  rw [bitsAt_effectOf_pack s _ ht, getElem_bytesToBits, State.getElem_message, hdiv, hmod]

theorem bitsAt_effectOf_pack_beyond (s : State) {a : Nat} (h : 8 * s.mlen.toNat ≤ a) :
    (effectOf .pack s).bitsAt a = s.bitsAt a := by
  rw [effectOf_pack, State.setBlen_bitsAt, State.bitsAt_writeBits_out]
  rw [length_bytesToBits, State.length_message]
  omega

/-- The bit sequence PACK leaves as an operand is the expansion of the message (41_bit_packer R90). -/
theorem bitSeq_effectOf_pack (s : State) : (effectOf .pack s).bitSeq = bytesToBits s.message := by
  have hlen : (effectOf .pack s).bitSeq.length = (bytesToBits s.message).length := by
    rw [State.length_bitSeq, toNat_blen_effectOf_pack, length_bytesToBits, State.length_message]
  refine List.ext_getElem hlen fun k _ hk => ?_
  rw [State.getElem_bitSeq, bitsAt_effectOf_pack s k hk]

/-! ### What UNPACK leaves -/

theorem toNat_mlen_effectOf_unpack {s : State} (h : unpackCheck s = .ok) :
    (effectOf .unpack s).mlen.toNat = ceilDiv8 s.blen.toNat := by
  have hfits := unpackCheck_ok.1 h
  rw [effectOf_unpack, State.setMlen_mlen, BitVec.toNat_ofNat, Nat.mod_eq_of_lt (by omega)]

theorem msgAt_effectOf_unpack (s : State) (i : Nat) (h : i < (bitsToBytes s.bitSeq).length) :
    (effectOf .unpack s).msgAt i = (bitsToBytes s.bitSeq)[i] := by
  rw [effectOf_unpack, State.setMlen_msgAt, State.msgAt_writeMsg_zero s i _ h]

theorem msgAt_effectOf_unpack_beyond (s : State) {a : Nat} (h : ceilDiv8 s.blen.toNat ≤ a) :
    (effectOf .unpack s).msgAt a = s.msgAt a := by
  rw [effectOf_unpack, State.setMlen_msgAt, State.msgAt_writeMsg_out]
  rw [length_bitsToBytes, State.length_bitSeq]
  omega

theorem paddedBit_bitSeq (s : State) (t : Nat) :
    paddedBit s.bitSeq t = if t < s.blen.toNat then s.bitsAt t else false := by
  by_cases h : t < s.blen.toNat
  · have ht : t < s.bitSeq.length := by rwa [State.length_bitSeq]
    rw [if_pos h, paddedBit_eq_getElem _ _ ht, State.getElem_bitSeq]
  · have ht : s.bitSeq.length ≤ t := by rw [State.length_bitSeq]; omega
    rw [if_neg h, paddedBit_eq_false _ _ ht]

/-- Bit `7 - j` of byte `i` is bit `8i + j` of the sequence, 0 beyond its end (41_bit_packer R86). -/
theorem getLsbD_msgAt_effectOf_unpack (s : State) {i j : Nat} (hi : i < ceilDiv8 s.blen.toNat) (hj : j ≤ 7) :
    ((effectOf .unpack s).msgAt i).getLsbD (7 - j) =
      if 8 * i + j < s.blen.toNat then s.bitsAt (8 * i + j) else false := by
  have hi' : i < (bitsToBytes s.bitSeq).length := by rwa [length_bitsToBytes, State.length_bitSeq]
  rw [msgAt_effectOf_unpack s i hi', getElem_bitsToBytes, getLsbD_byteAt _ _ _ (by omega), paddedBit_bitSeq]

/-! ### UNPACK of the bits that PACK left -/

section
variable {s t : State}

/-- UNPACK of an expanded message finds a byte count that fits `MLEN`. -/
theorem unpackCheck_of_packed (hblen : t.blen.toNat = 8 * s.mlen.toNat) : unpackCheck t = .ok := by
  have hmlen : s.mlen.toNat < 2 ^ 32 := s.mlen.isLt
  rw [unpackCheck_ok, hblen, ceilDiv8_mul]
  omega

/-- UNPACK of an expanded message writes each byte over itself (41_bit_packer R87). -/
theorem msgAt_effectOf_unpack_of_packed (hblen : t.blen.toNat = 8 * s.mlen.toNat) (hbits : t.bitSeq = bytesToBits s.message)
    (hmsg : t.msgAt = s.msgAt) (a : Nat) : (effectOf .unpack t).msgAt a = s.msgAt a := by
  have hbytes : bitsToBytes t.bitSeq = s.message := by rw [hbits, bitsToBytes_bytesToBits]
  by_cases ha : a < s.mlen.toNat
  · have ha' : a < (bitsToBytes t.bitSeq).length := by rwa [hbytes, State.length_message]
    rw [msgAt_effectOf_unpack t a ha', List.getElem_of_eq hbytes, State.getElem_message]
  · rw [msgAt_effectOf_unpack_beyond t (by rw [hblen, ceilDiv8_mul]; omega), hmsg]

end

/-! ### What WRBIT and RDBIT leave -/

theorem sameOperands_effectOf_wrbit (s : State) : s.SameOperands (effectOf .wrbit s) :=
  ⟨effectOf_sameHostRegs s, effectOf_mlen s nofun nofun, effectOf_bit s nofun, effectOf_blen s nofun,
    effectOf_pos s nofun nofun nofun nofun, effectOf_cap s nofun, effectOf_key s nofun⟩

theorem pixAt_effectOf_wrbit_same (s : State) :
    (effectOf .wrbit s).pixAt s.idx.toNat = wbit (s.pixAt s.idx.toNat) s.bit := by
  rw [effectOf_wrbit, State.pixAt_writeBit, if_pos rfl]

theorem pixAt_effectOf_wrbit_other (s : State) {a : Nat} (h : a ≠ s.idx.toNat) :
    (effectOf .wrbit s).pixAt a = s.pixAt a := by
  rw [effectOf_wrbit, State.pixAt_writeBit, if_neg h]

theorem bit_effectOf_rdbit (s : State) : (effectOf .rdbit s).bit = rbit (s.pixAt s.idx.toNat) := by
  rw [effectOf_rdbit, State.setBit_bit]

/-! ### A range check that fails -/

/-- A command whose checks answer `OutOfRange` ends so and has changed nothing else (60_exceptions R151). -/
theorem exec_outOfRange {i : Instr} {s : State} (hp : s.progress.toNat ≤ 100) (hc : checkOf i s = .outOfRange) :
    ∃ t, exec i s = .next t ∧ s.OnlyOutcome t 0x42#8 :=
  ⟨s.raise .outOfRange, exec_raise hc nofun, statusDone_outOfRange ▸ onlyOutcome_raise s .outOfRange hp⟩

/-! ### The obligations -/

/-- Settles O24: PACK has no checks, and its effect writes the first `8 * MLEN` cells of `BITS` and `BLEN` alone. -/
theorem packExpandsMessage : Obligations.PackExpandsMessage := by
  unfold Obligations.PackExpandsMessage
  exact ⟨decodeWord_encode .pack, fun s =>
    ⟨(effectOf .pack s).succeed, exec_ok rfl, endsOk_succeed _, toNat_blen_effectOf_pack s,
      fun i j hi hj => bitsAt_effectOf_pack_byte s hi hj, fun a ha => bitsAt_effectOf_pack_beyond s ha,
      effectOf_sameHostRegs s, effectOf_mlen s nofun nofun, effectOf_bit s nofun, effectOf_pos s nofun nofun nofun nofun,
      effectOf_cap s nofun, effectOf_key s nofun, congrFun (effectOf_pixAt s nofun nofun nofun),
      congrFun (effectOf_msgAt s nofun nofun nofun), congrFun (effectOf_pwdAt s), rfl, rfl, rfl⟩⟩

/-- Settles O25: UNPACK's one check is the byte count, and its effect writes that many cells of `MSG` and `MLEN` alone. -/
theorem unpackCollectsBits : Obligations.UnpackCollectsBits := by
  unfold Obligations.UnpackCollectsBits
  refine ⟨decodeWord_encode .unpack, fun s hfits => ?_, fun s hp hlong => exec_outOfRange hp (unpackCheck_outOfRange.2 hlong)⟩
  have hok : unpackCheck s = .ok := unpackCheck_ok.2 hfits
  exact ⟨(effectOf .unpack s).succeed, exec_ok hok, endsOk_succeed _, toNat_mlen_effectOf_unpack hok,
    fun i j hi hj => getLsbD_msgAt_effectOf_unpack s hi hj, fun a ha => msgAt_effectOf_unpack_beyond s ha,
    effectOf_sameHostRegs s, effectOf_bit s nofun, effectOf_blen s nofun, effectOf_pos s nofun nofun nofun nofun,
    effectOf_cap s nofun, effectOf_key s nofun, congrFun (effectOf_pixAt s nofun nofun nofun), congrFun (effectOf_pwdAt s),
    congrFun (effectOf_bitsAt s nofun nofun), rfl, rfl, rfl⟩

/-- Settles O26: WRBIT's one check is the index, and its effect is one bit write, whatever the channel. -/
theorem wrbitWritesOneSample : Obligations.WrbitWritesOneSample := by
  unfold Obligations.WrbitWritesOneSample
  refine ⟨decodeWord_encode .wrbit, fun s hi => ?_, fun s hp hi => exec_outOfRange hp (indexCheck_outOfRange.2 hi)⟩
  exact ⟨(effectOf .wrbit s).succeed, exec_ok (indexCheck_ok.2 hi), endsOk_succeed _,
    (pixAt_effectOf_wrbit_same s).trans (wbit_eq_or _ _), fun a ha => pixAt_effectOf_wrbit_other s ha,
    sameOperands_effectOf_wrbit s, congrFun (effectOf_msgAt s nofun nofun nofun), congrFun (effectOf_pwdAt s),
    congrFun (effectOf_bitsAt s nofun nofun), rfl, rfl, rfl⟩

/-- Settles O27: RDBIT's one check is the index, and its effect writes `BIT` alone. -/
theorem rdbitReadsOneSample : Obligations.RdbitReadsOneSample := by
  unfold Obligations.RdbitReadsOneSample
  refine ⟨decodeWord_encode .rdbit, fun s hi => ?_, fun s hp hi => exec_outOfRange hp (indexCheck_outOfRange.2 hi)⟩
  exact ⟨(effectOf .rdbit s).succeed, exec_ok (indexCheck_ok.2 hi), endsOk_succeed _,
    (bit_effectOf_rdbit s).trans (rbit_eq_decide _), effectOf_sameHostRegs s, effectOf_mlen s nofun nofun,
    effectOf_blen s nofun, effectOf_pos s nofun nofun nofun nofun, effectOf_cap s nofun, effectOf_key s nofun,
    congrFun (effectOf_pixAt s nofun nofun nofun), congrFun (effectOf_msgAt s nofun nofun nofun),
    congrFun (effectOf_pwdAt s), congrFun (effectOf_bitsAt s nofun nofun), rfl, rfl, rfl⟩

/-- Settles O39: the inverse laws and the lengths of the two functions. -/
theorem packingAndUnpackingAreInverse : Obligations.PackingAndUnpackingAreInverse := by
  unfold Obligations.PackingAndUnpackingAreInverse
  exact ⟨bitsToBytes_bytesToBits, bytesToBits_bitsToBytes, bytesToBits_bitsToBytes_of_whole, length_bytesToBits,
    length_bitsToBytes⟩

/-- Settles O47: PACK leaves the expansion of the message as UNPACK's operand. -/
theorem packThenUnpackRestoresMessage : Obligations.PackThenUnpackRestoresMessage := by
  unfold Obligations.PackThenUnpackRestoresMessage
  intro s
  have hblen : (effectOf .pack s).succeed.blen.toNat = 8 * s.mlen.toNat := toNat_blen_effectOf_pack s
  have hbits : (effectOf .pack s).succeed.bitSeq = bytesToBits s.message := bitSeq_effectOf_pack s
  have hmsg : (effectOf .pack s).succeed.msgAt = s.msgAt := effectOf_msgAt s nofun nofun nofun
  have hok := unpackCheck_of_packed hblen
  refine ⟨(effectOf .pack s).succeed, _, exec_ok rfl, exec_ok hok, statusDone_ok, ?mlen,
    msgAt_effectOf_unpack_of_packed hblen hbits hmsg⟩
  case mlen =>
    refine BitVec.eq_of_toNat_eq ?_
    rw [State.succeed_mlen, toNat_mlen_effectOf_unpack hok, hblen, ceilDiv8_mul]

/-- Settles O49: WRBIT leaves `IDX` and `PIXLEN`, so RDBIT reads the sample just written. -/
theorem writeBitThenReadBit : Obligations.WriteBitThenReadBit := by
  unfold Obligations.WriteBitThenReadBit
  intro s b hi
  have hread : indexCheck ((effectOf .wrbit s).succeed.setBit b) = .ok := indexCheck_ok.2 hi
  refine ⟨(effectOf .wrbit s).succeed, _, exec_ok (indexCheck_ok.2 hi), exec_ok hread, statusDone_ok, ?bit⟩
  case bit =>
    calc (effectOf .rdbit ((effectOf .wrbit s).succeed.setBit b)).succeed.bit
        = rbit ((effectOf .wrbit s).pixAt s.idx.toNat) := bit_effectOf_rdbit _
      _ = s.bit := by rw [pixAt_effectOf_wrbit_same, rbit_wbit]

/-- Settles O38: the two functions written out, and their laws. -/
theorem bitWriteAndReadLaws : Obligations.BitWriteAndReadLaws := by
  unfold Obligations.BitWriteAndReadLaws
  exact fun s a b =>
    ⟨wbit_eq_or s b, rbit_eq_decide s, rbit_wbit s b, wbit_rbit s, wbit_wbit s a b, toNat_wbit_div_two s b⟩

end Sys2Proof.Machine


/-!
PROOFS of the family 42_stream_engine: the stream map as a bijection with the carriers (R95, R96), what a stream write does
to one sample (R100), what EMBED and EXTRACT leave in each cell and in `POS` (R98, R99), and the obligations from these
lemmas.
-/
namespace Sys2Proof.Machine

/-! ### The stream map -/

theorem sidx_eq (k : Nat) : sidx k = 4 * (k / 3) + k % 3 := by rfl

theorem sidx_strictMono {j k : Nat} (h : j < k) : sidx j < sidx k := by
  rw [sidx_eq, sidx_eq]
  omega

/-- The inverse of `sidx` on the samples that are not alpha (42_stream_engine R96). -/
theorem sidx_position {i : Nat} (h : i % 4 ≠ 3) : sidx (3 * (i / 4) + i % 4) = i := by
  rw [sidx_eq]
  omega

theorem mod_ne_three_iff_exists_sidx (i : Nat) : i % 4 ≠ 3 ↔ ∃ k, sidx k = i := by
  constructor
  · exact fun h => ⟨_, sidx_position h⟩
  · rintro ⟨k, rfl⟩
    exact sidx_mod k

/-! ### One sample after a stream write -/

section
variable (s : State) (p : Nat) (bs : List Bit)

/-- A stream write does to each sample nothing or one bit write. -/
theorem pixAt_writeStream_cases (a : Nat) :
    (s.writeStream p bs).pixAt a = s.pixAt a ∨ ∃ b, (s.writeStream p bs).pixAt a = wbit (s.pixAt a) b := by
  by_cases h : ∃ t, ∃ ht : t < bs.length, a = sidx (p + t)
  · obtain ⟨t, ht, rfl⟩ := h
    exact .inr ⟨bs[t], State.pixAt_writeStream_in bs s p t ht⟩
  · exact .inl (State.pixAt_writeStream_out bs s p a fun t ht e => h ⟨t, ht, e⟩)

theorem pixAt_writeStream_alpha {a : Nat} (h : a % 4 = 3) : (s.writeStream p bs).pixAt a = s.pixAt a :=
  State.pixAt_writeStream_out bs s p a fun t _ e => sidx_mod (p + t) (e ▸ h)

theorem getLsbD_pixAt_writeStream (a : Nat) {j : Nat} (h : 1 ≤ j) :
    ((s.writeStream p bs).pixAt a).getLsbD j = (s.pixAt a).getLsbD j := by
  rcases pixAt_writeStream_cases s p bs a with he | ⟨b, he⟩
  · rw [he]
  · rw [he, getLsbD_wbit _ _ _ h]

theorem pixAt_writeStream_sidx_out {k : Nat} (h : k < p ∨ p + bs.length ≤ k) :
    (s.writeStream p bs).pixAt (sidx k) = s.pixAt (sidx k) :=
  State.pixAt_writeStream_out bs s p _ fun t ht e => by
    have hk := sidx_inj e
    omega

theorem readStream_writeStream : (s.writeStream p bs).readStream p bs.length = bs :=
  List.ext_getElem (State.length_readStream _ _ _) fun t ht hbs => by
    rw [State.getElem_readStream _ _ _ _ ht, State.streamAt_writeStream_in bs s p t hbs]

end

/-! ### The cursor and the shape check -/

/-- A range that fits the stream ends at a position that fits the 36 bits of `POS`. -/
theorem toNat_pos_advancePos {s : State} (h : streamCheck s = .ok) :
    s.advancePos.pos.toNat = s.pos.toNat + s.blen.toNat := by
  have hfits := (streamCheck_ok.1 h).2
  have hcarriers := carriers_lt s
  rw [State.advancePos_pos, BitVec.toNat_ofNat, Nat.mod_eq_of_lt (by omega)]

/-- A command whose checks answer `InvalidInput` ends so and has changed nothing else (60_exceptions R151). -/
theorem exec_invalidInput {i : Instr} {s : State} (hp : s.progress.toNat ≤ 100) (hc : checkOf i s = .invalidInput) :
    ∃ t, exec i s = .next t ∧ s.OnlyOutcome t 0x32#8 :=
  ⟨s.raise .invalidInput, exec_raise hc nofun, statusDone_invalidInput ▸ onlyOutcome_raise s .invalidInput hp⟩

/-! ### What EMBED leaves -/

section
variable (s : State)

theorem pos_effectOf_embed : (effectOf .embed s).pos = s.advancePos.pos := by
  rw [effectOf_embed, State.advancePos_pos, State.writeStream_pos, State.writeStream_blen, State.advancePos_pos]

theorem pixAt_effectOf_embed_in {u : Nat} (h : u < s.blen.toNat) :
    (effectOf .embed s).pixAt (sidx (s.pos.toNat + u)) = wbit (s.pixAt (sidx (s.pos.toNat + u))) (s.bitsAt u) := by
  have hu : u < s.bitSeq.length := by rwa [State.length_bitSeq]
  rw [effectOf_embed, State.advancePos_pixAt, State.pixAt_writeStream_in _ _ _ _ hu, State.getElem_bitSeq]

theorem pixAt_effectOf_embed_out {a : Nat} (h : ∀ u, u < s.blen.toNat → a ≠ sidx (s.pos.toNat + u)) :
    (effectOf .embed s).pixAt a = s.pixAt a := by
  rw [effectOf_embed, State.advancePos_pixAt, State.pixAt_writeStream_out]
  rwa [State.length_bitSeq]

/-- The written range of the stream reads as the embedded bits (42_stream_engine R100). -/
theorem streamAt_effectOf_embed {k : Nat} (h : k < s.blen.toNat) :
    (effectOf .embed s).streamAt (s.pos.toNat + k) = s.bitsAt k := by
  rw [State.streamAt, pixAt_effectOf_embed_in s h, rbit_wbit]

/-! ### What EXTRACT leaves -/

theorem pos_effectOf_extract : (effectOf .extract s).pos = s.advancePos.pos := by
  rw [effectOf_extract, State.advancePos_pos, State.writeBits_pos, State.writeBits_blen, State.advancePos_pos]

theorem bitsAt_effectOf_extract {k : Nat} (h : k < s.blen.toNat) :
    (effectOf .extract s).bitsAt k = s.streamAt (s.pos.toNat + k) := by
  have hk : k < (s.readStream s.pos.toNat s.blen.toNat).length := by rwa [State.length_readStream]
  rw [effectOf_extract, State.advancePos_bitsAt, State.bitsAt_writeBits_zero s k _ hk, State.getElem_readStream]

theorem bitsAt_effectOf_extract_beyond {a : Nat} (h : s.blen.toNat ≤ a) :
    (effectOf .extract s).bitsAt a = s.bitsAt a := by
  rw [effectOf_extract, State.advancePos_bitsAt, State.bitsAt_writeBits_out]
  rw [State.length_readStream]
  omega

end

/-! ### EXTRACT of the range that EMBED wrote -/

section
variable {s v : State}

theorem advancePos_pos_congr (hpos : v.pos = s.pos) (hblen : v.blen = s.blen) : v.advancePos.pos = s.advancePos.pos := by
  rw [State.advancePos_pos, State.advancePos_pos, hpos, hblen]

/-- The checks of EMBED and EXTRACT depend on the shape, `POS` and `BLEN` alone. -/
theorem streamCheck_congr (hregs : s.SameHostRegs v) (hpos : v.pos = s.pos) (hblen : v.blen = s.blen) :
    streamCheck v = streamCheck s := by
  obtain ⟨hw, hh, hpixlen, -, -⟩ := hregs
  have hshape : v.ShapeOk ↔ s.ShapeOk := by rw [shapeOk_iff, shapeOk_iff, hw, hh, hpixlen]
  have hcarriers : v.carriers = s.carriers := by rw [carriers_eq, carriers_eq, hw, hh]
  rw [streamCheck, streamCheck, hpos, hblen, hcarriers]
  exact if_congr (not_congr hshape) rfl rfl

/-- EXTRACT at the place where EMBED started, on the samples EMBED left, returns the embedded bits (42_stream_engine R99). -/
theorem exec_extract_of_embedded (hok : streamCheck s = .ok) (hregs : s.SameHostRegs v) (hpos : v.pos = s.pos)
    (hblen : v.blen = s.blen) (hpix : v.pixAt = (effectOf .embed s).pixAt) :
    ∃ u, exec .extract v = .next u ∧ u.status = 0x02#8 ∧ u.pos = s.advancePos.pos ∧
      ∀ k, k < s.blen.toNat → u.bitsAt k = s.bitsAt k := by
  have hcheck : streamCheck v = .ok := (streamCheck_congr hregs hpos hblen).trans hok
  refine ⟨(effectOf .extract v).succeed, exec_ok hcheck, statusDone_ok,
    (pos_effectOf_extract v).trans (advancePos_pos_congr hpos hblen), fun k hk => ?bits⟩
  case bits =>
    calc (effectOf .extract v).succeed.bitsAt k
        = v.streamAt (v.pos.toNat + k) := bitsAt_effectOf_extract v (by rwa [hblen])
      _ = (effectOf .embed s).streamAt (s.pos.toNat + k) := by rw [State.streamAt, hpix, hpos, State.streamAt]
      _ = s.bitsAt k := streamAt_effectOf_embed s hk

end

/-! ### The obligations -/

/-- Settles O30: EMBED's checks are the shape and the range, and its effect is one stream write and the new `POS`. -/
theorem embedWritesStream : Obligations.EmbedWritesStream := by
  unfold Obligations.EmbedWritesStream
  refine ⟨decodeWord_encode .embed, fun s hp hshape => exec_invalidInput hp (streamCheck_invalidInput.2 hshape),
    fun s hp hshape hlong => exec_outOfRange hp (streamCheck_outOfRange.2 ⟨hshape, hlong⟩), fun s hshape hfits => ?_⟩
  have hok : streamCheck s = .ok := streamCheck_ok.2 ⟨hshape, hfits⟩
  exact ⟨(effectOf .embed s).succeed, exec_ok hok, endsOk_succeed _,
    (congrArg BitVec.toNat (pos_effectOf_embed s)).trans (toNat_pos_advancePos hok),
    fun u hu => pixAt_effectOf_embed_in s hu, fun a ha => pixAt_effectOf_embed_out s ha,
    effectOf_sameHostRegs s, effectOf_mlen s nofun nofun, effectOf_bit s nofun, effectOf_blen s nofun,
    effectOf_cap s nofun, effectOf_key s nofun, congrFun (effectOf_msgAt s nofun nofun nofun),
    congrFun (effectOf_pwdAt s), congrFun (effectOf_bitsAt s nofun nofun), by simp [State.SameModelFields]⟩

/-- Settles O31: EXTRACT's checks are those of EMBED, and its effect writes the bits it reads and the new `POS`. -/
theorem extractReadsStream : Obligations.ExtractReadsStream := by
  unfold Obligations.ExtractReadsStream
  refine ⟨decodeWord_encode .extract, fun s hp hshape => exec_invalidInput hp (streamCheck_invalidInput.2 hshape),
    fun s hp hshape hlong => exec_outOfRange hp (streamCheck_outOfRange.2 ⟨hshape, hlong⟩), fun s hshape hfits => ?_⟩
  have hok : streamCheck s = .ok := streamCheck_ok.2 ⟨hshape, hfits⟩
  exact ⟨(effectOf .extract s).succeed, exec_ok hok, endsOk_succeed _,
    (congrArg BitVec.toNat (pos_effectOf_extract s)).trans (toNat_pos_advancePos hok),
    fun u hu => (bitsAt_effectOf_extract s hu).trans (rbit_eq_getLsbD _), fun a ha => bitsAt_effectOf_extract_beyond s ha,
    effectOf_sameHostRegs s, effectOf_mlen s nofun nofun, effectOf_bit s nofun, effectOf_blen s nofun,
    effectOf_cap s nofun, effectOf_key s nofun, congrFun (effectOf_pixAt s nofun nofun nofun),
    congrFun (effectOf_msgAt s nofun nofun nofun), congrFun (effectOf_pwdAt s), rfl, rfl, rfl⟩

/-- Settles O41: each sample is left alone or takes one bit write, and no alpha sample is on the stream. -/
theorem streamWritePreservesImage : Obligations.StreamWritePreservesImage := by
  unfold Obligations.StreamWritePreservesImage
  exact fun s p bs =>
    ⟨fun _ ha => pixAt_writeStream_alpha s p bs ha, fun a _ hj => getLsbD_pixAt_writeStream s p bs a hj,
      fun _ hk => pixAt_writeStream_sidx_out s p bs hk, readStream_writeStream s p bs⟩

/-- Settles O50: setting `POS` back and writing `BITS` keep what EXTRACT is to read. -/
theorem embedThenExtractReturnsBits : Obligations.EmbedThenExtractReturnsBits := by
  unfold Obligations.EmbedThenExtractReturnsBits
  intro s hshape hfits
  have hok : streamCheck s = .ok := streamCheck_ok.2 ⟨hshape, hfits⟩
  refine ⟨(effectOf .embed s).succeed, exec_ok hok, fun base junk => ?_⟩
  have hpos : (effectOf .embed s).succeed.pos = s.advancePos.pos := pos_effectOf_embed s
  rw [hpos]
  refine exec_extract_of_embedded hok ?regs ?pos ?blen ?pix
  case regs => exact effectOf_sameHostRegs (i := .embed) s
  case pos => rw [State.writeBits_pos, State.setPos_pos]
  case blen => exact effectOf_blen (i := .embed) s nofun
  case pix => rw [State.writeBits_pixAt, State.setPos_pixAt, State.succeed_pixAt]

/-- Settles O40: the map, its inverse on the samples that are not alpha, and where the first pixels end. -/
theorem streamMapProperties : Obligations.StreamMapProperties := by
  unfold Obligations.StreamMapProperties
  exact ⟨sidx_eq, fun _ _ h => sidx_strictMono h, mod_ne_three_iff_exists_sidx, fun _ h => sidx_position h, sidx_lt_iff⟩

end Sys2Proof.Machine


/-!
PROOFS of the family 43_password_mask: the hash as a recurrence over the prefixes of the password (R105), the laws of the mask
(R107 to R109), what PWHASH and XMASK leave in `KEY` and in each cell (R110, R111), and the obligations from these lemmas.
-/
namespace Sys2Proof.Machine

/-! ### The hash, prefix by prefix -/

/-- `h[i]` of 43_password_mask R105: the hash of the first `i` characters, before the absolute value. -/
def hashPrefix (p : List CharCode) (i : Nat) : Int := (p.take i).foldl hashStep hashSeed

@[simp] theorem hashPrefix_zero (p : List CharCode) : hashPrefix p 0 = 0 := by rfl

theorem hashPrefix_succ (p : List CharCode) {i : Nat} (h : i < p.length) :
    hashPrefix p (i + 1) = hashStep (hashPrefix p i) p[i] := by
  rw [hashPrefix, List.take_succ_eq_append_getElem h, List.foldl_append, hashPrefix, List.foldl_cons, List.foldl_nil]

theorem hashStep_eq_bmod (h : Int) (c : CharCode) : hashStep h c = (h * 31 + (c.toNat : Int)).bmod (2 ^ 32) :=
  wrap32s_eq_bmod _

theorem passwordHash_eq_natAbs_hashPrefix (p : List CharCode) : passwordHash p = (hashPrefix p p.length).natAbs := by
  rw [passwordHash, hashPrefix, List.take_length]

/-! ### The mask -/

theorem toNat_maskByte (key i : Nat) : (maskByte key i).toNat = (key + i) % 256 := by
  rw [maskByte, BitVec.toNat_ofNat]
  exact Nat.mod_mod _ _

theorem maskByte_eq_iff (k1 k2 i : Nat) : maskByte k1 i = maskByte k2 i ↔ k1 % 256 = k2 % 256 := by
  rw [← BitVec.toNat_inj, toNat_maskByte, toNat_maskByte]
  omega

theorem maskByte_eq_zero_iff (key i : Nat) : maskByte key i = 0#8 ↔ (key + i) % 256 = 0 := by
  rw [← BitVec.toNat_inj, toNat_maskByte, BitVec.toNat_ofNat, Nat.zero_mod]

theorem xor_eq_self_iff (b x : Byte) : b ^^^ x = b ↔ x = 0#8 := by
  simpa only [BitVec.xor_zero] using BitVec.xor_right_inj (x := x) (y := 0#8) b

/-- Two masks leave a byte alone exactly when they mask it alike. -/
theorem xor_xor_eq_self_iff (b x y : Byte) : b ^^^ x ^^^ y = b ↔ x = y := by
  rw [BitVec.xor_assoc, xor_eq_self_iff, BitVec.xor_eq_zero_iff]

/-- Congruent keys mask alike (43_password_mask R109). -/
theorem maskSeq_congr {k1 k2 : Nat} (m : List Byte) (h : k1 % 256 = k2 % 256) : maskSeq k1 m = maskSeq k2 m := by
  have hlen : (maskSeq k1 m).length = (maskSeq k2 m).length := by rw [length_maskSeq, length_maskSeq]
  refine List.ext_getElem hlen fun i _ _ => ?_
  rw [getElem_maskSeq, getElem_maskSeq, (maskByte_eq_iff k1 k2 i).2 h]

theorem getElem_maskSeq_maskSeq (k1 k2 : Nat) (m : List Byte) (i : Nat) (h : i < (maskSeq k1 (maskSeq k2 m)).length) :
    (maskSeq k1 (maskSeq k2 m))[i] = m[i]'(by simpa using h) ^^^ maskByte k2 i ^^^ maskByte k1 i := by
  rw [getElem_maskSeq, getElem_maskSeq]

/-- The mask is an involution (43_password_mask R108). -/
theorem maskSeq_maskSeq (key : Nat) (m : List Byte) : maskSeq key (maskSeq key m) = m := by
  have hlen : (maskSeq key (maskSeq key m)).length = m.length := by rw [length_maskSeq, length_maskSeq]
  refine List.ext_getElem hlen fun i _ _ => ?_
  rw [getElem_maskSeq_maskSeq, xor_xor_eq_self_iff]

/-- A second mask of a non-empty sequence undoes the first only with a congruent key: its first byte tells (43_password_mask
R109). -/
theorem mod_eq_of_maskSeq_maskSeq {k1 k2 : Nat} {m : List Byte} (hm : m ≠ []) (h : maskSeq k1 (maskSeq k2 m) = m) :
    k1 % 256 = k2 % 256 := by
  have h0 : 0 < (maskSeq k1 (maskSeq k2 m)).length := h.symm ▸ List.length_pos_of_ne_nil hm
  have hbyte := (getElem_maskSeq_maskSeq k1 k2 m 0 h0).symm.trans (List.getElem_of_eq h h0)
  exact ((maskByte_eq_iff k2 k1 0).1 ((xor_xor_eq_self_iff _ _ _).1 hbyte)).symm

theorem maskSeq_maskSeq_eq_self_iff (k1 k2 : Nat) {m : List Byte} (hm : m ≠ []) :
    maskSeq k1 (maskSeq k2 m) = m ↔ k1 % 256 = k2 % 256 :=
  ⟨mod_eq_of_maskSeq_maskSeq hm, fun h => by rw [maskSeq_congr _ h, maskSeq_maskSeq]⟩

/-- A mask leaves exactly the bytes where the mask byte is 0. -/
theorem getElem?_maskSeq_eq_some_iff (key : Nat) {m : List Byte} {i : Nat} (h : i < m.length) :
    (maskSeq key m)[i]? = some m[i] ↔ (key + i) % 256 = 0 := by
  have hi : i < (maskSeq key m).length := by rwa [length_maskSeq]
  rw [List.getElem?_eq_getElem hi, Option.some_inj, getElem_maskSeq, xor_eq_self_iff, maskByte_eq_zero_iff]

/-! ### What PWHASH and XMASK leave -/

section
variable (s : State)

/-- A key fits the 32 bits of `KEY` (10_state R20). -/
theorem toNat_key_effectOf_pwhash : (effectOf .pwhash s).key.toNat = passwordHash s.password := by
  have hkey := passwordHash_le s.password
  rw [effectOf_pwhash, State.setKey_key, BitVec.toNat_ofNat, Nat.mod_eq_of_lt (by omega)]

/-- The recurrence of 43_password_mask R105 on the cells of `PWD`. -/
theorem hashPrefix_password_succ {i : Nat} (h : i < s.plen.toNat) :
    hashPrefix s.password (i + 1) = (hashPrefix s.password i * 31 + ((s.pwdAt i).toNat : Int)).bmod (2 ^ 32) := by
  have hi : i < s.password.length := by rwa [State.length_password]
  rw [hashPrefix_succ _ hi, hashStep_eq_bmod, State.getElem_password]

theorem msgAt_effectOf_xmask {i : Nat} (h : i < s.mlen.toNat) :
    (effectOf .xmask s).msgAt i = s.msgAt i ^^^ maskByte s.key.toNat i := by
  have hi : i < (maskSeq s.key.toNat s.message).length := by rwa [length_maskSeq, State.length_message]
  rw [effectOf_xmask, State.msgAt_writeMsg_zero s i _ hi, getElem_maskSeq, State.getElem_message]

theorem msgAt_effectOf_xmask_beyond {a : Nat} (h : s.mlen.toNat ≤ a) : (effectOf .xmask s).msgAt a = s.msgAt a := by
  rw [effectOf_xmask, State.msgAt_writeMsg_out]
  rw [length_maskSeq, State.length_message]
  omega

theorem sameOperands_effectOf_xmask : s.SameOperands (effectOf .xmask s) :=
  ⟨effectOf_sameHostRegs s, effectOf_mlen s nofun nofun, effectOf_bit s nofun, effectOf_blen s nofun,
    effectOf_pos s nofun nofun nofun nofun, effectOf_cap s nofun, effectOf_key s nofun⟩

end

theorem sameOperands_trans {s t u : State} (hst : s.SameOperands t) (htu : t.SameOperands u) : s.SameOperands u := by
  obtain ⟨⟨hw, hh, hpixlen, hplen, hidx⟩, hmlen, hbit, hblen, hpos, hcap, hkey⟩ := hst
  simpa only [State.SameOperands, State.SameHostRegs, hw, hh, hpixlen, hplen, hidx, hmlen, hbit, hblen, hpos, hcap, hkey]
    using htu

/-- A second XMASK with the same `MLEN` and `KEY` undoes the first, cell by cell (43_password_mask R108, R111). -/
theorem msgAt_effectOf_xmask_of_masked {s t : State} (hmlen : t.mlen = s.mlen) (hkey : t.key = s.key)
    (hmsg : t.msgAt = (effectOf .xmask s).msgAt) (a : Nat) : (effectOf .xmask t).msgAt a = s.msgAt a := by
  by_cases ha : a < s.mlen.toNat
  · rw [msgAt_effectOf_xmask t (by rwa [hmlen]), hmsg, msgAt_effectOf_xmask s ha, hkey, xor_xor_eq_self_iff]
  · have ha : s.mlen.toNat ≤ a := Nat.le_of_not_lt ha
    rw [msgAt_effectOf_xmask_beyond t (by rwa [hmlen]), hmsg, msgAt_effectOf_xmask_beyond s ha]

/-! ### The obligations -/

/-- Settles O28: PWHASH has no checks, and its effect writes `KEY` alone; the sequence is that of the hashed prefixes. -/
theorem pwhashDerivesKey : Obligations.PwhashDerivesKey := by
  unfold Obligations.PwhashDerivesKey
  refine ⟨decodeWord_encode .pwhash, fun s =>
    ⟨(effectOf .pwhash s).succeed, exec_ok rfl, endsOk_succeed _,
      ⟨hashPrefix s.password, hashPrefix_zero _, fun i hi => hashPrefix_password_succ s hi, ?key⟩,
      effectOf_sameHostRegs s, effectOf_mlen s nofun nofun, effectOf_bit s nofun, effectOf_blen s nofun,
      effectOf_pos s nofun nofun nofun nofun, effectOf_cap s nofun, congrFun (effectOf_pixAt s nofun nofun nofun),
      congrFun (effectOf_msgAt s nofun nofun nofun), congrFun (effectOf_pwdAt s),
      congrFun (effectOf_bitsAt s nofun nofun), rfl, rfl, rfl⟩⟩
  case key =>
    rw [State.succeed_key, toNat_key_effectOf_pwhash, passwordHash_eq_natAbs_hashPrefix, State.length_password]

/-- Settles O29: XMASK has no checks, and its effect writes the first `MLEN` cells of `MSG` alone. -/
theorem xmaskMasksMessage : Obligations.XmaskMasksMessage := by
  unfold Obligations.XmaskMasksMessage
  exact ⟨decodeWord_encode .xmask, fun s =>
    ⟨(effectOf .xmask s).succeed, exec_ok rfl, endsOk_succeed _, fun _ hi => msgAt_effectOf_xmask s hi,
      fun _ ha => msgAt_effectOf_xmask_beyond s ha, sameOperands_effectOf_xmask s,
      congrFun (effectOf_pixAt s nofun nofun nofun), congrFun (effectOf_pwdAt s),
      congrFun (effectOf_bitsAt s nofun nofun), rfl, rfl, rfl⟩⟩

/-- Settles O44: mask bytes are equal exactly for congruent keys, and a byte is left alone exactly by the mask byte 0. -/
theorem onlyLowKeyByteMatters : Obligations.OnlyLowKeyByteMatters := by
  unfold Obligations.OnlyLowKeyByteMatters
  refine ⟨fun key i => (maskByte_mod key i).symm, fun _ _ m h => maskSeq_congr m h,
    fun k1 k2 _ hm => maskSeq_maskSeq_eq_self_iff k1 k2 hm, fun key i m h hkey => ?_⟩
  have hmod : (key + i) % 256 = 0 ↔ i % 256 = 0 := by omega
  exact (getElem?_maskSeq_eq_some_iff key h).trans hmod

/-- Settles O48: XMASK leaves `MLEN` and `KEY`, so the second one masks the same cells with the same bytes. -/
theorem maskTwiceRestoresMessage : Obligations.MaskTwiceRestoresMessage := by
  unfold Obligations.MaskTwiceRestoresMessage
  intro s
  refine ⟨(effectOf .xmask s).succeed, (effectOf .xmask (effectOf .xmask s).succeed).succeed, exec_ok rfl, exec_ok rfl,
    ?msg, ?operands⟩
  case msg =>
    exact msgAt_effectOf_xmask_of_masked (effectOf_mlen (i := .xmask) s nofun nofun) (effectOf_key (i := .xmask) s nofun) rfl
  case operands =>
    exact sameOperands_trans (t := (effectOf .xmask s).succeed) (sameOperands_effectOf_xmask s)
      (sameOperands_effectOf_xmask _)

/-- Settles O43: byte by byte, two equal mask bytes cancel. -/
theorem maskIsInvolution : Obligations.MaskIsInvolution := by
  unfold Obligations.MaskIsInvolution
  exact fun key m => ⟨maskSeq_maskSeq key m, length_maskSeq key m⟩

end Sys2Proof.Machine

/-!
PROOFS of the family 44_frame_codec: when a frame fits (R118), what ENCODE and DECODE leave in each cell and register (R118,
R122), what the outcome of DECODE depends on, DECODE of the frame that ENCODE wrote under any two passwords, and the
obligations from these lemmas.
-/
namespace Sys2Proof.Machine

/-! ### When a frame fits -/

/-- From 64 carriers on, 64 bits and the message fit exactly up to the capacity: the division by 8 rounds down. -/
theorem frame_fits_iff {w h l : Nat} (hcarriers : 64 ≤ 3 * (w * h)) : 64 + 8 * l ≤ 3 * (w * h) ↔ l ≤ capacity w h := by
  rw [capacity_eq]
  omega

theorem capacity_eq_zero {w h : Nat} (hcarriers : 3 * (w * h) < 64) : capacity w h = 0 := by
  rw [capacity_eq_ite, if_pos hcarriers]

/-- For a message of at least one byte the capacity check of ENCODE alone decides whether the frame fits. -/
theorem encodeCheck_ok_of_le_capacity {s : State} (hshape : s.ShapeOk) (hone : 1 ≤ s.mlen.toNat)
    (hcap : s.mlen.toNat ≤ capacity s.w.toNat s.h.toNat) : encodeCheck s = .ok := by
  have hfits : 64 + 8 * s.mlen.toNat ≤ s.carriers := by
    rw [carriers_eq]
    rw [capacity_eq] at hcap
    omega
  exact encodeCheck_ok.2 ⟨hshape, hcap, hfits⟩

/-! ### The two outcomes of the codec that no other command has -/

/-- A command whose checks answer `CapacityExceeded` ends so and has changed nothing else (60_exceptions R151). -/
theorem exec_capacityExceeded {i : Instr} {s : State} (hp : s.progress.toNat ≤ 100) (hc : checkOf i s = .capacityExceeded) :
    ∃ t, exec i s = .next t ∧ s.OnlyOutcome t 0x12#8 :=
  ⟨s.raise .capacityExceeded, exec_raise hc nofun,
    statusDone_capacityExceeded ▸ onlyOutcome_raise s .capacityExceeded hp⟩

/-- A command whose checks answer `NotFound` ends so and has changed nothing else (60_exceptions R151). -/
theorem exec_notFound {i : Instr} {s : State} (hp : s.progress.toNat ≤ 100) (hc : checkOf i s = .notFound) :
    ∃ t, exec i s = .next t ∧ s.OnlyOutcome t 0x22#8 :=
  ⟨s.raise .notFound, exec_raise hc nofun, statusDone_notFound ▸ onlyOutcome_raise s .notFound hp⟩

/-! ### The frame of 30_encoding R60, bit by bit -/

theorem frameBit_header (s : State) {k : Nat} (h : k < 32) : s.frameBit k = s.mlen.getLsbD (31 - k) := by
  rw [State.frameBit, if_pos h]

theorem frameBit_payload (s : State) {i j : Nat} (hi : i < s.mlen.toNat) (hj : j < 8) :
    s.frameBit (32 + 8 * i + j) = (s.msgAt i ^^^ s.maskAt i).getLsbD (7 - j) := by
  have hdiv : (32 + 8 * i + j - 32) / 8 = i := by omega
  have hmod : (32 + 8 * i + j - 32) % 8 = j := by omega
  rw [State.frameBit, if_neg (by omega), if_pos (by omega), hdiv, hmod]

/-! ### What ENCODE leaves -/

/-- A frame that fits the stream ends at a position that fits the 36 bits of `POS`. -/
theorem toNat_pos_effectOf_encode {s : State} (h : encodeCheck s = .ok) :
    (effectOf .encode s).pos.toNat = 64 + 8 * s.mlen.toNat := by
  obtain ⟨-, -, hfits⟩ := encodeCheck_ok.1 h
  have hcarriers := carriers_lt s
  rw [effectOf_encode, State.setPos_pos, reserveBits, BitVec.toNat_ofNat, Nat.mod_eq_of_lt (by omega)]

section
variable (s : State)

theorem length_encodedFrame : (frameBits s.mlen (encodeBody s)).length = 64 + 8 * s.mlen.toNat := by
  rw [length_frameBits, length_encodeBody]

theorem pixAt_effectOf_encode_in {k : Nat} (h : k < 64 + 8 * s.mlen.toNat) :
    (effectOf .encode s).pixAt (sidx k) = wbit (s.pixAt (sidx k)) (s.frameBit k) := by
  have hk : k < (frameBits s.mlen (encodeBody s)).length := by rwa [length_encodedFrame]
  have hin := State.pixAt_writeStream_in _ s 0 k hk
  rw [Nat.zero_add] at hin
  rw [effectOf_encode, State.setPos_pixAt, hin, getElem_frameBits_eq_frameBit]

theorem pixAt_effectOf_encode_out {a : Nat} (h : ∀ k, k < 64 + 8 * s.mlen.toNat → a ≠ sidx k) :
    (effectOf .encode s).pixAt a = s.pixAt a := by
  rw [effectOf_encode, State.setPos_pixAt, State.pixAt_writeStream_out]
  intro k hk
  rw [Nat.zero_add]
  exact h k (by rwa [length_encodedFrame] at hk)

/-- The first positions of the stream read as the frame. -/
theorem streamAt_effectOf_encode {k : Nat} (h : k < 64 + 8 * s.mlen.toNat) :
    (effectOf .encode s).streamAt k = s.frameBit k := by
  rw [State.streamAt, pixAt_effectOf_encode_in s h, rbit_wbit]

end

/-! ### What DECODE leaves -/

/-- A payload that fits the stream ends at a position that fits the 36 bits of `POS`. -/
theorem toNat_pos_effectOf_decode {s : State} (h : decodeCheck s = .ok) :
    (effectOf .decode s).pos.toNat = 32 + 8 * declaredLength s := by
  obtain ⟨-, -, -, hfits⟩ := decodeCheck_ok.1 h
  have hcarriers := carriers_lt s
  rw [effectOf_decode, State.setPos_pos, headerBits, BitVec.toNat_ofNat, Nat.mod_eq_of_lt (by omega)]

section
variable (s : State)

theorem mlen_effectOf_decode {d : Len} (hd : declaredLength s = d.toNat) : (effectOf .decode s).mlen = d := by
  rw [effectOf_decode, State.setPos_mlen, State.setMlen_mlen, hd, BitVec.ofNat_toNat, BitVec.setWidth_eq]

/-- Bit `7 - j` of byte `i` is payload bit `8i + j`, unmasked (44_frame_codec R122, R125). -/
theorem getLsbD_msgAt_effectOf_decode {i j : Nat} (hi : i < declaredLength s) (hj : j ≤ 7) :
    ((effectOf .decode s).msgAt i).getLsbD (7 - j) = (s.streamAt (32 + 8 * i + j) ^^ (s.maskAt i).getLsbD (7 - j)) := by
  have hi' : i < (decodedMessage s).length := by rwa [length_decodedMessage]
  rw [effectOf_decode, State.setPos_msgAt, State.setMlen_msgAt, State.msgAt_writeMsg_zero s i _ hi',
    getLsbD_decodedMessage s i j hi' hj]

theorem msgAt_effectOf_decode_beyond {a : Nat} (h : declaredLength s ≤ a) : (effectOf .decode s).msgAt a = s.msgAt a := by
  rw [effectOf_decode, State.setPos_msgAt, State.setMlen_msgAt, State.msgAt_writeMsg_out]
  rw [length_decodedMessage]
  omega

end

/-! ### What the outcome of DECODE depends on -/

section
variable {s u : State}

theorem shapeOk_congr (hw : u.w = s.w) (hh : u.h = s.h) (hpixlen : u.pixlen = s.pixlen) : u.ShapeOk ↔ s.ShapeOk := by
  rw [shapeOk_iff, shapeOk_iff, hw, hh, hpixlen]

theorem carriers_congr (hw : u.w = s.w) (hh : u.h = s.h) : u.carriers = s.carriers := by
  rw [carriers_eq, carriers_eq, hw, hh]

theorem declaredLength_congr (hheader : ∀ k, k < 32 → u.streamAt k = s.streamAt k) :
    declaredLength u = declaredLength s := by
  have hread : u.readStream 0 headerBits = s.readStream 0 headerBits := by
    refine List.ext_getElem (by rw [State.length_readStream, State.length_readStream]) fun k hk _ => ?_
    rw [State.length_readStream] at hk
    rw [State.getElem_readStream, State.getElem_readStream, Nat.zero_add, hheader k hk]
  rw [declaredLength, declaredLength, hread]

/-- The payload enters the checks of DECODE by its length alone, which is the declared one (44_frame_codec R126). -/
theorem decodeCheck_congr (hw : u.w = s.w) (hh : u.h = s.h) (hpixlen : u.pixlen = s.pixlen)
    (hheader : ∀ k, k < 32 → u.streamAt k = s.streamAt k) : decodeCheck u = decodeCheck s := by
  rw [decodeCheck, decodeCheck, length_decodedMessage, length_decodedMessage, declaredLength_congr hheader,
    carriers_congr hw hh]
  exact if_congr (not_congr (shapeOk_congr hw hh hpixlen)) rfl rfl

theorem declares_zero (hzero : ∀ k, k < 32 → s.streamAt k = false) : s.Declares 0#32 := fun k hk => by
  rw [hzero k hk, BitVec.getLsbD_zero]

/-- With all carriers 0 there is no header, or the header declares the length 0. -/
theorem decodeCheck_of_zero_carriers (hshape : s.ShapeOk) (hzero : ∀ k, k < s.carriers → s.streamAt k = false) :
    decodeCheck s = .notFound := by
  refine decodeCheck_notFound.2 ⟨hshape, ?_⟩
  by_cases hheader : s.carriers < 32
  · exact .inl hheader
  · have hdeclares : s.Declares 0#32 := declares_zero fun k hk => hzero k (by omega)
    exact .inr (.inl (declaredLength_eq hdeclares))

end

/-! ### The mask of a password, and of none -/

section
variable {s u : State}

theorem maskAt_of_password (h : s.plen ≠ 0#16) (i : Nat) : s.maskAt i = maskByte (passwordHash s.password) i := by
  have hplen : s.plen.toNat ≠ 0 := fun h0 => h (BitVec.eq_of_toNat_eq h0)
  rw [State.maskAt, if_pos hplen, maskByte, maskMod]

theorem maskAt_of_no_password (h : s.plen = 0#16) (i : Nat) : s.maskAt i = 0#8 := by
  rw [State.maskAt, h]
  rfl

theorem password_congr (hplen : u.plen = s.plen) (hpwd : ∀ a, a < s.plen.toNat → u.pwdAt a = s.pwdAt a) :
    u.password = s.password := by
  refine List.ext_getElem (by rw [State.length_password, State.length_password, hplen]) fun a _ ha => ?_
  rw [State.length_password] at ha
  rw [State.getElem_password, State.getElem_password, hpwd a ha]

theorem maskAt_congr (hplen : u.plen = s.plen) (hpwd : ∀ a, a < s.plen.toNat → u.pwdAt a = s.pwdAt a) (i : Nat) :
    u.maskAt i = s.maskAt i := by
  rw [State.maskAt, State.maskAt, hplen, password_congr hplen hpwd]

end

/-- A mask leaves a message of at least one byte alone only if it has no second byte: two mask bytes in a row are not both
0. -/
theorem forall_maskByte_eq_zero_iff (key : Nat) {n : Nat} (hn : 1 ≤ n) :
    (∀ i, i < n → maskByte key i = 0#8) ↔ n = 1 ∧ key % 256 = 0 := by
  simp only [maskByte_eq_zero_iff]
  constructor
  · intro h
    have h0 := h 0 hn
    refine ⟨?_, h0⟩
    by_contra hone
    have h1 := h 1 (by omega)
    omega
  · rintro ⟨rfl, hkey⟩ i hi
    omega

/-- Two masks agree on a message of at least one byte exactly when the keys are congruent. -/
theorem forall_maskByte_eq_iff (k1 k2 : Nat) {n : Nat} (hn : 1 ≤ n) :
    (∀ i, i < n → maskByte k1 i = maskByte k2 i) ↔ k1 % 256 = k2 % 256 := by
  simp only [maskByte_eq_iff]
  exact ⟨fun h => h 0 hn, fun h _ _ => h⟩

/-! ### DECODE of the frame that ENCODE wrote -/

section
variable {s u : State}

/-- A completion touches no sample. -/
theorem pixAt_of_samePix_succeed (h : s.succeed.SamePix u) : u.pixAt = s.pixAt :=
  (funext h).trans (State.succeed_pixAt s)

theorem streamAt_of_encoded (hpix : u.pixAt = (effectOf .encode s).pixAt) {k : Nat} (hk : k < 64 + 8 * s.mlen.toNat) :
    u.streamAt k = s.frameBit k := by
  rw [← streamAt_effectOf_encode s hk, State.streamAt, State.streamAt, hpix]

theorem declares_of_encoded (hpix : u.pixAt = (effectOf .encode s).pixAt) : u.Declares s.mlen := fun k hk => by
  rw [streamAt_of_encoded hpix (by omega), frameBit_header s hk]

/-- DECODE finds a plausible length, and the payload within the stream. -/
theorem decodeCheck_of_encoded (hok : encodeCheck s = .ok) (hone : 1 ≤ s.mlen.toNat) (hmax : s.mlen.toNat ≤ 1000000)
    (hw : u.w = s.w) (hh : u.h = s.h) (hpixlen : u.pixlen = s.pixlen) (hpix : u.pixAt = (effectOf .encode s).pixAt) :
    decodeCheck u = .ok := by
  obtain ⟨hshape, -, hfits⟩ := encodeCheck_ok.1 hok
  rw [decodeCheck_ok, declaredLength_eq (declares_of_encoded hpix), carriers_congr hw hh]
  exact ⟨(shapeOk_congr hw hh hpixlen).2 hshape, hone, hmax, by omega⟩

/-- Each byte comes back under both masks: the sender's and the receiver's. -/
theorem msgAt_effectOf_decode_of_encoded (hpix : u.pixAt = (effectOf .encode s).pixAt) {i : Nat} (hi : i < s.mlen.toNat) :
    (effectOf .decode u).msgAt i = s.msgAt i ^^^ s.maskAt i ^^^ u.maskAt i := by
  have hi' : i < declaredLength u := by rwa [declaredLength_eq (declares_of_encoded hpix)]
  refine byte_ext_msb fun j hj => ?_
  rw [getLsbD_msgAt_effectOf_decode u hi' (by omega), streamAt_of_encoded hpix (by omega), frameBit_payload s hi hj,
    ← BitVec.getLsbD_xor]

/-- DECODE of an encoded image, in any engine of the same shape (44_frame_codec R118, R122). -/
theorem exec_decode_of_encoded (hok : encodeCheck s = .ok) (hone : 1 ≤ s.mlen.toNat) (hmax : s.mlen.toNat ≤ 1000000)
    (hw : u.w = s.w) (hh : u.h = s.h) (hpixlen : u.pixlen = s.pixlen) (hpix : u.pixAt = (effectOf .encode s).pixAt) :
    ∃ v, exec .decode u = .next v ∧ v.status = 0x02#8 ∧ v.mlen = s.mlen ∧
      ∀ i, i < s.mlen.toNat → v.msgAt i = s.msgAt i ^^^ s.maskAt i ^^^ u.maskAt i :=
  ⟨(effectOf .decode u).succeed, exec_ok (decodeCheck_of_encoded hok hone hmax hw hh hpixlen hpix), statusDone_ok,
    mlen_effectOf_decode u (declaredLength_eq (declares_of_encoded hpix)),
    fun _ hi => msgAt_effectOf_decode_of_encoded hpix hi⟩

/-- A doubly masked message is the message exactly when the two masks agree on it. -/
theorem forall_eq_iff_forall_maskAt_eq {v : State} {n : Nat}
    (hmsg : ∀ i, i < n → v.msgAt i = s.msgAt i ^^^ s.maskAt i ^^^ u.maskAt i) :
    (∀ i, i < n → v.msgAt i = s.msgAt i) ↔ ∀ i, i < n → s.maskAt i = u.maskAt i :=
  forall₂_congr fun i hi => by rw [hmsg i hi, xor_xor_eq_self_iff]

end

/-! ### The obligations -/

/-- Settles O32: ENCODE's three checks fail in their order, and its effect is one stream write of the frame and the new
`POS`. -/
theorem encodeWritesFrame : Obligations.EncodeWritesFrame := by
  unfold Obligations.EncodeWritesFrame
  refine ⟨decodeWord_encode .encode, fun s hp hshape => exec_invalidInput hp (encodeCheck_invalidInput.2 hshape),
    fun s hp hshape hlong => exec_capacityExceeded hp (encodeCheck_capacityExceeded.2 ⟨hshape, hlong⟩),
    fun s hp hshape hcap hlong => exec_outOfRange hp (encodeCheck_outOfRange.2 ⟨hshape, hcap, hlong⟩),
    fun s hshape hcap hfits => ?_⟩
  have hok : encodeCheck s = .ok := encodeCheck_ok.2 ⟨hshape, hcap, hfits⟩
  have hexec : exec .encode s = .next (effectOf .encode s).succeed := exec_ok hok
  obtain ⟨hregs, hmlen, hbit, hblen, -, hcap, hkey⟩ := registersWrittenOnlyByListedCommands .encode s _ hexec
  obtain ⟨hpwd, -, hmsg, hbits⟩ := spacesWrittenOnlyByListedCommands .encode s _ hexec
  refine ⟨(effectOf .encode s).succeed, hexec, endsOk_succeed _, ?pos, fun k hk => ?frame, fun a ha => ?other, hregs,
    hmlen nofun nofun, hbit nofun, hblen nofun, hcap nofun, hkey nofun, hmsg nofun nofun nofun, hpwd, hbits nofun nofun,
    by simp [State.SameModelFields]⟩
  case pos => rw [State.succeed_pos, toNat_pos_effectOf_encode hok]
  case frame => rw [State.succeed_pixAt, pixAt_effectOf_encode_in s hk]
  case other => rw [State.succeed_pixAt, pixAt_effectOf_encode_out s ha]

/-- Settles O33: the length the header spells is the one DECODE's checks and its effect use. -/
theorem decodeReadsFrame : Obligations.DecodeReadsFrame := by
  unfold Obligations.DecodeReadsFrame
  refine ⟨decodeWord_encode .decode, fun s hp hshape => exec_invalidInput hp (decodeCheck_invalidInput.2 hshape),
    fun s hp hshape hshort => exec_notFound hp (decodeCheck_notFound.2 ⟨hshape, .inl hshort⟩),
    fun s d hp hshape _ hd hgate => exec_notFound hp (decodeCheck_notFound.2 ⟨hshape, .inr ?gate⟩),
    fun s d hp hshape hheader hd hone hmax hlong => exec_outOfRange hp (decodeCheck_outOfRange.2 ?range),
    fun s d hshape hd hone hmax hfits => ?ok⟩
  case gate => rwa [declaredLength_eq hd]
  case range =>
    rw [declaredLength_eq hd]
    exact ⟨hshape, hone, hmax, hheader, hlong⟩
  case ok =>
    have hlen : declaredLength s = d.toNat := declaredLength_eq hd
    have hok : decodeCheck s = .ok := decodeCheck_ok.2 (hlen.symm ▸ ⟨hshape, hone, hmax, hfits⟩)
    have hexec : exec .decode s = .next (effectOf .decode s).succeed := exec_ok hok
    obtain ⟨hregs, -, hbit, hblen, -, hcap, hkey⟩ := registersWrittenOnlyByListedCommands .decode s _ hexec
    obtain ⟨hpwd, hpix, -, hbits⟩ := spacesWrittenOnlyByListedCommands .decode s _ hexec
    refine ⟨(effectOf .decode s).succeed, hexec, endsOk_succeed _, ?mlen, ?pos, fun i j hi hj => ?payload,
      fun a ha => ?beyond, hregs, hbit nofun, hblen nofun, hcap nofun, hkey nofun, hpix nofun nofun nofun, hpwd,
      hbits nofun nofun, by simp [State.SameModelFields]⟩
    case mlen => rw [State.succeed_mlen, mlen_effectOf_decode s hlen]
    case pos => rw [State.succeed_pos, toNat_pos_effectOf_decode hok, hlen]
    case payload => rw [State.succeed_msgAt, getLsbD_msgAt_effectOf_decode s (hlen.symm ▸ hi) hj]
    case beyond => rw [State.succeed_msgAt, msgAt_effectOf_decode_beyond s (hlen.symm ▸ ha)]

/-- Settles O51: the checks of DECODE read the shape and the header alone, and a zero header declares no length. -/
theorem decodeOutcomeDependsOnHeaderOnly : Obligations.DecodeOutcomeDependsOnHeaderOnly := by
  unfold Obligations.DecodeOutcomeDependsOnHeaderOnly
  constructor
  · intro s u t v hw hh hpixlen hheader hs hu
    have hcheck : decodeCheck u = decodeCheck s := decodeCheck_congr hw hh hpixlen hheader
    rw [status_of_exec hs, status_of_exec hu, checkOf, checkOf, hcheck]
  · intro s hshape hzero
    exact ⟨s.raise .notFound, exec_raise (decodeCheck_of_zero_carriers hshape hzero) nofun, statusDone_notFound⟩

/-- Settles O52: the receiver has the sender's password, so the two masks cancel. -/
theorem encodeThenDecodeReturnsMessage : Obligations.EncodeThenDecodeReturnsMessage := by
  unfold Obligations.EncodeThenDecodeReturnsMessage
  intro s hshape hone hmax hcap
  have hok : encodeCheck s = .ok := encodeCheck_ok_of_le_capacity hshape hone hcap
  refine ⟨(effectOf .encode s).succeed, exec_ok hok, statusDone_ok, fun u hw hh hpixlen hplen hpwd hpix => ?_⟩
  obtain ⟨v, hv, hstatus, hmlen, hmsg⟩ := exec_decode_of_encoded hok hone hmax hw hh hpixlen (pixAt_of_samePix_succeed hpix)
  refine ⟨v, hv, hstatus, hmlen, fun i hi => ?_⟩
  rw [hmsg i hi, maskAt_congr hplen hpwd, xor_xor_eq_self_iff]

/-- Settles O53: the bytes come back under both masks, and are the message exactly when the masks agree; no password masks
with 0. -/
theorem wrongPasswordGarblesSilently : Obligations.WrongPasswordGarblesSilently := by
  unfold Obligations.WrongPasswordGarblesSilently
  intro s hshape hone hmax hcap
  have hok : encodeCheck s = .ok := encodeCheck_ok_of_le_capacity hshape hone hcap
  refine ⟨(effectOf .encode s).succeed, exec_ok hok, fun u hw hh hpixlen hpix => ?_⟩
  obtain ⟨v, hv, hstatus, hmlen, hmsg⟩ := exec_decode_of_encoded hok hone hmax hw hh hpixlen (pixAt_of_samePix_succeed hpix)
  refine ⟨v, hv, hstatus, hmlen, hmsg, fun hs hu => ?both, fun hs hu => ?sender, fun hs hu => ?receiver⟩
  all_goals rw [forall_eq_iff_forall_maskAt_eq hmsg]
  case both =>
    simp only [maskAt_of_password hs, maskAt_of_password hu]
    exact forall_maskByte_eq_iff _ _ hone
  case sender =>
    simp only [maskAt_of_password hs, maskAt_of_no_password hu]
    exact forall_maskByte_eq_zero_iff _ hone
  case receiver =>
    simp only [maskAt_of_no_password hs, maskAt_of_password hu, eq_comm (a := 0#8)]
    exact forall_maskByte_eq_zero_iff _ hone

/-- Settles O37: below 64 carriers the capacity is 0, so the empty message passes that check of ENCODE and fails the next. -/
theorem frameFitsExactlyUpToCapacity : Obligations.FrameFitsExactlyUpToCapacity := by
  unfold Obligations.FrameFitsExactlyUpToCapacity
  refine ⟨fun w h l hcarriers => frame_fits_iff hcarriers,
    fun w h l hcarriers => ⟨by omega, capacity_eq_zero hcarriers⟩, fun s hshape hcarriers hempty => ?_⟩
  have hmlen : s.mlen.toNat = 0 := congrArg BitVec.toNat hempty
  have hlong : s.carriers < 64 + 8 * s.mlen.toNat := by
    rw [carriers_eq]
    omega
  have hcheck : encodeCheck s = .outOfRange := encodeCheck_outOfRange.2 ⟨hshape, hmlen ▸ Nat.zero_le _, hlong⟩
  exact ⟨s.raise .outOfRange, exec_raise hcheck nofun, statusDone_outOfRange⟩

end Sys2Proof.Machine


/-!
PROOFS of the family 60_exceptions: the outcomes of each command as a table (R140), which checks answer `InvalidInput` (R143) and
`CapacityExceeded` (R142), what a failed command leaves (R151), and the end of a reserved word (R146).
-/
namespace Sys2Proof.Machine

/-! ### The outcome table (60_exceptions R140) -/

/-- The column "raised by" of 60_exceptions R140, read by command: the outcomes the checks of a command can answer. -/
def outcomesOf : Instr → List Code
  | .capacity | .pack | .pwhash | .xmask => [.ok]
  | .unpack | .wrbit | .rdbit => [.ok, .outOfRange]
  | .embed | .extract => [.ok, .invalidInput, .outOfRange]
  | .encode => [.ok, .capacityExceeded, .invalidInput, .outOfRange]
  | .decode => [.ok, .notFound, .invalidInput, .outOfRange]

theorem unpackCheck_mem_outcomesOf (s : State) : unpackCheck s ∈ outcomesOf .unpack := by
  unfold unpackCheck
  split_ifs <;> decide

theorem indexCheck_mem_outcomesOf (s : State) : indexCheck s ∈ outcomesOf .wrbit := by
  unfold indexCheck
  split_ifs <;> decide

theorem streamCheck_mem_outcomesOf (s : State) : streamCheck s ∈ outcomesOf .embed := by
  unfold streamCheck
  split_ifs <;> decide

theorem encodeCheck_mem_outcomesOf (s : State) : encodeCheck s ∈ outcomesOf .encode := by
  unfold encodeCheck
  split_ifs <;> decide

theorem decodeCheck_mem_outcomesOf (s : State) : decodeCheck s ∈ outcomesOf .decode := by
  unfold decodeCheck
  split_ifs <;> decide

theorem checkOf_mem_outcomesOf (i : Instr) (s : State) : checkOf i s ∈ outcomesOf i := by
  cases i with
  | capacity | pack | pwhash | xmask => exact List.mem_singleton_self _
  | unpack => exact unpackCheck_mem_outcomesOf s
  | wrbit | rdbit => exact indexCheck_mem_outcomesOf s
  | embed | extract => exact streamCheck_mem_outcomesOf s
  | encode => exact encodeCheck_mem_outcomesOf s
  | decode => exact decodeCheck_mem_outcomesOf s

theorem invalidInput_mem_outcomesOf_iff {i : Instr} :
    .invalidInput ∈ outcomesOf i ↔ i = .embed ∨ i = .extract ∨ i = .encode ∨ i = .decode := by
  cases i <;> decide

theorem capacityExceeded_mem_outcomesOf_iff {i : Instr} : .capacityExceeded ∈ outcomesOf i ↔ i = .encode := by
  cases i <;> decide

/-! ### A command completes with the word of its checks -/

/-- No two outcomes share a `STATUS` word, so the word a command leaves tells what its checks answered. -/
theorem status_eq_iff {i : Instr} {s t : State} {c : Code} {word : BitVec 8} (h : exec i s = .next t)
    (hword : statusDone c = word) : t.status = word ↔ checkOf i s = c := by
  rw [status_of_exec h, ← hword]
  exact ⟨statusDone_inj, congrArg statusDone⟩

theorem exec_completes (i : Instr) (s : State) :
    ∃ t, exec i s = .next t ∧ t.busy = false ∧ t.done = true ∧ t.status = statusDone (checkOf i s) := by
  by_cases hc : checkOf i s = .ok
  · exact ⟨(effectOf i s).succeed, exec_ok hc, busy_succeed _, done_succeed _, hc ▸ State.succeed_status _⟩
  · exact ⟨s.raise (checkOf i s), exec_raise rfl hc, busy_raise _ _, done_raise _ _, State.raise_status _ _⟩

/-! ### Which checks answer `InvalidInput` and `CapacityExceeded` (60_exceptions R142, R143, R148) -/

/-- The four commands with an image operand check its shape first. -/
theorem checkOf_invalidInput_iff_of_image {i : Instr} {s : State}
    (hi : i = .embed ∨ i = .extract ∨ i = .encode ∨ i = .decode) :
    checkOf i s = .invalidInput ↔ ¬ s.ShapeOk := by
  rcases hi with rfl | rfl | rfl | rfl
  · exact streamCheck_invalidInput
  · exact streamCheck_invalidInput
  · exact encodeCheck_invalidInput
  · exact decodeCheck_invalidInput

theorem checkOf_invalidInput_iff {i : Instr} {s : State} :
    checkOf i s = .invalidInput ↔ (i = .embed ∨ i = .extract ∨ i = .encode ∨ i = .decode) ∧ ¬ s.ShapeOk := by
  constructor
  · intro hc
    have hi := invalidInput_mem_outcomesOf_iff.1 (hc ▸ checkOf_mem_outcomesOf i s)
    exact ⟨hi, (checkOf_invalidInput_iff_of_image hi).1 hc⟩
  · rintro ⟨hi, hshape⟩
    exact (checkOf_invalidInput_iff_of_image hi).2 hshape

theorem checkOf_capacityExceeded_iff {i : Instr} {s : State} :
    checkOf i s = .capacityExceeded ↔ i = .encode ∧ s.ShapeOk ∧ capacity s.w.toNat s.h.toNat < s.mlen.toNat := by
  constructor
  · intro hc
    obtain rfl := capacityExceeded_mem_outcomesOf_iff.1 (hc ▸ checkOf_mem_outcomesOf i s)
    exact ⟨rfl, encodeCheck_capacityExceeded.1 hc⟩
  · rintro ⟨rfl, hlong⟩
    exact encodeCheck_capacityExceeded.2 hlong

/-! ### The empty image (60_exceptions R143) -/

section
variable {s : State} (hempty : s.w.toNat * s.h.toNat = 0) (hpixlen : s.pixlen = 0#36)
include hempty hpixlen

theorem shapeOk_of_empty : s.ShapeOk := by
  rw [shapeOk_iff, hempty, hpixlen]
  rfl

/-- No byte fits an empty image. -/
theorem encodeCheck_of_empty_of_message (hmlen : s.mlen ≠ 0#32) : encodeCheck s = .capacityExceeded := by
  have hcap : capacity s.w.toNat s.h.toNat = 0 := capacity_eq_zero (by omega)
  have hpos : s.mlen.toNat ≠ 0 := fun h => hmlen (BitVec.eq_of_toNat_eq h)
  exact encodeCheck_capacityExceeded.2 ⟨shapeOk_of_empty hempty hpixlen, by omega⟩

/-- The frame of the empty message does not fit an empty image either: it has 64 bits. -/
theorem encodeCheck_of_empty_of_no_message (hmlen : s.mlen = 0#32) : encodeCheck s = .outOfRange := by
  have hzero : s.mlen.toNat = 0 := congrArg BitVec.toNat hmlen
  have hcarriers := carriers_eq s
  exact encodeCheck_outOfRange.2 ⟨shapeOk_of_empty hempty hpixlen, by omega, by omega⟩

theorem decodeCheck_of_empty : decodeCheck s = .notFound := by
  have hcarriers := carriers_eq s
  exact decodeCheck_notFound.2 ⟨shapeOk_of_empty hempty hpixlen, .inl (by omega)⟩

end

/-! ### A failed command (60_exceptions R151) and a reserved word (60_exceptions R146) -/

theorem onlyOutcome_of_exec {i : Instr} {s t : State} (hp : s.progress.toNat ≤ 100) (h : exec i s = .next t)
    (hfail : t.status ≠ 0x02#8) : s.OnlyOutcome t t.status := by
  rcases exec_cases h with ⟨-, rfl⟩ | ⟨-, rfl⟩
  · exact absurd statusDone_ok hfail
  · exact onlyOutcome_raise s _ hp

theorem runInFlight_error {s : State} {e : Reject} (h : decodeWord s.inFlight = .error e) :
    runInFlight s = .next (s.raise .invalidCommand) := by
  simp [runInFlight, h]

theorem onlyStatus_raise {s u : State} (c : Code) (h : s.OnlyStatus u) : s.OnlyStatus (u.raise c) := h

theorem toNat_encode_bounds (i : Instr) : 1 ≤ (encode i).toNat ∧ (encode i).toNat ≤ 11 := by
  cases i <;> decide

/-- The decoder rejects every word that is no command's (30_encoding R72). -/
theorem decodeWord_reserved {v : CmdWord} (h : v.toNat = 0 ∨ 12 ≤ v.toNat) : ∃ e, decodeWord v = .error e := by
  cases hd : decodeWord v with
  | error e => exact ⟨e, rfl⟩
  | ok i =>
    have hbounds := toNat_encode_bounds i
    rw [← eq_encode_of_decodeWord hd] at hbounds
    omega

/-! ### The obligations -/

/-- Settles O11: a failed command is a raised outcome, and so is the end of a reserved word. -/
theorem failedCommandChangesNothing : Obligations.FailedCommandChangesNothing := by
  unfold Obligations.FailedCommandChangesNothing
  refine ⟨fun i s t hp h hfail => onlyOutcome_of_exec hp h hfail, fun s t hb hp h hfail => ?_⟩
  rw [completeTurn_busy hb] at h
  cases hd : decodeWord s.inFlight with
  | ok i => exact onlyOutcome_of_exec hp (runInFlight_ok hd ▸ h) hfail
  | error e =>
    cases (runInFlight_error hd).symm.trans h
    exact onlyOutcome_raise s .invalidCommand hp

/-- Settles O12: every command completes with the word of its checks, which answer an outcome of the table. -/
theorem outcomesOfEachCommand : Obligations.OutcomesOfEachCommand := by
  unfold Obligations.OutcomesOfEachCommand
  intro i s
  obtain ⟨t, h, hbusy, hdone, hstatus⟩ := exec_completes i s
  have hmem : t.status ∈ (outcomesOf i).map statusDone := hstatus ▸ List.mem_map_of_mem (checkOf_mem_outcomesOf i s)
  refine ⟨t, h, hbusy, hdone, ?_⟩
  cases i <;>
    simpa [outcomesOf, statusDone_ok, statusDone_capacityExceeded, statusDone_notFound, statusDone_invalidInput,
      statusDone_outOfRange] using hmem

/-- Settles O34: the shape check is the first of the four commands and of no other; an empty image passes it. -/
theorem invalidInputExactlyOnShapeMismatch : Obligations.InvalidInputExactlyOnShapeMismatch := by
  unfold Obligations.InvalidInputExactlyOnShapeMismatch
  refine ⟨fun i s t h => (status_eq_iff h statusDone_invalidInput).trans checkOf_invalidInput_iff, fun s hside hpixlen => ?_⟩
  have hempty : s.w.toNat * s.h.toNat = 0 := by
    rcases hside with h | h <;> simp [h]
  obtain ⟨t, ht, -⟩ := exec_completes .encode s
  obtain ⟨u, hu, -⟩ := exec_completes .decode s
  exact ⟨t, u, ht,
    fun hmlen => (status_eq_iff ht statusDone_capacityExceeded).2 (encodeCheck_of_empty_of_message hempty hpixlen hmlen),
    fun hmlen => (status_eq_iff ht statusDone_outOfRange).2 (encodeCheck_of_empty_of_no_message hempty hpixlen hmlen),
    hu, (status_eq_iff hu statusDone_notFound).2 (decodeCheck_of_empty hempty hpixlen)⟩

/-- Settles O35: only ENCODE's second check answers `CapacityExceeded`. -/
theorem capacityExceededExactlyWhenTooLong : Obligations.CapacityExceededExactlyWhenTooLong := by
  unfold Obligations.CapacityExceededExactlyWhenTooLong
  intro i s t h
  exact (status_eq_iff h statusDone_capacityExceeded).trans checkOf_capacityExceeded_iff

/-- Settles O4: the write issues the word, and the completion turn raises, since the decoder rejects it. -/
theorem reservedWordEndsInvalidCommand : Obligations.ReservedWordEndsInvalidCommand := by
  unfold Obligations.ReservedWordEndsInvalidCommand
  refine ⟨by decide +kernel, fun s v hb hv hreserved => ?_⟩
  obtain ⟨u, hissue, hbusy, -, -, -, hprogress, hword, hsame⟩ := cmdWriteIssuesCommand s v hb hv
  obtain ⟨e, hd⟩ := decodeWord_reserved (hword.symm ▸ hreserved)
  have hcomplete : completeTurn u = .next (u.raise .invalidCommand) := by
    rw [completeTurn_busy hbusy, runInFlight_error hd]
  have hlow : u.progress.toNat ≤ 100 := by simp [hprogress]
  exact ⟨u, u.raise .invalidCommand, hissue, hcomplete, statusDone_invalidCommand, (progressFinal_bounds u hlow).2,
    onlyStatus_raise .invalidCommand hsame⟩

end Sys2Proof.Machine


/-!
PROOFS of the family 70_reset_and_hazards: what the reset input does to a running and to an idle engine (R160 to R162), what is out
of the host's reach while a command runs (R166), and that a running command ends without the host (R175).
-/
namespace Sys2Proof.Machine

/-! ### A running command ends without the host (70_reset R175) -/

/-- The completion turn of a running engine ends the command, a reserved word among them. -/
theorem completeTurn_completes {s : State} (hb : s.busy = true) :
    ∃ t, completeTurn s = .next t ∧ t.done = true ∧ t.busy = false := by
  rw [completeTurn_busy hb]
  cases hd : decodeWord s.inFlight with
  | ok i =>
    obtain ⟨t, h, hbusy, hdone, -⟩ := exec_completes i s
    exact ⟨t, (runInFlight_ok hd).trans h, hdone, hbusy⟩
  | error e => exact ⟨_, runInFlight_error hd, done_raise s _, busy_raise s _⟩

/-- A step of a running engine whose next turn is a `PROGRESS` raise. -/
theorem step_progress {s : State} {rest : List Turn} (hb : s.busy = true) (ha : s.agenda = .progress :: rest) :
    step s = .next (s.setAgenda rest).raiseProgress := by
  rw [step_cons ha]
  exact progressTurn_busy (s := s.setAgenda rest) hb

/-- Settles O8, by induction on the number of `PROGRESS` raises: each takes one step and leaves the engine running, and with
none left the engine completes. -/
theorem busyReachesDoneWithoutHost : Obligations.BusyReachesDoneWithoutHost := by
  unfold Obligations.BusyReachesDoneWithoutHost
  intro n
  induction n with
  | zero =>
    intro s hb ha
    obtain ⟨t, hcomplete, hdone, hidle⟩ := completeTurn_completes hb
    have hstep : step s = .next t := (step_nil ha).trans hcomplete
    exact ⟨t, run_of_step_next core 0 hstep, hdone, hidle⟩
  | succ n ih =>
    intro s hb ha
    have hstep := step_progress hb (ha.trans List.replicate_succ)
    obtain ⟨t, hrun, hdone, hidle⟩ := ih (s.setAgenda (List.replicate n .progress)).raiseProgress hb rfl
    exact ⟨t, (run_of_step_next core (n + 1) hstep).trans hrun, hdone, hidle⟩

/-! ### The reset of a running and of an idle engine (70_reset R160 to R162) -/

theorem hostAct_reset (s : State) : hostAct .reset s = .next s.applyReset := by rfl

theorem applyReset_running {s : State} (hb : s.busy = true) :
    s.applyReset = (s.scramble (inFlightWrites s)).resetRegisters := by
  rw [State.applyReset, resetMemories_running hb]

theorem applyReset_idle {s : State} (hb : s.busy = false) : s.applyReset = s.forgetMemories.resetRegisters := by
  rw [State.applyReset, resetMemories_idle hb]

/-! ### What the reset does to the registers (70_reset R160) -/

@[simp] theorem portRead_resetRegisters (s : State) (n : Nat) : s.resetRegisters.portRead n = 0 := by
  unfold State.portRead
  split <;> rfl

@[simp] theorem busy_resetRegisters (s : State) : s.resetRegisters.busy = false := by simp [State.busy]

@[simp] theorem done_resetRegisters (s : State) : s.resetRegisters.done = false := by simp [State.done]

/-- In the reset state every register already has its reset value. -/
theorem resetRegisters_reset : State.reset.resetRegisters = State.reset := by rfl

/-! ### What the reset does to the cells (70_reset R161, R162; 93_implementation_defined U9) -/

section
variable {s : State} {ws : WriteSet} {a : Nat}

theorem pixAt_scramble_out (h : a ∉ ws.pix) : (s.scramble ws).pixAt a = s.pixAt a := by
  rw [State.pixAt, State.scramble_pix, memRead_memFill, if_neg h]
  rfl

theorem msgAt_scramble_out (h : a ∉ ws.msg) : (s.scramble ws).msgAt a = s.msgAt a := by
  rw [State.msgAt, State.scramble_msg, memRead_memFill, if_neg h]
  rfl

theorem bitsAt_scramble_out (h : a ∉ ws.bits) : (s.scramble ws).bitsAt a = s.bitsAt a := by
  rw [State.bitsAt, State.scramble_bits, memRead_memFill, if_neg h]
  rfl

end

/-- A reset that strikes a command keeps `PWD` and every cell outside the write set of the word in flight. -/
theorem applyReset_running_keepsCells {s : State} (hb : s.busy = true) :
    s.SamePwd s.applyReset ∧
    (∀ a, a ∉ (inFlightWrites s).pix → s.applyReset.pixAt a = s.pixAt a) ∧
    (∀ a, a ∉ (inFlightWrites s).msg → s.applyReset.msgAt a = s.msgAt a) ∧
    (∀ a, a ∉ (inFlightWrites s).bits → s.applyReset.bitsAt a = s.bitsAt a) := by
  rw [applyReset_running hb]
  exact ⟨fun _ => rfl, fun _ h => pixAt_scramble_out h, fun _ h => msgAt_scramble_out h, fun _ h => bitsAt_scramble_out h⟩

/-- Once the memories are forgotten, the reset state is made of the model's own fields alone. -/
theorem forgetMemories_resetRegisters_congr {s u : State} (hfields : s.SameModelFields u) (hdraws : u.draws = s.draws) :
    u.forgetMemories.resetRegisters = s.forgetMemories.resetRegisters := by
  obtain ⟨hagenda, hhostData, hpowerOn⟩ := hfields
  simp [State.resetRegisters, hagenda, hhostData, hpowerOn, hdraws]

/-- Settles O21: by the write set of the word in flight, which is empty when the word is reserved. -/
theorem resetKeepsCellsOutsideWriteSet : Obligations.ResetKeepsCellsOutsideWriteSet := by
  unfold Obligations.ResetKeepsCellsOutsideWriteSet
  intro s hb
  obtain ⟨hpwd, hcells⟩ := applyReset_running_keepsCells hb
  refine ⟨s.applyReset, hostAct_reset s, hpwd, fun i hd => inFlightWrites_ok hd ▸ hcells, fun e hd => ?_⟩
  rw [inFlightWrites_reserved hd] at hcells
  obtain ⟨hpix, hmsg, hbits⟩ := hcells
  exact ⟨fun a => hpix a List.not_mem_nil, fun a => hmsg a List.not_mem_nil, fun a => hbits a List.not_mem_nil⟩

/-! ### The host's reach while a command runs (70_reset R166) -/

section
variable {s : State} (hb : s.busy = true)
include hb

theorem hostAct_writeReg_busy {n : Nat} (v : Nat) (hn : n ≤ 10) :
    hostAct (.writeReg n v) s = .refused .hostAccessWhileBusy := by
  simp [hostAct, hb, isOperandReg, hn]

theorem hostAct_readReg_busy {n : Nat} (hn : n ≤ 10) : hostAct (.readReg n) s = .refused .hostAccessWhileBusy := by
  simp [hostAct, hb, isOperandReg, hn]

theorem hostAct_writeCell_busy (sp : Space) (a v : Nat) :
    hostAct (.writeCell sp a v) s = .refused .hostAccessWhileBusy := by
  simp [hostAct, hb]

theorem hostAct_readCell_busy (sp : Space) (a : Nat) : hostAct (.readCell sp a) s = .refused .hostAccessWhileBusy := by
  simp [hostAct, hb]

end

/-! ### The remaining obligations -/

/-- Settles O19: the accesses R166 refuses, and the two status registers, which are no operand registers. -/
theorem hostAccessWhileBusyIsRefused : Obligations.HostAccessWhileBusyIsRefused := by
  unfold Obligations.HostAccessWhileBusyIsRefused
  intro s hb
  exact ⟨fun _ v hn => hostAct_writeReg_busy hb v hn, fun _ hn => hostAct_readReg_busy hb hn, hostAct_writeCell_busy hb,
    hostAct_readCell_busy hb, hostAct_readReg (.inr (by decide)), hostAct_readReg (.inr (by decide))⟩

/-- Settles O20: `resetRegisters` clears every register, and the reset state is its own `resetRegisters`. -/
theorem resetClearsEveryRegister : Obligations.ResetClearsEveryRegister := by
  unfold Obligations.ResetClearsEveryRegister
  have hidle : State.reset.busy = false := busy_resetRegisters State.reset
  refine ⟨fun n => ?_, hidle, done_resetRegisters State.reset, step_idle rfl hidle, fun s => ?_⟩
  · rw [← resetRegisters_reset, portRead_resetRegisters]
  · exact ⟨s.applyReset, hostAct_reset s, portRead_resetRegisters _, busy_resetRegisters _, done_resetRegisters _,
      rfl, rfl, rfl⟩

/-- Settles O56: the reset state has the status registers that the reset input leaves, and lists no cell. -/
theorem invariantHoldsAtReset : Obligations.InvariantHoldsAtReset := by
  unfold Obligations.InvariantHoldsAtReset
  have hm : State.reset.MemInv := ⟨⟨rfl, rfl⟩, ⟨rfl, rfl⟩, ⟨rfl, rfl⟩, rfl, rfl⟩
  exact inv_of_sameStatus (inv_applyReset hm) ⟨rfl, rfl, rfl⟩ hm

/-- Settles O58: the reset of an idle engine forgets the memories and then clears the registers. -/
theorem idleResetForgetsMemories : Obligations.IdleResetForgetsMemories := by
  unfold Obligations.IdleResetForgetsMemories
  refine ⟨fun s hb => ?_, fun s u hs hu hfields hdraws => ?_⟩
  · exact ⟨s.forgetMemories.resetRegisters, by rw [hostAct_reset, applyReset_idle hb], rfl, rfl, rfl, rfl, rfl⟩
  · rw [hostAct_reset, hostAct_reset, applyReset_idle hs, applyReset_idle hu,
      forgetMemories_resetRegisters_congr hfields hdraws]

end Sys2Proof.Machine


/-!
PROOFS of the family 'other': the cells a command writes (20_memory R44), the hash truncated once at the end (43_password_mask
R106), images with the same pixel count (20_memory R48), the codec from its primitives (92_eei_decisions D29), the first
command after reset (70_reset R163) and the closed form of the capacity (40_capacity R80).
-/
namespace Sys2Proof.Machine

/-! ### The cells a command writes (20_memory R44) -/

theorem writesIfOk_ok {c : Code} {ws : WriteSet} (h : c = .ok) : writesIfOk c ws = ws := if_pos h

section
variable {i : Instr} {s : State} {a : Nat}

theorem pixAt_effectOf_outside (hc : checkOf i s = .ok) (ha : a ∉ (writeSet i s).pix) :
    (effectOf i s).pixAt a = s.pixAt a := by
  cases i with
  | wrbit =>
    rw [checkOf] at hc
    simp only [writeSet, writesIfOk_ok hc, List.mem_singleton] at ha
    exact pixAt_effectOf_wrbit_other s ha
  | embed =>
    rw [checkOf] at hc
    simp only [writeSet, writesIfOk_ok hc, List.mem_map, List.mem_range, not_exists, not_and] at ha
    exact pixAt_effectOf_embed_out s fun u hu e => ha u hu e.symm
  | encode =>
    rw [checkOf] at hc
    simp only [writeSet, writesIfOk_ok hc, List.mem_map, List.mem_range, not_exists, not_and] at ha
    exact pixAt_effectOf_encode_out s fun k hk e => ha k hk e.symm
  | capacity | pack | unpack | rdbit | pwhash | xmask | extract | decode =>
    refine congrFun ?_ a
    exact effectOf_pixAt s nofun nofun nofun

theorem msgAt_effectOf_outside (hc : checkOf i s = .ok) (ha : a ∉ (writeSet i s).msg) :
    (effectOf i s).msgAt a = s.msgAt a := by
  cases i with
  | unpack =>
    rw [checkOf] at hc
    simp only [writeSet, writesIfOk_ok hc, List.mem_range, Nat.not_lt] at ha
    exact msgAt_effectOf_unpack_beyond s ha
  | xmask =>
    simp only [writeSet, List.mem_range, Nat.not_lt] at ha
    exact msgAt_effectOf_xmask_beyond s ha
  | decode =>
    rw [checkOf] at hc
    simp only [writeSet, writesIfOk_ok hc, List.mem_range, Nat.not_lt] at ha
    exact msgAt_effectOf_decode_beyond s ha
  | capacity | pack | wrbit | rdbit | pwhash | embed | extract | encode =>
    refine congrFun ?_ a
    exact effectOf_msgAt s nofun nofun nofun

theorem bitsAt_effectOf_outside (hc : checkOf i s = .ok) (ha : a ∉ (writeSet i s).bits) :
    (effectOf i s).bitsAt a = s.bitsAt a := by
  cases i with
  | pack =>
    simp only [writeSet, List.mem_range, Nat.not_lt] at ha
    exact bitsAt_effectOf_pack_beyond s ha
  | extract =>
    rw [checkOf] at hc
    simp only [writeSet, writesIfOk_ok hc, List.mem_range, Nat.not_lt] at ha
    exact bitsAt_effectOf_extract_beyond s ha
  | capacity | unpack | wrbit | rdbit | pwhash | xmask | embed | encode | decode =>
    refine congrFun ?_ a
    exact effectOf_bitsAt s nofun nofun

end

/-- Settles O15: an `OK` completion keeps the cells its effect does not write, a raised outcome keeps all. -/
theorem commandWritesOnlyItsWriteSet : Obligations.CommandWritesOnlyItsWriteSet := by
  unfold Obligations.CommandWritesOnlyItsWriteSet
  intro i s t h
  rcases exec_cases h with ⟨hc, rfl⟩ | ⟨-, rfl⟩
  · exact ⟨fun _ ha => pixAt_effectOf_outside hc ha, fun _ ha => msgAt_effectOf_outside hc ha,
      fun _ ha => bitsAt_effectOf_outside hc ha⟩
  · exact ⟨fun _ _ => rfl, fun _ _ => rfl, fun _ _ => rfl⟩

/-! ### The hash, truncated once at the end (43_password_mask R106) -/

/-- The exact sum of `p[j] * 31^(i-1-j)` over the first `i` characters, never truncated. -/
def exactHash (p : List CharCode) (i : Nat) : Int :=
  ((List.range i).map fun j => ((p.getD j 0#16).toNat : Int) * 31 ^ (i - 1 - j)).sum

theorem exactHash_succ (p : List CharCode) (i : Nat) :
    exactHash p (i + 1) = exactHash p i * 31 + ((p.getD i 0#16).toNat : Int) := by
  have hterm : ∀ j ∈ List.range i, ((p.getD j 0#16).toNat : Int) * 31 ^ (i - j) =
      ((p.getD j 0#16).toNat : Int) * 31 ^ (i - 1 - j) * 31 := fun j hj => by
    have hexp : i - j = i - 1 - j + 1 := by
      have hlt := List.mem_range.1 hj
      omega
    rw [hexp, pow_succ, mul_assoc]
  rw [exactHash, exactHash, List.range_succ, List.map_append, List.sum_append, ← List.sum_map_mul_right]
  simp only [Nat.add_sub_cancel, List.map_cons, List.map_nil, List.sum_singleton, Nat.sub_self, pow_zero, mul_one]
  rw [List.map_congr_left hterm]

/-- Truncating at every character and truncating once agree after any number of characters. -/
theorem hashPrefix_eq_bmod_exactHash (p : List CharCode) {i : Nat} (h : i ≤ p.length) :
    hashPrefix p i = (exactHash p i).bmod (2 ^ 32) := by
  induction i with
  | zero => rfl
  | succ i ih =>
    have hi : i < p.length := h
    have hchar : p.getD i 0#16 = p[i] := List.getD_eq_getElem p 0#16 hi
    rw [hashPrefix_succ p hi, hashStep_eq_bmod, ih (Nat.le_of_lt hi), exactHash_succ, hchar, ← Int.bmod_add_bmod,
      Int.bmod_mul_bmod, Int.bmod_add_bmod]

/-- Settles O42: the key is the absolute value of the hash after the last character. -/
theorem hashMayTruncateOnceAtEnd : Obligations.HashMayTruncateOnceAtEnd := by
  unfold Obligations.HashMayTruncateOnceAtEnd
  intro p
  rw [passwordHash_eq_natAbs_hashPrefix, hashPrefix_eq_bmod_exactHash p (Nat.le_refl _), exactHash]

/-! ### Images with the same pixel count (20_memory R48) -/

theorem capacity_congr {w h w' h' : Nat} (heq : w' * h' = w * h) : capacity w' h' = capacity w h := by
  rw [capacity_eq, capacity_eq, heq]

/-- `s` with other dimensions. -/
def State.withDims (s : State) (w h : Dim) : State := (s.setW w).setH h

section
variable (s : State) (w h : Dim)

theorem writeStream_withDims (p : Nat) (vs : List Bit) :
    (s.withDims w h).writeStream p vs = (s.writeStream p vs).withDims w h := by
  induction vs generalizing s p with
  | nil => rfl
  | cons v vs ih => exact ih (s.writeBit (sidx p) v) (p + 1)

theorem encodeBody_withDims : encodeBody (s.withDims w h) = encodeBody s := by rfl
theorem declaredLength_withDims : declaredLength (s.withDims w h) = declaredLength s := by rfl
theorem decodedMessage_withDims : decodedMessage (s.withDims w h) = decodedMessage s := by rfl

variable {s w h} (hpixels : w.toNat * h.toNat = s.w.toNat * s.h.toNat)
include hpixels

theorem pixels_withDims : (s.withDims w h).pixels = s.pixels := hpixels

theorem samples_withDims : (s.withDims w h).samples = s.samples := by
  rw [State.samples, State.samples, pixels_withDims hpixels]

theorem carriers_withDims : (s.withDims w h).carriers = s.carriers := by
  rw [State.carriers, State.carriers, pixels_withDims hpixels]

theorem shapeOk_withDims : (s.withDims w h).ShapeOk ↔ s.ShapeOk := by
  rw [State.ShapeOk, State.ShapeOk, samples_withDims hpixels]
  rfl

/-- The checks see `W` and `H` through the sample count, the carrier count and the capacity. -/
theorem checkOf_withDims (i : Instr) : checkOf i (s.withDims w h) = checkOf i s := by
  cases i with
  | capacity | pack | unpack | wrbit | rdbit | pwhash | xmask => rfl
  | embed | extract =>
    refine if_congr (not_congr (shapeOk_withDims hpixels)) rfl ?_
    rw [carriers_withDims hpixels]
    rfl
  | encode =>
    refine if_congr (not_congr (shapeOk_withDims hpixels)) rfl ?_
    rw [carriers_withDims hpixels, ← capacity_congr hpixels]
    rfl
  | decode =>
    refine if_congr (not_congr (shapeOk_withDims hpixels)) rfl ?_
    rw [carriers_withDims hpixels, declaredLength_withDims, decodedMessage_withDims]

/-- Only CAPACITY uses `W` and `H` in its effect, in their product. -/
theorem effectOf_withDims (i : Instr) : effectOf i (s.withDims w h) = (effectOf i s).withDims w h := by
  cases i with
  | pack | unpack | wrbit | rdbit | pwhash | xmask | extract | decode => rfl
  | capacity =>
    rw [effectOf_capacity, effectOf_capacity, ← capacity_congr hpixels]
    rfl
  | embed => exact congrArg State.advancePos (writeStream_withDims s w h _ _)
  | encode => exact congrArg (State.setPos · _) (writeStream_withDims s w h _ _)

theorem exec_withDims {i : Instr} {t : State} (hexec : exec i s = .next t) :
    exec i (s.withDims w h) = .next (t.withDims w h) := by
  have hcheck := checkOf_withDims hpixels i
  rcases exec_cases hexec with ⟨hok, rfl⟩ | ⟨hne, rfl⟩
  · rw [exec_ok (hcheck.trans hok), effectOf_withDims hpixels]
    rfl
  · exact exec_raise hcheck hne

end

/-- Settles O45: the checks do not see the new dimensions, and the effect commutes with them. -/
theorem onlyPixelCountMatters : Obligations.OnlyPixelCountMatters := by
  unfold Obligations.OnlyPixelCountMatters
  exact fun _ _ _ _ _ hpixels hexec => exec_withDims hpixels hexec

/-! ### ENCODE from PACK and EMBED (92_eei_decisions D29) -/

theorem pixAt_writeStream_congr {s u : State} (hpix : u.pixAt = s.pixAt) (p : Nat) (bs : List Bit) :
    (u.writeStream p bs).pixAt = (s.writeStream p bs).pixAt := by
  induction bs generalizing s u p with
  | nil => exact hpix
  | cons b bs ih =>
    refine ih (funext fun a => ?_) (p + 1)
    rw [State.pixAt_writeBit, State.pixAt_writeBit, hpix]

/-- PACK then EMBED, when the bits of the message fit: the message goes into the stream at the cursor, which advances past it
(41_bit_packer R90, 42_stream_engine R98). -/
theorem exec_pack_then_embed {r : State} (hshape : r.ShapeOk) (hfits : r.pos.toNat + 8 * r.mlen.toNat ≤ r.carriers) :
    ∃ p e, exec .pack r = .next p ∧ exec .embed p = .next e ∧ e.status = 0x02#8 ∧
      e.pos.toNat = r.pos.toNat + 8 * r.mlen.toNat ∧
      e.pixAt = (r.writeStream r.pos.toNat (bytesToBits r.message)).pixAt := by
  have hpblen : (effectOf .pack r).succeed.blen.toNat = 8 * r.mlen.toNat := toNat_blen_effectOf_pack r
  have hppos : (effectOf .pack r).succeed.pos = r.pos := effectOf_pos (i := .pack) r nofun nofun nofun nofun
  have hpbits : (effectOf .pack r).succeed.bitSeq = bytesToBits r.message := bitSeq_effectOf_pack r
  have hppix : (effectOf .pack r).succeed.pixAt = r.pixAt := effectOf_pixAt (i := .pack) r nofun nofun nofun
  have hcheck : streamCheck (effectOf .pack r).succeed = .ok := by
    obtain ⟨hw, hh, hpixlen, -, -⟩ := effectOf_sameHostRegs (i := .pack) r
    rw [streamCheck_ok, hppos, hpblen, carriers_congr (u := (effectOf .pack r).succeed) hw hh]
    exact ⟨(shapeOk_congr hw hh hpixlen).2 hshape, hfits⟩
  refine ⟨(effectOf .pack r).succeed, _, exec_ok rfl, exec_ok hcheck, statusDone_ok, ?pos, ?pix⟩
  case pos => rw [State.succeed_pos, pos_effectOf_embed, toNat_pos_advancePos hcheck, hppos, hpblen]
  case pix =>
    rw [State.succeed_pixAt, effectOf_embed, State.advancePos_pixAt, hppos, hpbits]
    exact pixAt_writeStream_congr hppix _ _

/-- A message is the bytes its cells hold. -/
theorem message_eq_of_msgAt {r : State} {bytes : List Byte} (hlen : bytes.length = r.mlen.toNat)
    (hbytes : ∀ i (h : i < bytes.length), r.msgAt i = bytes[i]) : r.message = bytes := by
  refine List.ext_getElem ((State.length_message r).trans hlen.symm) fun i _ hi => ?_
  rw [State.getElem_message, hbytes i hi]

/-- Settles O54: both write the frame bits from stream position 0 on the same samples. -/
theorem encodeEqualsPackThenEmbed : Obligations.EncodeEqualsPackThenEmbed := by
  unfold Obligations.EncodeEqualsPackThenEmbed
  intro s r hshape hcap hfits hw hh hpixlen hpix hpos hmlen hbytes
  have hok : encodeCheck s = .ok := encodeCheck_ok.2 ⟨hshape, hcap, hfits⟩
  have hmsg : r.message = frameBytes s.mlen (encodeBody s) :=
    message_eq_of_msgAt (by rw [length_frameBytes, length_encodeBody, hmlen]) hbytes
  have hzero : r.pos.toNat = 0 := congrArg BitVec.toNat hpos
  have hrfits : r.pos.toNat + 8 * r.mlen.toNat ≤ r.carriers := by
    rw [hzero, hmlen, carriers_congr hw hh, carriers_eq]
    omega
  obtain ⟨p, e, hp, he, hstatus, hepos, hepix⟩ := exec_pack_then_embed ((shapeOk_congr hw hh hpixlen).2 hshape) hrfits
  refine ⟨(effectOf .encode s).succeed, p, e, exec_ok hok, statusDone_ok, hp, he, hstatus,
    BitVec.eq_of_toNat_eq ?pos, congrFun ?pix⟩
  case pos =>
    rw [hepos, hzero, hmlen, State.succeed_pos, toNat_pos_effectOf_encode hok]
    omega
  case pix =>
    rw [hepix, hzero, hmsg, State.succeed_pixAt, effectOf_encode, State.setPos_pixAt, ← frameBits]
    exact pixAt_writeStream_congr (funext hpix) _ _

/-! ### DECODE from EXTRACT and UNPACK (95_test_vectors P5) -/

theorem msgAt_writeMsg_congr {s u : State} (hmsg : u.msgAt = s.msgAt) (bytes : List Byte) :
    (u.writeMsg 0 bytes).msgAt = (s.writeMsg 0 bytes).msgAt := by
  funext a
  by_cases ha : a < bytes.length
  · rw [State.msgAt_writeMsg_zero u a bytes ha, State.msgAt_writeMsg_zero s a bytes ha]
  · have hout : a < 0 ∨ 0 + bytes.length ≤ a := by omega
    rw [State.msgAt_writeMsg_out u 0 a bytes hout, State.msgAt_writeMsg_out s 0 a bytes hout, hmsg]

/-- The bit sequence EXTRACT leaves is the range of the stream it reads (42_stream_engine R99). -/
theorem bitSeq_effectOf_extract (s : State) :
    (effectOf .extract s).bitSeq = s.readStream s.pos.toNat s.blen.toNat := by
  have hblen := effectOf_blen (i := .extract) s nofun
  refine List.ext_getElem ?_ fun k hk _ => ?_
  · rw [State.length_bitSeq, State.length_readStream, hblen]
  · rw [State.length_bitSeq, hblen] at hk
    rw [State.getElem_bitSeq, State.getElem_readStream, bitsAt_effectOf_extract s hk]

theorem decodedMessage_of_no_password {s : State} (h : s.plen = 0#16) :
    decodedMessage s = bitsToBytes (s.readStream 32 (8 * declaredLength s)) := by
  have hempty : ¬ s.password.length ≠ 0 := by
    rw [State.length_password, h]
    decide
  exact if_neg hempty

/-- DECODE without a password writes the payload as it stands in the stream (44_frame_codec R125). -/
theorem msgAt_effectOf_decode_of_no_password {s : State} (h : s.plen = 0#16) :
    (effectOf .decode s).msgAt = (s.writeMsg 0 (bitsToBytes (s.readStream 32 (8 * declaredLength s)))).msgAt := by
  rw [effectOf_decode, State.setPos_msgAt, State.setMlen_msgAt, decodedMessage_of_no_password h]

/-- EXTRACT of `n` whole bytes, then UNPACK: the bytes the stream holds at the cursor, their number and the advanced cursor
(42_stream_engine R99, 41_bit_packer R91). -/
theorem exec_extract_then_unpack {v : State} {n : Nat} (hcheck : streamCheck v = .ok) (hblen : v.blen.toNat = 8 * n)
    (hn : n ≤ 2 ^ 32 - 1) :
    ∃ x y, exec .extract v = .next x ∧ exec .unpack x = .next y ∧ y.status = 0x02#8 ∧ y.mlen.toNat = n ∧
      y.pos.toNat = v.pos.toNat + 8 * n ∧
      y.msgAt = (v.writeMsg 0 (bitsToBytes (v.readStream v.pos.toNat (8 * n)))).msgAt := by
  have hxblen : (effectOf .extract v).succeed.blen.toNat = 8 * n :=
    (congrArg BitVec.toNat (effectOf_blen (i := .extract) v nofun)).trans hblen
  have hxbits : (effectOf .extract v).succeed.bitSeq = v.readStream v.pos.toNat (8 * n) :=
    hblen ▸ bitSeq_effectOf_extract v
  have hxmsg : (effectOf .extract v).succeed.msgAt = v.msgAt := effectOf_msgAt v nofun nofun nofun
  have hunpack : unpackCheck (effectOf .extract v).succeed = .ok := by rwa [unpackCheck_ok, hxblen, ceilDiv8_mul]
  refine ⟨(effectOf .extract v).succeed, _, exec_ok hcheck, exec_ok hunpack, statusDone_ok, ?mlen, ?pos, ?msg⟩
  case mlen => rw [State.succeed_mlen, toNat_mlen_effectOf_unpack hunpack, hxblen, ceilDiv8_mul]
  case pos =>
    rw [State.succeed_pos, effectOf_pos (i := .unpack) _ nofun nofun nofun nofun, State.succeed_pos, pos_effectOf_extract,
      toNat_pos_advancePos hcheck, hblen]
  case msg =>
    rw [State.succeed_msgAt, effectOf_unpack, State.setMlen_msgAt, hxbits]
    exact msgAt_writeMsg_congr hxmsg _

/-- Settles O55: both write the bytes of the stream range after the header. -/
theorem decodeEqualsExtractThenUnpack : Obligations.DecodeEqualsExtractThenUnpack := by
  unfold Obligations.DecodeEqualsExtractThenUnpack
  intro s d hshape hd hone hmax hfits hplen
  have hlen : declaredLength s = d.toNat := declaredLength_eq hd
  have hok : decodeCheck s = .ok := decodeCheck_ok.2 (hlen.symm ▸ ⟨hshape, hone, hmax, hfits⟩)
  have hblen : ((s.setPos 32#36).setBlen (BitVec.ofNat 36 (8 * d.toNat))).blen.toNat = 8 * d.toNat :=
    Nat.mod_eq_of_lt (by omega)
  have hextract : streamCheck ((s.setPos 32#36).setBlen (BitVec.ofNat 36 (8 * d.toNat))) = .ok :=
    streamCheck_ok.2 ⟨hshape, hblen.symm ▸ hfits⟩
  obtain ⟨x, y, hx, hy, hstatus, hmlen, hpos, hmsg⟩ := exec_extract_then_unpack hextract hblen (by omega)
  refine ⟨(effectOf .decode s).succeed, x, y, exec_ok hok, statusDone_ok, hx, hy, hstatus, BitVec.eq_of_toNat_eq ?mlen,
    BitVec.eq_of_toNat_eq ?pos, congrFun ?msg⟩
  case mlen => rw [hmlen, State.succeed_mlen, mlen_effectOf_decode s hlen]
  case pos =>
    rw [hpos, State.succeed_pos, toNat_pos_effectOf_decode hok, hlen]
    rfl
  case msg =>
    rw [hmsg, State.succeed_msgAt, msgAt_effectOf_decode_of_no_password hplen, hlen]
    rfl

/-! ### The first command after reset (70_reset R163) -/

/-- The reset state with `i` issued. -/
def firstState (i : Instr) : State := State.reset.issue (encode i)

theorem step_reset_withFetchWord (i : Instr) :
    step (State.reset.withFetchWord 8 (encode i).toNat) = exec i (firstState i) := by
  have hword : BitVec.ofNat 8 ((encode i).toNat % 2 ^ 8) = encode i := by
    rw [Nat.mod_eq_of_lt (encode i).isLt, BitVec.ofNat_toNat, BitVec.setWidth_eq]
  have hstate : State.reset.withFetchWord 8 (encode i).toNat = firstState i := by
    rw [State.withFetchWord, hword]
    rfl
  have hbusy : (firstState i).busy = true := busy_issue State.reset (encode i)
  rw [hstate, step_nil rfl, completeTurn_busy hbusy, runInFlight_ok (s := firstState i) (decodeWord_encode i)]

/-- The commands that end `OK` there find empty operands, and write 0 to registers that hold 0. -/
theorem effectOf_firstState {i : Instr} (h : checkOf i (firstState i) = .ok) : effectOf i (firstState i) = firstState i := by
  cases i with
  | capacity | pack | unpack | pwhash | xmask | embed | extract => rfl
  | wrbit | rdbit | encode | decode => exact absurd h (by decide)

/-- The eleven commands, in the order of their codes (30_encoding R71). -/
def allInstrs : List Instr :=
  [.capacity, .pack, .unpack, .wrbit, .rdbit, .pwhash, .xmask, .embed, .extract, .encode, .decode]

/-- Settles O22: each command ends with the word of its checks, and leaves the state it started from but for the status
registers. -/
theorem firstCommandAfterReset : Obligations.FirstCommandAfterReset := by
  unfold Obligations.FirstCommandAfterReset
  intro p hp
  have htable : p ∈ allInstrs.map fun i => ((encode i).toNat, statusDone (checkOf i (firstState i))) := hp
  obtain ⟨i, -, rfl⟩ := List.mem_map.1 htable
  obtain ⟨t, hexec, -, -, hstatus⟩ := exec_completes i (firstState i)
  refine ⟨t, (step_reset_withFetchWord i).trans hexec, hstatus, ?_⟩
  rcases exec_cases hexec with ⟨hok, rfl⟩ | ⟨-, rfl⟩
  · rw [effectOf_firstState hok]
    exact ⟨⟨⟨rfl, rfl, rfl, rfl, rfl⟩, rfl, rfl, rfl, rfl, rfl, rfl⟩, rfl, rfl, rfl, rfl⟩
  · exact ⟨⟨⟨rfl, rfl, rfl, rfl, rfl⟩, rfl, rfl, rfl, rfl, rfl, rfl⟩, rfl, rfl, rfl, rfl⟩

/-! ### The closed form of the capacity (40_capacity R80) -/

/-- Settles O36: each fact is read off the closed form, in which `W` and `H` stand in their product alone. -/
theorem capacityFacts : Obligations.CapacityFacts := by
  unfold Obligations.CapacityFacts
  refine ⟨fun w h => ?closed, fun w h => ?zero, fun w h w' h' heq => ?product, fun w h w' h' hle => ?mono,
    fun w h hfits => ?fits⟩
  case closed => rw [capacity_eq_ite, Nat.mul_comm (w * h) 3]
  case zero =>
    rw [capacity_eq]
    omega
  case product => exact capacity_congr heq
  case mono =>
    rw [capacity_eq, capacity_eq]
    omega
  case fits =>
    rw [Nat.mul_assoc] at hfits ⊢
    rw [capacity_eq]
    omega

end Sys2Proof.Machine
